-- ==== Sys2Proof/Word.lean ====
section
/-! DEFINITION. The words of the hardware: bytes and 32-bit addresses (spec 00_scope.md R8). -/

namespace Sys2Proof

/-- A byte, "an integer `0..255`" (R8). -/
abbrev Byte := BitVec 8

/-- An address, "an integer `0..2^32-1`" (R8). -/
abbrev Addr := BitVec 32

end Sys2Proof
end

