-- ==== Sys2Proof/Config.lean ====
section
/-! DEFINITION. The implementation parameters of 00_scope.md R7 as one record of plain data, the values the
environment chooses, and the free values the spec leaves open (`opaque`, no value can be proved of one). -/

namespace Sys2Proof

/-- The four erase commands (R3). -/
inductive EraseKind where
  | sub4K | sub32K | sector | die
  deriving DecidableEq, Repr

/-- The poll classes (R7, 41_sequencer.md R150). -/
inductive PollClass where
  | program
  | erase (k : EraseKind)
  deriving DecidableEq, Repr

/-- The nine opcode bytes (R7). -/
structure Opcodes where
  read : Byte
  program : Byte
  wren : Byte
  erase4K : Byte
  erase32K : Byte
  eraseSector : Byte
  eraseDie : Byte
  rdsr : Byte
  rdid : Byte
  deriving DecidableEq, Repr

/-- `CFG_POLL[c]` (10_state.md R34): `MAX_POLLS[c]`, where `none` is the spec's ∞, and `POLL_INTERVAL[c]` in
microseconds, which no rule reads (log 24). -/
structure PollConfig where
  maxPolls : Option Nat
  interval : Nat
  deriving DecidableEq, Repr

/-- The parameter `PROGRAM_CELL` (R7): the default `old & d`, or one of the functions the spec leaves open, which
have only the law of 20_memory.md R68 (log 19). -/
inductive CellRule where
  | andOld
  | free (k : Nat)
  deriving DecidableEq, Repr

/-- The parameters of R7 that are not fixed; "constants given at reset" (D36), never written by a step (R34). -/
structure Config where
  opcodes : Opcodes
  pageSize : Nat
  flashSize : Nat
  sectorSize : Nat
  dieSize : Nat
  idLen : Nat
  pollProgram : PollConfig
  pollErase4K : PollConfig
  pollErase32K : PollConfig
  pollEraseSector : PollConfig
  pollEraseDie : PollConfig
  spiClockHz : Nat
  spiMode : Nat
  busId : Nat
  chipSelect : Nat
  /-- `MAX_FRAME`, `none` is the spec's ∞. -/
  maxFrame : Option Nat
  srHi : BitVec 6
  chipId : List Byte
  programCell : CellRule
  assumeEraseHold : Bool
  deriving DecidableEq, Repr

/-- The default opcode bytes of R7. PRESUMED (log 2): the spec marks them "from general knowledge, not in source". -/
def Opcodes.default : Opcodes :=
  { read := 0x13, program := 0x12, wren := 0x06, erase4K := 0x21, erase32K := 0x5C, eraseSector := 0xDC,
    eraseDie := 0xC4, rdsr := 0x05, rdid := 0x9F }

/-- The construction arguments of the machine at `State.reset`: R7's defaults and, where R7 has none, the values of
95_test_vectors.md. DESIGN CHOICE (log 1). -/
def Config.default : Config :=
  { opcodes := Opcodes.default, pageSize := 256, flashSize := 0x02000000, sectorSize := 65536,
    dieSize := 0x02000000, idLen := 3,
    pollProgram := ⟨some 4, 10⟩, pollErase4K := ⟨some 4, 1000⟩, pollErase32K := ⟨some 4, 2000⟩,
    pollEraseSector := ⟨some 4, 10000⟩, pollEraseDie := ⟨some 4, 10000⟩,
    spiClockHz := 1000000, spiMode := 0, busId := 0, chipSelect := 0, maxFrame := none,
    srHi := 0, chipId := [0x20, 0xBA, 0x19], programCell := .andOld, assumeEraseHold := true }

/-- The nine opcode bytes in R7's order. -/
def Opcodes.all (o : Opcodes) : List Byte :=
  [o.read, o.program, o.wren, o.erase4K, o.erase32K, o.eraseSector, o.eraseDie, o.rdsr, o.rdid]

/-- `MAX_POLLS[c]` "in `{1, 2, ...} ∪ {∞}`" (R7). -/
def PollConfig.wf (p : PollConfig) : Bool := p.maxPolls.all (fun m => decide (1 ≤ m))

/-- The legal values of the parameters (R7, 10_state.md R34). -/
def Config.wf (c : Config) : Bool :=
  decide c.opcodes.all.Nodup && decide (1 ≤ c.pageSize) && decide (1 ≤ c.flashSize) &&
  decide (c.flashSize ≤ 2 ^ 32) && decide (65536 ≤ c.sectorSize) && decide (1 ≤ c.dieSize) &&
  decide (1 ≤ c.idLen) && c.pollProgram.wf && c.pollErase4K.wf && c.pollErase32K.wf && c.pollEraseSector.wf &&
  c.pollEraseDie.wf && c.maxFrame.all (fun m => decide (1 ≤ m)) && decide (c.chipId.length = c.idLen)

/-- What the environment does with one exchange (40_framer.md R127 to R129; log 7).
`chip junk`: the chip handles the frame and its response comes back, the bytes no rule defines being those of `junk`.
`bytes reached r`: an environment other than the chip model answers `r`. `err reached`: the exchange fails.
`reached` says whether the chip handled the frame ("the model must allow the chip to have handled the frame or not"). -/
inductive Answer where
  | chip (junk : List Byte)
  | bytes (reached : Bool) (r : List Byte)
  | err (reached : Bool)
  deriving DecidableEq, Repr, Inhabited

/-- FREE VALUE (log 6): the environment's answer to exchange `n` where `events` holds none. -/
opaque Config.freeAnswer : Nat → Answer

/-- FREE VALUE (log 8): whether the chip's completion step (20_memory.md R73) is taken just before exchange `n`, where
`events` does not say. -/
opaque Config.freeCompletes : Nat → Bool

/-- FREE VALUE (log 7): the `draw` at offset `i` of the response to exchange `n` (20_memory.md R65). -/
opaque Config.freeByte : Nat → Nat → Byte

/-- FREE VALUE (log 9): the array's content once `CHIP_FAULT` is 1 (20_memory.md R75). -/
opaque Config.freeCells : Nat → List (Nat × Byte)

/-- FREE VALUE (log 9, log 29): `WIP`, `WEL_CHIP` and `HOLD` (`i` = 0, 1, 2) once `CHIP_FAULT` is 1 (20_memory.md R75), and
after a loss of power (60_exceptions.md R204; log 29). -/
opaque Config.freeFlag : Nat → Nat → Bool

/-- FREE VALUE (log 19): the cell functions of `CellRule.free k`, on old bytes other than 0xFF. -/
opaque Config.freeCell : Nat → Byte → Byte → Byte

/-- FREE VALUE (log 3): `OP` after reset, "unspecified" (10_state.md R39). -/
opaque Config.unspecifiedOp : Nat → BitVec 4

/-- FREE VALUE (log 3): `ADDR` after reset (10_state.md R39). -/
opaque Config.unspecifiedAddr : Nat → Addr

/-- FREE VALUE (log 3, log 16): `LEN` after reset (10_state.md R39) and where no rule gives it a value. -/
opaque Config.unspecifiedLen : Nat → BitVec 32

/-- FREE VALUE (log 3): `WBUF` after reset (10_state.md R39). -/
opaque Config.unspecifiedWbuf : Nat → List Byte

/-- FREE VALUE (log 3): `POLL_CNT` after reset (10_state.md R39). -/
opaque Config.unspecifiedPollCnt : Nat → Nat

end Sys2Proof
end

