-- ==== Sys2Proof/Syntax.lean ====
section
/-! DEFINITION. The two instruction levels of 00_scope.md R3: the nine wire commands and the eleven host operations,
one constructor per row of spec/opcode_table.json, and the two forms in which they reach the machine. -/

namespace Sys2Proof

/-- The host operations as the dispatch table names them (30_encoding.md R104). -/
inductive HostOp where
  | readByte | readBytes | writeEnable | writeByte | writeBytes
  | erase4K | erase32K | eraseSector | eraseDie
  | readStatusRegister | readChipId
  deriving DecidableEq, Repr

/-- The host descriptor `H` of 30_encoding.md R101, four fields of the widths given there; the spec lays out no bytes
(log 12). -/
structure Descriptor where
  op : BitVec 4
  addr : Addr
  count : BitVec 32
  data : List Byte
  deriving DecidableEq, Repr

/-- What is presented to the machine: a descriptor at the command port (R101), or a frame on the transport port, as
the chip would receive it (20_memory.md R83; log 14). -/
inductive Command where
  | host (h : Descriptor)
  | wire (f : List Byte)
  deriving DecidableEq, Repr

/-- The instructions. `wireX` are the wire commands (30_encoding.md R96) with the operands of their format (R90); the
rest are the host operations with the operands of R101. `writeEnable`, `readStatusRegister` and `readChipId` carry the
`H.addr` they do not use, since acceptance loads it into `ADDR` all the same (R102; log 15). -/
inductive Instr where
  /-- `READ`, format AR: `n` fillers. -/
  | wireRead (addr : Addr) (n : Nat)
  /-- `PROGRAM`, format AW. -/
  | wireProgram (addr : Addr) (data : List Byte)
  /-- `WREN`, format N. -/
  | wireWren
  /-- `ERASE_4K`, format A. -/
  | wireErase4K (addr : Addr)
  /-- `ERASE_32K`, format A. -/
  | wireErase32K (addr : Addr)
  /-- `ERASE_SECTOR`, format A. -/
  | wireEraseSector (addr : Addr)
  /-- `ERASE_DIE`, format A. -/
  | wireEraseDie (addr : Addr)
  /-- `RDSR`, format S with one filler. -/
  | wireRdsr
  /-- `RDID`, format S with `ID_LEN` fillers. -/
  | wireRdid
  | readByte (addr : Addr)
  | readBytes (addr : Addr) (count : BitVec 32)
  | writeEnable (addr : Addr)
  | writeByte (addr : Addr) (value : Byte)
  | writeBytes (addr : Addr) (values : List Byte)
  | erase4K (addr : Addr)
  | erase32K (addr : Addr)
  | eraseSector (addr : Addr)
  | eraseDie (addr : Addr)
  | readStatusRegister (addr : Addr)
  | readChipId (addr : Addr)
  deriving DecidableEq, Repr

end Sys2Proof
end

