-- ==== Sys2Proof/WellFormed.lean ====
section
/-! DEFINITION. Which instructions are well formed: the operand bounds of the wire formats (30_encoding.md R90).
A host operation is always well formed: one whose operands are out of range is accepted and ends in `INVALID_INPUT`
(41_sequencer.md R140). -/

namespace Sys2Proof

/-- R90: `PROGRAM` has `1 <= len(d) <= PAGE_SIZE`; the `n` of `READ` is the 32-bit `LEN` (10_state.md R24). -/
def Instr.wf (c : Config) : Instr → Bool
  | .wireRead _ n => decide (n < 2 ^ 32)
  | .wireProgram _ d => decide (1 ≤ d.length) && decide (d.length ≤ c.pageSize)
  | .wireWren => true
  | .wireErase4K _ => true
  | .wireErase32K _ => true
  | .wireEraseSector _ => true
  | .wireEraseDie _ => true
  | .wireRdsr => true
  | .wireRdid => true
  | .readByte _ => true
  | .readBytes _ _ => true
  | .writeEnable _ => true
  | .writeByte _ _ => true
  | .writeBytes _ _ => true
  | .erase4K _ => true
  | .erase32K _ => true
  | .eraseSector _ => true
  | .eraseDie _ => true
  | .readStatusRegister _ => true
  | .readChipId _ => true

end Sys2Proof
end

