-- ==== Sys2Proof/Decode.lean ====
section
/-! DEFINITION. The frame encoder (40_framer.md R120, R123), the decoder of descriptors and frames, total and rejecting
by name, and the encoder of instructions, both from the tables of 30_encoding.md R90, R91, R96, R101, R104. -/

namespace Sys2Proof

/-! ## The frame encoder -/

/-- The four address bytes, "big-endian, high byte first" (20_memory.md R54, 30_encoding.md R93). -/
def addrBytes (a : Addr) : List Byte :=
  [a.extractLsb' 24 8, a.extractLsb' 16 8, a.extractLsb' 8 8, a.extractLsb' 0 8]

/-- From a frame back to the address (R93). -/
def addrOfBytes (a3 a2 a1 a0 : Byte) : Addr := a3 ++ a2 ++ a1 ++ a0

/-- The third argument of `frame`: `Fill(n)` or `Data(d)` (R120). -/
inductive Payload where
  | fill (n : Nat)
  | data (d : List Byte)
  deriving DecidableEq, Repr

/-- The bytes after the header: `n` fillers `0x00`, or the payload unchanged (30_encoding.md R94). -/
def Payload.bytes : Payload → List Byte
  | .fill n => List.replicate n 0x00
  | .data d => d

/-- `frame(op, A, pl)` (R120). -/
def frame (op : Byte) (a : Addr) (pl : Payload) : List Byte := op :: (addrBytes a ++ pl.bytes)

/-- `frame0(op, n)` (R123). -/
def frame0 (op : Byte) (n : Nat) : List Byte := op :: List.replicate n 0x00

/-! ## Host operation codes -/

/-- The code of a host operation (30_encoding.md R104). -/
def HostOp.code : HostOp → BitVec 4
  | .readByte => 0
  | .readBytes => 1
  | .writeEnable => 2
  | .writeByte => 3
  | .writeBytes => 4
  | .erase4K => 5
  | .erase32K => 6
  | .eraseSector => 7
  | .eraseDie => 8
  | .readStatusRegister => 9
  | .readChipId => 10

/-- The host operation a code stands for; 11 to 15 are reserved (R104). -/
def HostOp.ofCode (b : BitVec 4) : Option HostOp :=
  match b.toNat with
  | 0 => some .readByte
  | 1 => some .readBytes
  | 2 => some .writeEnable
  | 3 => some .writeByte
  | 4 => some .writeBytes
  | 5 => some .erase4K
  | 6 => some .erase32K
  | 7 => some .eraseSector
  | 8 => some .eraseDie
  | 9 => some .readStatusRegister
  | 10 => some .readChipId
  | _ => none

/-! ## The decoder -/

/-- Why bytes are no instruction. -/
inductive DecodeError where
  /-- `H.op` in 11 to 15 (30_encoding.md R105). -/
  | reservedCode (op : BitVec 4)
  /-- A `writeByte` descriptor whose `H.data` is not exactly one byte (R105). -/
  | writeByteData (n : Nat)
  /-- No byte at all; a frame is non-empty (00_scope.md R9). -/
  | emptyFrame
  /-- Byte 0 is none of the nine opcodes (20_memory.md R74). -/
  | unknownOpcode (op : Byte)
  /-- A frame whose length is not its format's (R90). -/
  | frameLength (op : Byte) (n : Nat)
  /-- A filler byte other than `0x00` (R94). -/
  | fillerByte (op : Byte)
  deriving DecidableEq, Repr

/-- A host descriptor (R101, R104, R105); a field an operation ignores may hold any value. -/
def decodeDescriptor (h : Descriptor) : Except DecodeError Instr :=
  match HostOp.ofCode h.op with
  | none => .error (.reservedCode h.op)
  | some .readByte => .ok (.readByte h.addr)
  | some .readBytes => .ok (.readBytes h.addr h.count)
  | some .writeEnable => .ok (.writeEnable h.addr)
  | some .writeByte =>
    match h.data with
    | [v] => .ok (.writeByte h.addr v)
    | d => .error (.writeByteData d.length)
  | some .writeBytes => .ok (.writeBytes h.addr h.data)
  | some .erase4K => .ok (.erase4K h.addr)
  | some .erase32K => .ok (.erase32K h.addr)
  | some .eraseSector => .ok (.eraseSector h.addr)
  | some .eraseDie => .ok (.eraseDie h.addr)
  | some .readStatusRegister => .ok (.readStatusRegister h.addr)
  | some .readChipId => .ok (.readChipId h.addr)

/-- Formats N and S: exactly `n` fillers after the opcode (R90, R92). -/
def decodeFillers (op : Byte) (n : Nat) (rest : List Byte) (i : Instr) : Except DecodeError Instr :=
  if rest.length ≠ n then .error (.frameLength op (1 + rest.length))
  else if rest.all (· == 0x00) then .ok i else .error (.fillerByte op)

/-- Format A: four address bytes and nothing after (R90, R91). -/
def decodeAddress (op : Byte) (rest : List Byte) (mk : Addr → Instr) : Except DecodeError Instr :=
  match rest with
  | [a3, a2, a1, a0] => .ok (mk (addrOfBytes a3 a2 a1 a0))
  | r => .error (.frameLength op (1 + r.length))

/-- Format AR: four address bytes and `n` fillers (R90, R91). -/
def decodeRead (op : Byte) (rest : List Byte) : Except DecodeError Instr :=
  match rest with
  | a3 :: a2 :: a1 :: a0 :: fill =>
    if 2 ^ 32 ≤ fill.length then .error (.frameLength op (5 + fill.length))
    else if fill.all (· == 0x00) then .ok (.wireRead (addrOfBytes a3 a2 a1 a0) fill.length)
    else .error (.fillerByte op)
  | r => .error (.frameLength op (1 + r.length))

/-- Format AW: four address bytes and `1 <= len(d) <= PAGE_SIZE` payload bytes (R90, R91). -/
def decodeProgram (c : Config) (op : Byte) (rest : List Byte) : Except DecodeError Instr :=
  match rest with
  | a3 :: a2 :: a1 :: a0 :: d =>
    if 1 ≤ d.length ∧ d.length ≤ c.pageSize then .ok (.wireProgram (addrOfBytes a3 a2 a1 a0) d)
    else .error (.frameLength op (5 + d.length))
  | r => .error (.frameLength op (1 + r.length))

/-- "A decoder of frames matches byte 0 against the nine values (mask `0xFF`) and then reads the rest by the format"
(R96). -/
def decodeFrame (c : Config) : List Byte → Except DecodeError Instr
  | [] => .error .emptyFrame
  | op :: rest =>
    if op = c.opcodes.read then decodeRead op rest
    else if op = c.opcodes.program then decodeProgram c op rest
    else if op = c.opcodes.wren then decodeFillers op 0 rest .wireWren
    else if op = c.opcodes.erase4K then decodeAddress op rest .wireErase4K
    else if op = c.opcodes.erase32K then decodeAddress op rest .wireErase32K
    else if op = c.opcodes.eraseSector then decodeAddress op rest .wireEraseSector
    else if op = c.opcodes.eraseDie then decodeAddress op rest .wireEraseDie
    else if op = c.opcodes.rdsr then decodeFillers op 1 rest .wireRdsr
    else if op = c.opcodes.rdid then decodeFillers op c.idLen rest .wireRdid
    else .error (.unknownOpcode op)

/-- The instruction a presented command is, or why it is none. -/
def decode (c : Config) : Command → Except DecodeError Instr
  | .host h => decodeDescriptor h
  | .wire f => decodeFrame c f

/-! ## The encoder -/

/-- A descriptor with the fields an operation ignores at zero (R101). -/
def descriptorOf (o : HostOp) (addr : Addr) (count : BitVec 32) (data : List Byte) : Command :=
  .host { op := o.code, addr := addr, count := count, data := data }

/-- The words of an instruction: the frames of 40_framer.md R126, the descriptors of 30_encoding.md R101. -/
def encode (c : Config) : Instr → Command
  | .wireRead a n => .wire (frame c.opcodes.read a (.fill n))
  | .wireProgram a d => .wire (frame c.opcodes.program a (.data d))
  | .wireWren => .wire (frame0 c.opcodes.wren 0)
  | .wireErase4K a => .wire (frame c.opcodes.erase4K a (.fill 0))
  | .wireErase32K a => .wire (frame c.opcodes.erase32K a (.fill 0))
  | .wireEraseSector a => .wire (frame c.opcodes.eraseSector a (.fill 0))
  | .wireEraseDie a => .wire (frame c.opcodes.eraseDie a (.fill 0))
  | .wireRdsr => .wire (frame0 c.opcodes.rdsr 1)
  | .wireRdid => .wire (frame0 c.opcodes.rdid c.idLen)
  | .readByte a => descriptorOf .readByte a 0 []
  | .readBytes a n => descriptorOf .readBytes a n []
  | .writeEnable a => descriptorOf .writeEnable a 0 []
  | .writeByte a v => descriptorOf .writeByte a 0 [v]
  | .writeBytes a p => descriptorOf .writeBytes a 0 p
  | .erase4K a => descriptorOf .erase4K a 0 []
  | .erase32K a => descriptorOf .erase32K a 0 []
  | .eraseSector a => descriptorOf .eraseSector a 0 []
  | .eraseDie a => descriptorOf .eraseDie a 0 []
  | .readStatusRegister a => descriptorOf .readStatusRegister a 0 []
  | .readChipId a => descriptorOf .readChipId a 0 []

/-! ## The opcode table's words -/

/-- The first `n` bytes of a number, byte 0 the least significant. -/
def wordBytes : Nat → Nat → List Byte
  | 0, _ => []
  | n + 1, w => BitVec.ofNat 8 w :: wordBytes n (w / 256)

/-- A byte sequence filled up with zero bytes to length `n`. -/
def padZero (n : Nat) (l : List Byte) : List Byte := l ++ List.replicate (n - l.length) 0x00

/-- The length of the shortest well-formed frame with an opcode (R90). -/
def minFrameLength (c : Config) (op : Byte) : Nat :=
  if op = c.opcodes.wren then 1
  else if op = c.opcodes.rdsr then 2
  else if op = c.opcodes.rdid then 1 + c.idLen
  else if op = c.opcodes.program then 6
  else 5

/-- What a word of the opcode table presents: a frame where the word has eight bits or more and byte 0 is one of the
nine opcodes (mask `0xFF`), else a descriptor by `H.op` (mask `0xF`), every other operand zero (log 12: the words 0x05
and 0x06 match a row of each level). -/
def tableCommand (c : Config) (nbits w : Nat) : Command :=
  if 8 ≤ nbits ∧ BitVec.ofNat 8 w ∈ c.opcodes.all then
    .wire (padZero (minFrameLength c (BitVec.ofNat 8 w)) (wordBytes (nbits / 8) w))
  else
    .host { op := BitVec.ofNat 4 w, addr := 0, count := 0, data := [0x00] }

/-- The instruction the decoder reads from a word numbered as spec/opcode_table.json numbers it, with the opcode bytes
of `Config.default`. -/
def decodeTableWord (nbits w : Nat) : Option Instr :=
  match decode Config.default (tableCommand Config.default nbits w) with
  | .ok i => some i
  | .error _ => none

end Sys2Proof
end

