-- ==== Sys2Proof/Machine/State.lean ====
section
/-! DEFINITION. The state of the system (10_state.md R20): the controller's registers, the configuration, the chip, and
the model's own fields (the outside world's moves, the counter of free values, the bus trace). Plain data. -/

namespace Sys2Proof.Machine

/-- The sequencer state (10_state.md R29). -/
inductive SeqState where
  | idle | enableSent | cmdIssued | polling
  deriving DecidableEq, Repr

/-- `RES_STATUS` (10_state.md R26); `noResult` is the spec's `NONE`. -/
inductive ResStatus where
  | noResult | ok | transportError | busyTimeout | invalidInput
  deriving DecidableEq, Repr

/-- The result of `Exchange` (40_framer.md R127). -/
inductive ExchangeResult where
  | ok (r : List Byte)
  | err
  deriving DecidableEq, Repr

/-- The moves of the outside world (00_scope.md R13), in the order they come (log 6). -/
inductive Event where
  /-- The host presents a descriptor at the command port (41_sequencer.md R135), or a frame is put on the transport
  port (log 14). -/
  | present (c : Command)
  /-- The host asks for shutdown (70_reset_and_hazards.md R213). -/
  | shutdown
  /-- Reset is asserted between two exchanges (R211). -/
  | reset
  /-- Reset is asserted, or power is lost, in the middle of an exchange and cuts its frame short (R211,
  93_implementation_defined.md U18; log 17). -/
  | resetMidExchange
  /-- Power is lost between two exchanges and comes back (60_exceptions.md R204; log 29). -/
  | powerLoss
  /-- The chip's completion step (20_memory.md R73; log 8). -/
  | chipCompletes
  /-- What the environment does with the next exchange (40_framer.md R127; log 7). -/
  | answer (a : Answer)
  deriving DecidableEq, Repr

/-- The array `MEM` (20_memory.md R51) as a list of cells, addresses strictly rising, none at `0xFF`, which is what an
unlisted address reads as (log 5). -/
abbrev Memory := List Host.Cell

/-- The chip (20_memory.md R64). `mem` lists the bytes of `MEM` that are not `0xFF`, addresses rising (log 5). -/
structure Chip where
  mem : Memory
  wip : Bool
  wel : Bool
  hold : Bool
  fault : Bool
  deriving DecidableEq, Repr

/-- The state of the system. -/
structure State where
  st : SeqState
  op : BitVec 4
  addr : Addr
  len : BitVec 32
  wbuf : List Byte
  resStatus : ResStatus
  resData : List Byte
  srLast : Option Byte
  pollCnt : Nat
  tpOpen : Bool
  cfg : Config
  chip : Chip
  events : List Event
  draws : Nat
  trace : List (List Byte × ExchangeResult)
  deriving DecidableEq, Repr

/-- Why the machine stops with a fault. -/
inductive Fault where
  /-- Raised by `step` alone, where `st` is not IDLE and `OP` is no sequenced operation: no rule describes such a state
  and no run reaches one (10_state.md R29, 41_sequencer.md R149). Safe (log 18). -/
  | noSequencedOperation
  deriving DecidableEq, Repr

/-- Why an instruction has no meaning. -/
inductive Refusal where
  /-- Raised by an arm of `exec` for an instruction without a meaning; no arm does. Safe. -/
  | notModelled (mnemonic : String)
  deriving DecidableEq, Repr

/-- The state right after reset (10_state.md R39, R40): the controller as R39 says, its unspecified registers free
values (log 3), the configuration the construction arguments (log 1), an idle chip (log 4, log 5), and no move of the
outside world yet (log 6). -/
def State.reset : State :=
  { st := .idle
    op := Config.unspecifiedOp 0
    addr := Config.unspecifiedAddr 0
    len := Config.unspecifiedLen 0
    wbuf := Config.unspecifiedWbuf 0
    resStatus := .noResult
    resData := []
    srLast := none
    pollCnt := Config.unspecifiedPollCnt 0
    tpOpen := true
    cfg := Config.default
    chip := { mem := [], wip := false, wel := false, hold := false, fault := false }
    events := []
    draws := 1
    trace := [] }

end Sys2Proof.Machine
end

