-- ==== Sys2Proof/Machine/Ops.lean ====
section
/-! DEFINITION. The named operations over the array and the controller's registers: reading and writing memory in its
canonical form, loading operands, completing an operation and raising an error, reset and shutdown. -/

namespace Sys2Proof.Machine

/-! ## The array -/

/-- "An erased byte is `0xFF`" (20_memory.md R51). -/
def erasedByte : Byte := 0xFF

/-- `MEM[a]` (R51). -/
def Memory.read : Memory → Nat → Byte
  | [], _ => erasedByte
  | (b, w) :: m, a => if a = b then w else Memory.read m a

/-- `MEM[a] <- v`, keeping the canonical form. -/
def Memory.write : Memory → Nat → Byte → Memory
  | [], a, v => if v = erasedByte then [] else [(a, v)]
  | (b, w) :: m, a, v =>
    if a < b then (if v = erasedByte then (b, w) :: m else (a, v) :: (b, w) :: m)
    else if a = b then (if v = erasedByte then m else (a, v) :: m)
    else (b, w) :: Memory.write m a v

/-- `MemRead(a, n)` (R52): `n` bytes in ascending address order (R55). -/
def Memory.readRange (m : Memory) : Nat → Nat → List Byte
  | _, 0 => []
  | a, n + 1 => Memory.read m a :: Memory.readRange m (a + 1) n

/-- `MEM[a] <- 0xFF` for every `a` with `lo <= a < hi` (R70). -/
def Memory.eraseRange (m : Memory) (lo hi : Nat) : Memory :=
  m.filter (fun cell => !(decide (lo ≤ cell.1) && decide (cell.1 < hi)))

/-- The canonical form from address `lo` on: addresses strictly rising, no entry at `0xFF`. -/
def Memory.wfFrom : Nat → Memory → Bool
  | _, [] => true
  | lo, (a, v) :: m => decide (lo ≤ a) && decide (v ≠ erasedByte) && Memory.wfFrom (a + 1) m

/-- The canonical form of the array. -/
def Memory.wf (m : Memory) : Bool := Memory.wfFrom 0 m

/-- Every listed address exists (R50: "Addresses `0 .. FLASH_SIZE-1` exist"). -/
def Memory.below (bound : Nat) (m : Memory) : Bool := m.all (fun cell => decide (cell.1 < bound))

/-- An array below `bound` from any list of cells, in canonical form. -/
def Memory.ofCells (bound : Nat) : List Host.Cell → Memory
  | [] => []
  | (a, v) :: cells =>
    if a < bound then Memory.write (Memory.ofCells bound cells) a v else Memory.ofCells bound cells

/-! ## The controller's registers -/

/-- Acceptance, step 1 (41_sequencer.md R136): the operand registers are loaded, the result registers cleared. -/
def State.loadOperands (op : BitVec 4) (addr : Addr) (len : BitVec 32) (wbuf : List Byte) (s : State) : State :=
  { s with op := op, addr := addr, len := len, wbuf := wbuf, resStatus := .noResult, resData := [],
           draws := s.draws + 1 }

/-- `complete(s, d)` (R148): "`RES_STATUS <- s ; RES_DATA <- d ; st <- IDLE`. Nothing else is written". -/
def State.complete (status : ResStatus) (data : List Byte) (s : State) : State :=
  { s with resStatus := status, resData := data, st := .idle }

/-- Taking an exception on this hardware: `raise E` is `complete(E, [])` (60_exceptions.md R191). There is no return
instruction (R194): the next acceptance clears the code. -/
def State.raise (e : ResStatus) (s : State) : State := s.complete e []

/-- A status read stores the byte it read (10_state.md R28). -/
def State.setSrLast (b : Byte) (s : State) : State := { s with srLast := some b }

/-- The sequencer goes on to another state (R29). -/
def State.enter (st : SeqState) (s : State) : State := { s with st := st }

/-- `POLL_CNT` (R30). -/
def State.setPollCnt (n : Nat) (s : State) : State := { s with pollCnt := n }

/-- The outside world's next move is taken. -/
def State.withEvents (es : List Event) (s : State) : State := { s with events := es }

/-- Reset of the controller (10_state.md R39, 70_reset_and_hazards.md R210): the configuration is the construction
arguments, which it is already; nothing is sent to the chip (R40). -/
def State.resetController (s : State) : State :=
  { s with
    st := .idle
    op := Config.unspecifiedOp s.draws
    addr := Config.unspecifiedAddr s.draws
    len := Config.unspecifiedLen s.draws
    wbuf := Config.unspecifiedWbuf s.draws
    resStatus := .noResult
    resData := []
    srLast := none
    pollCnt := Config.unspecifiedPollCnt s.draws
    tpOpen := true
    draws := s.draws + 1 }

/-- Shutdown: `TP_OPEN <- 0`, nothing is sent to the chip (R213). -/
def State.shutdown (s : State) : State := { s with tpOpen := false }

/-- A request is taken only when `ready = 1`; else it is held and nothing happens (41_sequencer.md R135). -/
def State.whenReady (f : State → State) (s : State) : State := if s.st = .idle then f s else s

end Sys2Proof.Machine
end

