-- ==== Sys2Proof/Machine/Flags.lean ====
section
/-! DEFINITION. The status byte and its bits, and the outputs the controller derives from its registers
(10_state.md R32, 20_memory.md R64). There are no arithmetic flags (R32). -/

namespace Sys2Proof.Machine

/-- `SR = (SR_HI << 2) | (WEL_CHIP << 1) | WIP` (20_memory.md R64). -/
def statusByte (c : Config) (chip : Chip) : Byte :=
  (c.srHi.setWidth 8 <<< 2) ||| ((BitVec.ofBool chip.wel).setWidth 8 <<< 1) ||| (BitVec.ofBool chip.wip).setWidth 8

/-- Status bit 0, "write/erase in progress" (10_state.md R32). -/
def busyBit (b : Byte) : Bool := b.getLsbD 0

/-- Status bit 1, "write-enable latch" (10_state.md R32). -/
def welBit (b : Byte) : Bool := b.getLsbD 1

/-- `ready` is `st = IDLE` (10_state.md R32). -/
def State.ready (s : State) : Bool := decide (s.st = .idle)

/-- The output `BUSY`, "defined only when `SR_LAST ≠ none`" (R32). -/
def State.busyOut (s : State) : Option Bool := s.srLast.map busyBit

/-- The output `WEL`, "defined only when `SR_LAST ≠ none`" (R32). -/
def State.welOut (s : State) : Option Bool := s.srLast.map welBit

/-- The level of the `BUSY` output, "0 when `none`" (92_eei_decisions.md D34; log 25). -/
def State.busyPin (s : State) : Bool := s.busyOut.getD false

/-- The level of the `WEL` output, "0 when `none`" (92_eei_decisions.md D34; log 25). -/
def State.welPin (s : State) : Bool := s.welOut.getD false

/-- The codes of `st` (10_state.md R29). -/
def SeqState.code : SeqState → BitVec 2
  | .idle => 0
  | .enableSent => 1
  | .cmdIssued => 2
  | .polling => 3

/-- The codes of `RES_STATUS` (10_state.md R26). -/
def ResStatus.code : ResStatus → BitVec 3
  | .noResult => 0
  | .ok => 1
  | .transportError => 2
  | .busyTimeout => 3
  | .invalidInput => 4

/-- The host's result `(RES_STATUS, RES_DATA)`, "valid when `ready = 1` and `RES_STATUS ≠ NONE`" (30_encoding.md
R103). -/
def State.result (s : State) : Option (ResStatus × List Byte) :=
  if s.st = .idle ∧ s.resStatus ≠ .noResult then some (s.resStatus, s.resData) else none

end Sys2Proof.Machine
end

