-- ==== Sys2Proof/Machine/Operands.lean ====
section
/-! DEFINITION. Operand forms: how the operand registers are loaded (30_encoding.md R102), which operands are valid
(41_sequencer.md R139), the dispatch table (R137, R150), the frames built from the registers (40_framer.md R126) and
where a response carries data (30_encoding.md R95). -/

namespace Sys2Proof.Machine

/-- A length as `LEN` holds it, 32 bits (10_state.md R24); for a length that does not fit no rule gives the value
(log 16). -/
def lenReg (draws n : Nat) : BitVec 32 := if n < 2 ^ 32 then BitVec.ofNat 32 n else Config.unspecifiedLen draws

/-- What acceptance loads into `LEN` (R102). -/
def operandLen (c : Config) (draws : Nat) (o : HostOp) (count : BitVec 32) (data : List Byte) : BitVec 32 :=
  match o with
  | .readByte => 1
  | .readBytes => count
  | .writeByte => lenReg draws data.length
  | .writeBytes => lenReg draws data.length
  | .readChipId => lenReg draws c.idLen
  | .readStatusRegister => 1
  | .writeEnable => 0
  | .erase4K => 0
  | .erase32K => 0
  | .eraseSector => 0
  | .eraseDie => 0

/-- What acceptance loads into `WBUF` (R102). DEDUCED (log 31): a payload longer than `PAGE_SIZE`, which is rejected, is
loaded whole, as R102 says, though 10_state.md R21 gives `WBUF` `0..PAGE_SIZE` bytes. -/
def operandBuf (o : HostOp) (data : List Byte) : List Byte :=
  match o with
  | .writeByte => data
  | .writeBytes => data
  | .readByte => []
  | .readBytes => []
  | .readChipId => []
  | .readStatusRegister => []
  | .writeEnable => []
  | .erase4K => []
  | .erase32K => []
  | .eraseSector => []
  | .eraseDie => []

/-- `valid(H)` "computed on natural numbers, so no sum wraps" (41_sequencer.md R139). -/
def valid (c : Config) (o : HostOp) (a : Addr) (count : BitVec 32) (data : List Byte) : Bool :=
  match o with
  | .readByte => decide (a.toNat < c.flashSize)
  | .readBytes => decide (a.toNat < c.flashSize) && decide (a.toNat + count.toNat ≤ c.flashSize)
  | .writeByte => decide (a.toNat < c.flashSize)
  | .writeBytes =>
    decide (1 ≤ data.length) && decide (data.length ≤ c.pageSize) &&
    decide (a.toNat % c.pageSize + data.length ≤ c.pageSize) && decide (a.toNat + data.length ≤ c.flashSize)
  | .erase4K => decide (a.toNat < c.flashSize)
  | .erase32K => decide (a.toNat < c.flashSize)
  | .eraseSector => decide (a.toNat < c.flashSize)
  | .eraseDie => decide (a.toNat < c.flashSize)
  | .writeEnable => true
  | .readStatusRegister => true
  | .readChipId => true

/-- The poll class of a sequenced operation; none for a single-transaction operation (R137, R138, R150). -/
def pollClass : HostOp → Option PollClass
  | .writeByte => some .program
  | .writeBytes => some .program
  | .erase4K => some (.erase .sub4K)
  | .erase32K => some (.erase .sub32K)
  | .eraseSector => some (.erase .sector)
  | .eraseDie => some (.erase .die)
  | .readByte => none
  | .readBytes => none
  | .writeEnable => none
  | .readStatusRegister => none
  | .readChipId => none

/-- `CFG_POLL[c]` (10_state.md R34). -/
def pollConfig (c : Config) : PollClass → PollConfig
  | .program => c.pollProgram
  | .erase .sub4K => c.pollErase4K
  | .erase .sub32K => c.pollErase32K
  | .erase .sector => c.pollEraseSector
  | .erase .die => c.pollEraseDie

/-- `MAX_POLLS[c]`, `none` for ∞ (00_scope.md R7). -/
def maxPolls (c : Config) (k : PollClass) : Option Nat := (pollConfig c k).maxPolls

/-- The opcode of an erase command (R7). -/
def eraseOpcode (c : Config) : EraseKind → Byte
  | .sub4K => c.opcodes.erase4K
  | .sub32K => c.opcodes.erase32K
  | .sector => c.opcodes.eraseSector
  | .die => c.opcodes.eraseDie

/-- The block size `G` of an erase command (20_memory.md R70). -/
def blockSize (c : Config) : EraseKind → Nat
  | .sub4K => 4096
  | .sub32K => 32768
  | .sector => c.sectorSize
  | .die => c.dieSize

/-- The main frame of the operation in the operand registers (40_framer.md R126, 41_sequencer.md R137). -/
def mainFrame (o : HostOp) (s : State) : List Byte :=
  match o with
  | .readByte => frame s.cfg.opcodes.read s.addr (.fill s.len.toNat)
  | .readBytes => frame s.cfg.opcodes.read s.addr (.fill s.len.toNat)
  | .writeEnable => frame0 s.cfg.opcodes.wren 0
  | .writeByte => frame s.cfg.opcodes.program s.addr (.data s.wbuf)
  | .writeBytes => frame s.cfg.opcodes.program s.addr (.data s.wbuf)
  | .erase4K => frame (eraseOpcode s.cfg .sub4K) s.addr (.fill 0)
  | .erase32K => frame (eraseOpcode s.cfg .sub32K) s.addr (.fill 0)
  | .eraseSector => frame (eraseOpcode s.cfg .sector) s.addr (.fill 0)
  | .eraseDie => frame (eraseOpcode s.cfg .die) s.addr (.fill 0)
  | .readStatusRegister => frame0 s.cfg.opcodes.rdsr 1
  | .readChipId => frame0 s.cfg.opcodes.rdid s.cfg.idLen

/-- `RES_DATA` on `OK` of a single-transaction operation, from the response `r` to the main frame (R137): data stands
at the offsets of the fillers and nowhere else (30_encoding.md R95). -/
def resultSlice (o : HostOp) (s : State) (r : List Byte) : List Byte :=
  match o with
  | .readByte => (r.drop 5).take 1
  | .readBytes => (r.drop 5).take s.len.toNat
  | .readStatusRegister => (r.drop 1).take 1
  | .readChipId => (r.drop 1).take s.cfg.idLen
  | .writeEnable => []
  | .writeByte => []
  | .writeBytes => []
  | .erase4K => []
  | .erase32K => []
  | .eraseSector => []
  | .eraseDie => []

end Sys2Proof.Machine
end

