-- ==== Sys2Proof/Machine/Chip.lean ====
section
/-! DEFINITION. The chip model, the environment of 20_memory.md section 6: which command a frame is, what it does to the
chip, what the chip answers, and the chip's own completion step. -/

namespace Sys2Proof.Machine

/-- A frame as the chip reads it (20_memory.md R66 to R72, R74). The chip does not look at filler values. -/
inductive ChipCommand where
  | wren
  | program (a : Addr) (d : List Byte)
  | read (a : Addr) (n : Nat)
  | erase (k : EraseKind) (a : Addr)
  | rdsr (n : Nat)
  | rdid (n : Nat)
  /-- "Anything else at the chip" (R74). -/
  | other
  deriving DecidableEq, Repr

/-- An addressed frame: at least four bytes after the opcode (R74), then `mk` of the address and the rest. -/
def chipAddressed (rest : List Byte) (mk : Addr → List Byte → ChipCommand) : ChipCommand :=
  match rest with
  | a3 :: a2 :: a1 :: a0 :: d => mk (addrOfBytes a3 a2 a1 a0) d
  | _ => .other

/-- An erase frame has "length exactly 5" (R70). -/
def chipErase (k : EraseKind) (a : Addr) (d : List Byte) : ChipCommand :=
  if d.isEmpty then .erase k a else .other

/-- "The chip selects by `f[0]`" (R66). -/
def chipCommand (c : Config) : List Byte → ChipCommand
  | [] => .other
  | op :: rest =>
    if op = c.opcodes.read then chipAddressed rest (fun a d => .read a d.length)
    else if op = c.opcodes.program then chipAddressed rest (fun a d => .program a d)
    else if op = c.opcodes.wren then (if rest.isEmpty then .wren else .other)
    else if op = c.opcodes.erase4K then chipAddressed rest (chipErase .sub4K)
    else if op = c.opcodes.erase32K then chipAddressed rest (chipErase .sub32K)
    else if op = c.opcodes.eraseSector then chipAddressed rest (chipErase .sector)
    else if op = c.opcodes.eraseDie then chipAddressed rest (chipErase .die)
    else if op = c.opcodes.rdsr then (if rest.isEmpty then .other else .rdsr rest.length)
    else if op = c.opcodes.rdid then (if rest.isEmpty then .other else .rdid rest.length)
    else .other

/-- `PROGRAM_CELL`, with the law `PROGRAM_CELL(0xFF, x) = x` (R68; log 19). -/
def programCell (rule : CellRule) (old d : Byte) : Byte :=
  if old = erasedByte then d
  else match rule with
    | .andOld => old &&& d
    | .free k => Config.freeCell k old d

/-- The address payload byte `i` of a program at `a` lands on: `base + ((off + i) mod PAGE_SIZE)` (R68). -/
def programTarget (pageSize a i : Nat) : Nat := a / pageSize * pageSize + (a % pageSize + i) % pageSize

/-- The program loop of R68, from payload byte `i` on. -/
def programBytes (rule : CellRule) (pageSize a : Nat) : List Byte → Nat → Memory → Memory
  | [], _, m => m
  | d :: ds, i, m =>
    programBytes rule pageSize a ds (i + 1)
      (Memory.write m (programTarget pageSize a i)
        (programCell rule (Memory.read m (programTarget pageSize a i)) d))

/-- One past the highest address a program of `n` bytes at `a` touches: a program that wraps reaches the end of its
page (R68). -/
def programEnd (pageSize a n : Nat) : Nat :=
  if a % pageSize + n ≤ pageSize then a + n else a / pageSize * pageSize + pageSize

/-- The commands that set `CHIP_FAULT`: a program of no bytes, of more than a page or outside the array (R68; log 11),
a read or an erase outside the array (R69, R70), anything else (R74). With the latch clear a program or erase has "no
effect at all" (R68, R70; log 10). -/
def commandFaults (c : Config) (chip : Chip) : ChipCommand → Bool
  | .other => true
  | .program a d =>
    chip.wel && (d.isEmpty || decide (c.pageSize < d.length) || decide (c.flashSize ≤ a.toNat) ||
      decide (c.flashSize < programEnd c.pageSize a.toNat d.length))
  | .read a n => decide (c.flashSize < a.toNat + n)
  | .erase _ a => chip.wel && decide (c.flashSize ≤ a.toNat)
  | .wren => false
  | .rdsr _ => false
  | .rdid _ => false

/-- The frames that set `CHIP_FAULT` on a chip that has none: any but `RDSR` while busy (R66), and those of
`commandFaults`. -/
def frameFaults (c : Config) (chip : Chip) (f : List Byte) : Bool :=
  (chip.wip && decide (f.head? ≠ some c.opcodes.rdsr)) || commandFaults c chip (chipCommand c f)

/-- The chip once `CHIP_FAULT` is 1: "`MEM`, `WIP`, `WEL_CHIP` are unconstrained" (R75), free values (log 9). -/
def faultedChip (c : Config) (draws : Nat) : Chip :=
  { mem := Memory.ofCells c.flashSize (Config.freeCells draws)
    wip := Config.freeFlag draws 0
    wel := Config.freeFlag draws 1
    hold := Config.freeFlag draws 2
    fault := true }

/-- The first address of the aligned block of size `g` containing `a`: `floor(A / G) * G` (R70). -/
def blockStart (g a : Nat) : Nat := a / g * g

/-- The effect of a command that does not fault (R67 to R72). -/
def commandEffect (c : Config) (chip : Chip) : ChipCommand → Chip
  | .wren => { chip with wel := true }
  | .program a d =>
    if chip.wel then
      { chip with mem := programBytes c.programCell c.pageSize a.toNat d 0 chip.mem, wip := true }
    else chip
  | .read _ _ => chip
  | .erase k a =>
    if chip.wel then
      { chip with
        mem := Memory.eraseRange chip.mem (blockStart (blockSize c k) a.toNat)
          (min (blockStart (blockSize c k) a.toNat + blockSize c k) c.flashSize)
        wip := true
        hold := chip.hold || c.assumeEraseHold }
    else chip
  | .rdsr _ => { chip with hold := false }
  | .rdid _ => chip
  | .other => chip

/-- The chip handles a frame (R66, R75). -/
def chipReceive (c : Config) (draws : Nat) (chip : Chip) (f : List Byte) : Chip :=
  if chip.fault || frameFaults c chip f then faultedChip c draws else commandEffect c chip (chipCommand c f)

/-- The `draw` at an offset of a response (R65): the environment's byte, or a free value (log 7). -/
def drawByte (junk : List Byte) (draws i : Nat) : Byte := junk[i]?.getD (Config.freeByte draws i)

/-- `n` draws from offset `i` on. -/
def drawBytes (junk : List Byte) (draws : Nat) : Nat → Nat → List Byte
  | _, 0 => []
  | i, n + 1 => drawByte junk draws i :: drawBytes junk draws (i + 1) n

/-- The identification bytes in an `RDID` response with `n` fillers: `CHIP_ID[i]` for `i < min(n, ID_LEN)`, further
bytes are draws (R72). -/
def idBytes (c : Config) (junk : List Byte) (draws n : Nat) : List Byte :=
  let ids := (c.chipId.take c.idLen).take n
  ids ++ drawBytes junk draws (1 + ids.length) (n - ids.length)

/-- The response to a command that does not fault, `len` the frame's length (R65, R67 to R72). -/
def commandResponse (c : Config) (junk : List Byte) (draws : Nat) (chip : Chip) (len : Nat) : ChipCommand → List Byte
  | .read a n => drawBytes junk draws 0 5 ++ Memory.readRange chip.mem a.toNat n
  | .rdsr n => drawByte junk draws 0 :: List.replicate n (statusByte c chip)
  | .rdid n => drawByte junk draws 0 :: idBytes c junk draws n
  | .wren => drawBytes junk draws 0 len
  | .program _ _ => drawBytes junk draws 0 len
  | .erase _ _ => drawBytes junk draws 0 len
  | .other => drawBytes junk draws 0 len

/-- The chip's response to a frame (R65, R75). -/
def chipRespond (c : Config) (junk : List Byte) (draws : Nat) (chip : Chip) (f : List Byte) : List Byte :=
  if chip.fault || frameFaults c chip f then drawBytes junk draws 0 f.length
  else commandResponse c junk draws chip f.length (chipCommand c f)

/-- The chip's own step, "enabled when `WIP = 1` and `HOLD = 0`: `WIP <- 0; WEL_CHIP <- 0`" (R73). -/
def chipComplete (c : Config) (draws : Nat) (chip : Chip) : Chip :=
  if chip.fault then faultedChip c draws
  else if chip.wip && !chip.hold then { chip with wip := false, wel := false }
  else chip

/-- The chip when power has been lost and is back: "What survives loss of power is `MEM` alone" (60_exceptions.md R204).
What `WIP`, `WEL_CHIP` and `HOLD` are then no rule says: free values (log 29). `CHIP_FAULT` is sticky (20_memory.md
R75). -/
def chipPowerLoss (c : Config) (draws : Nat) (chip : Chip) : Chip :=
  if chip.fault then faultedChip c draws
  else
    { chip with
      wip := Config.freeFlag draws 0
      wel := Config.freeFlag draws 1
      hold := Config.freeFlag draws 2 }

end Sys2Proof.Machine
end

