-- ==== Sys2Proof/Machine/Transport.lean ====
section
/-! DEFINITION. The transport: the environment's answer to an exchange, and the exchange itself (40_framer.md R127 to
R131). -/

namespace Sys2Proof.Machine

/-- Whether the chip handles the frame (40_framer.md R129; log 7). -/
def answerReached : Answer → Bool
  | .chip _ => true
  | .bytes reached _ => reached
  | .err reached => reached

/-- The bytes an answer gives for the draws of the chip's response. -/
def answerJunk : Answer → List Byte
  | .chip junk => junk
  | .bytes _ _ => []
  | .err _ => []

/-- The answer to the next exchange: the one `events` holds, else a free one, before which the chip may have completed
(log 6, log 8). -/
def takeAnswer (s : State) : Answer × State :=
  match s.events with
  | .answer a :: es => (a, { s with events := es, draws := s.draws + 1 })
  | _ =>
    (Config.freeAnswer s.draws,
      { s with
        chip := if Config.freeCompletes s.draws then chipComplete s.cfg s.draws s.chip else s.chip
        draws := s.draws + 1 })

/-- Whether a frame is longer than the transport takes (`MAX_FRAME`, R129). -/
def tooLong (c : Config) (f : List Byte) : Bool := c.maxFrame.any (fun m => decide (m < f.length))

/-- What the transport returns: `Err` to a frame that is too long (R129), to a failed exchange, and to a response of
another length than the frame (R128). -/
def answerResult (c : Config) (draws : Nat) (chip : Chip) (f : List Byte) (a : Answer) : ExchangeResult :=
  if tooLong c f then .err
  else match a with
    | .chip junk => .ok (chipRespond c junk draws chip f)
    | .bytes _ r => if r.length = f.length then .ok r else .err
    | .err _ => .err

/-- `Exchange(f)` (R127): one bus transaction, recorded in the trace (R130). "With `TP_OPEN = 0` no exchange can be
made" (10_state.md R31). -/
def exchange (f : List Byte) (s : State) : ExchangeResult × State :=
  if s.tpOpen then
    let a := (takeAnswer s).1
    let s1 := (takeAnswer s).2
    let res := answerResult s1.cfg s.draws s1.chip f a
    (res, { s1 with
      chip := if answerReached a then chipReceive s1.cfg s.draws s1.chip f else s1.chip
      trace := s1.trace ++ [(f, res)] })
  else (.err, s)

/-- A frame put on the transport port: one exchange, and no register of the controller is written (log 14). -/
def sendWire (f : List Byte) (s : State) : State := (exchange f s).2

/-- The clock periods the frames of a trace occupy, eight per byte (70_reset_and_hazards.md R229). -/
def traceClocks (trace : List (List Byte × ExchangeResult)) : Nat := (trace.map (fun e => 8 * e.1.length)).sum

end Sys2Proof.Machine
end

