-- ==== Sys2Proof/Machine/Sequencer.lean ====
section
/-! DEFINITION. The dispatcher, the write-enable sequencer, the busy poller and the state machine (41_sequencer.md). -/

namespace Sys2Proof.Machine

/-- A `readStatusRegister` stores the byte it read (41_sequencer.md R141). -/
def storeStatus (o : HostOp) (r : List Byte) (s : State) : State :=
  match o, r[1]? with
  | .readStatusRegister, some b => s.setSrLast b
  | _, _ => s

/-- Step SINGLE (R141). -/
def stepSingle (o : HostOp) (s : State) : State :=
  match exchange (mainFrame o s) s with
  | (.err, s') => s'.raise .transportError
  | (.ok r, s') => (storeStatus o r s').complete .ok (resultSlice o s' r)

/-- Step ENABLE (R142). -/
def stepEnable (s : State) : State :=
  match exchange (frame0 s.cfg.opcodes.wren 0) s with
  | (.err, s') => s'.raise .transportError
  | (.ok _, s') => s'.enter .enableSent

/-- Step ISSUE (R143). -/
def stepIssue (o : HostOp) (s : State) : State :=
  match exchange (mainFrame o s) s with
  | (.err, s') => s'.raise .transportError
  | (.ok _, s') => (s'.setPollCnt 0).enter .cmdIssued

/-- What a status read of the poller does with the byte it read (R146), `bound` being `MAX_POLLS[c]`. -/
def pollReading (bound : Option Nat) (b : Byte) (s : State) : State :=
  if busyBit b then
    if bound = some (s.pollCnt + 1) then ((s.setSrLast b).setPollCnt (s.pollCnt + 1)).raise .busyTimeout
    else ((s.setSrLast b).setPollCnt (s.pollCnt + 1)).enter .polling
  else (s.setSrLast b).complete .ok []

/-- Step POLL (R146). A response always has the frame's two bytes (40_framer.md R128), so the case without a status
byte does not arise; it is taken as `Err`, as R128 says of a broken contract. -/
def stepPoll (k : PollClass) (s : State) : State :=
  match exchange (frame0 s.cfg.opcodes.rdsr 1) s with
  | (.err, s') => s'.raise .transportError
  | (.ok r, s') =>
    match r[1]? with
    | some b => pollReading (maxPolls s.cfg k) b s'
    | none => s'.raise .transportError

/-- Acceptance steps 3 to 6 (R136, R140, 70_reset_and_hazards.md R214), the operand registers being loaded. -/
def dispatch (o : HostOp) (ok : Bool) (s : State) : State :=
  if !ok then s.raise .invalidInput
  else if !s.tpOpen then s.raise .transportError
  else match pollClass o with
    | none => stepSingle o s
    | some _ => stepEnable s

/-- Acceptance step 1: the operand registers are loaded as 30_encoding.md R102 says (R136). -/
def loadDescriptor (o : HostOp) (a : Addr) (count : BitVec 32) (data : List Byte) (s : State) : State :=
  s.loadOperands o.code a (operandLen s.cfg s.draws o count data) (operandBuf o data)

/-- Acceptance of a well-formed descriptor (R136). -/
def accept (o : HostOp) (a : Addr) (count : BitVec 32) (data : List Byte) (s : State) : State :=
  dispatch o (valid s.cfg o a count data) (loadDescriptor o a count data s)

/-- Acceptance of a malformed descriptor (R136 step 2, 30_encoding.md R105): no exchange, `INVALID_INPUT`. `LEN` of a
reserved code is given no value (log 16). -/
def acceptMalformed (h : Descriptor) (s : State) : State :=
  match HostOp.ofCode h.op with
  | some o => (loadDescriptor o h.addr h.count h.data s).raise .invalidInput
  | none => (s.loadOperands h.op h.addr (Config.unspecifiedLen s.draws) []).raise .invalidInput

end Sys2Proof.Machine
end

