-- ==== Sys2Proof/Machine/Erase.lean ====
section
/-! DEFINITION. The erase operations (44_erase.md), all sequenced: acceptance and step ENABLE; ISSUE and POLL are the
controller's own steps. -/

namespace Sys2Proof.Machine

/-- `erase4K(A)` (44_erase.md R170, R171). -/
def execErase4K (a : Addr) (s : State) : Host.Outcome State Fault Refusal :=
  .next (s.whenReady (accept .erase4K a 0 []))

/-- `erase32K(A)` (44_erase.md R170, R172). -/
def execErase32K (a : Addr) (s : State) : Host.Outcome State Fault Refusal :=
  .next (s.whenReady (accept .erase32K a 0 []))

/-- `eraseSector(A)` (44_erase.md R170, R173). -/
def execEraseSector (a : Addr) (s : State) : Host.Outcome State Fault Refusal :=
  .next (s.whenReady (accept .eraseSector a 0 []))

/-- `eraseDie(A)` (44_erase.md R170, R174). -/
def execEraseDie (a : Addr) (s : State) : Host.Outcome State Fault Refusal :=
  .next (s.whenReady (accept .eraseDie a 0 []))

end Sys2Proof.Machine
end

