-- ==== Sys2Proof/Machine/Read.lean ====
section
/-! DEFINITION. The read operations (42_read.md): single-transaction, the main frame is `READ`. -/

namespace Sys2Proof.Machine

/-- `readByte(A)` (42_read.md R160). -/
def execReadByte (a : Addr) (s : State) : Host.Outcome State Fault Refusal :=
  .next (s.whenReady (accept .readByte a 0 []))

/-- `readBytes(A, count)` (42_read.md R161). -/
def execReadBytes (a : Addr) (count : BitVec 32) (s : State) : Host.Outcome State Fault Refusal :=
  .next (s.whenReady (accept .readBytes a count []))

end Sys2Proof.Machine
end

