-- ==== Sys2Proof/Machine/StatusId.lean ====
section
/-! DEFINITION. The status and identification operations (45_status_id.md), single-transaction. -/

namespace Sys2Proof.Machine

/-- `readStatusRegister()` (45_status_id.md R180); `a` is the unused `H.addr` (log 15). -/
def execReadStatusRegister (a : Addr) (s : State) : Host.Outcome State Fault Refusal :=
  .next (s.whenReady (accept .readStatusRegister a 0 []))

/-- `readChipId()` (45_status_id.md R181); `a` is the unused `H.addr` (log 15). -/
def execReadChipId (a : Addr) (s : State) : Host.Outcome State Fault Refusal :=
  .next (s.whenReady (accept .readChipId a 0 []))

end Sys2Proof.Machine
end

