-- ==== Sys2Proof/Machine/Wire.lean ====
section
/-! DEFINITION. The meanings of the nine wire commands (30_encoding.md R96): each is one exchange of its frame, handled by
the chip as 20_memory.md R66 to R72 say. No register of the controller is written (log 14). -/

namespace Sys2Proof.Machine

/-- `READ`: one exchange of `[OP_READ, A3, A2, A1, A0]` and `n` fillers (40_framer.md R126); the chip answers with `MEM[A + i]` at
offset `5 + i` and does not change (20_memory.md R69). -/
def execWireRead (a : Addr) (n : Nat) (s : State) : Host.Outcome State Fault Refusal :=
  .next (s.whenReady (sendWire (frame s.cfg.opcodes.read a (.fill n))))

/-- `PROGRAM`: one exchange of the header and the payload (R126); the chip programs the bytes inside the page and is busy
(20_memory.md R68). -/
def execWireProgram (a : Addr) (d : List Byte) (s : State) : Host.Outcome State Fault Refusal :=
  .next (s.whenReady (sendWire (frame s.cfg.opcodes.program a (.data d))))

/-- `WREN`: one exchange of `[OP_WREN]` (R126); the chip sets `WEL_CHIP` (20_memory.md R67). -/
def execWireWren (s : State) : Host.Outcome State Fault Refusal :=
  .next (s.whenReady (sendWire (frame0 s.cfg.opcodes.wren 0)))

/-- `ERASE_4K`: one exchange of the five-byte frame (R126); the chip sets the 4096-byte block to 0xFF and is busy
(20_memory.md R70). -/
def execWireErase4K (a : Addr) (s : State) : Host.Outcome State Fault Refusal :=
  .next (s.whenReady (sendWire (frame s.cfg.opcodes.erase4K a (.fill 0))))

/-- `ERASE_32K`: as `ERASE_4K` with the 32768-byte block (R126, R70). -/
def execWireErase32K (a : Addr) (s : State) : Host.Outcome State Fault Refusal :=
  .next (s.whenReady (sendWire (frame s.cfg.opcodes.erase32K a (.fill 0))))

/-- `ERASE_SECTOR`: as `ERASE_4K` with the block of `SECTOR_SIZE` bytes (R126, R70). -/
def execWireEraseSector (a : Addr) (s : State) : Host.Outcome State Fault Refusal :=
  .next (s.whenReady (sendWire (frame s.cfg.opcodes.eraseSector a (.fill 0))))

/-- `ERASE_DIE`: as `ERASE_4K` with the block of `DIE_SIZE` bytes (R126, R70). -/
def execWireEraseDie (a : Addr) (s : State) : Host.Outcome State Fault Refusal :=
  .next (s.whenReady (sendWire (frame s.cfg.opcodes.eraseDie a (.fill 0))))

/-- `RDSR`: one exchange of `[OP_RDSR, 0x00]` (R126); the chip answers with the status byte at offset 1, busy or not, and
`HOLD <- 0` (20_memory.md R71). -/
def execWireRdsr (s : State) : Host.Outcome State Fault Refusal :=
  .next (s.whenReady (sendWire (frame0 s.cfg.opcodes.rdsr 1)))

/-- `RDID`: one exchange of the opcode and `ID_LEN` fillers (R126); the chip answers with `CHIP_ID` and does not change
(20_memory.md R72). -/
def execWireRdid (s : State) : Host.Outcome State Fault Refusal :=
  .next (s.whenReady (sendWire (frame0 s.cfg.opcodes.rdid s.cfg.idLen)))

end Sys2Proof.Machine
end

