-- ==== Sys2Proof/Machine/Write.lean ====
section
/-! DEFINITION. The write-enable and program operations (43_write.md). -/

namespace Sys2Proof.Machine

/-- `writeEnable()` (43_write.md R165); `a` is the unused `H.addr` (log 15). -/
def execWriteEnable (a : Addr) (s : State) : Host.Outcome State Fault Refusal :=
  .next (s.whenReady (accept .writeEnable a 0 []))

/-- `writeByte(A, v)` (43_write.md R166): acceptance and step ENABLE; ISSUE and POLL are the controller's own steps. -/
def execWriteByte (a : Addr) (v : Byte) (s : State) : Host.Outcome State Fault Refusal :=
  .next (s.whenReady (accept .writeByte a 0 [v]))

/-- `writeBytes(A, P)` (43_write.md R167): acceptance and step ENABLE; ISSUE and POLL are the controller's own steps. -/
def execWriteBytes (a : Addr) (p : List Byte) (s : State) : Host.Outcome State Fault Refusal :=
  .next (s.whenReady (accept .writeBytes a 0 p))

end Sys2Proof.Machine
end

