-- ==== Sys2Proof/Machine/Dispatch.lean ====
section
/-! DEFINITION. One arm per instruction: its meaning. -/

namespace Sys2Proof.Machine

def exec (i : Instr) (s : State) : Host.Outcome State Fault Refusal :=
  match i with
  | .wireRead a n => Sys2Proof.Machine.execWireRead a n s
  | .wireProgram a d => Sys2Proof.Machine.execWireProgram a d s
  | .wireWren => Sys2Proof.Machine.execWireWren s
  | .wireErase4K a => Sys2Proof.Machine.execWireErase4K a s
  | .wireErase32K a => Sys2Proof.Machine.execWireErase32K a s
  | .wireEraseSector a => Sys2Proof.Machine.execWireEraseSector a s
  | .wireEraseDie a => Sys2Proof.Machine.execWireEraseDie a s
  | .wireRdsr => Sys2Proof.Machine.execWireRdsr s
  | .wireRdid => Sys2Proof.Machine.execWireRdid s
  | .readByte a => Sys2Proof.Machine.execReadByte a s
  | .readBytes a count => Sys2Proof.Machine.execReadBytes a count s
  | .writeEnable a => Sys2Proof.Machine.execWriteEnable a s
  | .writeByte a v => Sys2Proof.Machine.execWriteByte a v s
  | .writeBytes a p => Sys2Proof.Machine.execWriteBytes a p s
  | .erase4K a => Sys2Proof.Machine.execErase4K a s
  | .erase32K a => Sys2Proof.Machine.execErase32K a s
  | .eraseSector a => Sys2Proof.Machine.execEraseSector a s
  | .eraseDie a => Sys2Proof.Machine.execEraseDie a s
  | .readStatusRegister a => Sys2Proof.Machine.execReadStatusRegister a s
  | .readChipId a => Sys2Proof.Machine.execReadChipId a s

end Sys2Proof.Machine
end

