-- ==== Sys2Proof/Machine/Turn.lean ====
section
/-! DEFINITION. Whose turn it is (00_scope.md R13): the outside world's resets, a loss of power and the chip's completion first, else the
controller's enabled step, else, in IDLE, the host's next request (41_sequencer.md R149). -/

namespace Sys2Proof.Machine

/-- What is presented and is no instruction: a malformed descriptor is accepted and ends in `INVALID_INPUT`
(30_encoding.md R105); a frame of no format still reaches the chip (20_memory.md R74; log 20). -/
def undecoded (c : Command) (s : State) : State :=
  match c with
  | .host h => s.whenReady (acceptMalformed h)
  | .wire f => s.whenReady (sendWire f)

/-- A command presented in IDLE is decoded and runs. -/
def presentCommand (c : Command) (s : State) : Host.Outcome State Fault Refusal :=
  match decode s.cfg c with
  | .ok i => exec i s
  | .error _ => .next (undecoded c s)

/-- In IDLE "only the host can move" (41_sequencer.md R149): its next request is taken; with none the controller waits;
an answer to no exchange is dropped (log 27). -/
def hostTurn (s : State) : Host.Outcome State Fault Refusal :=
  match s.events with
  | .present c :: es => presentCommand c (s.withEvents es)
  | .shutdown :: es => .next (s.withEvents es).shutdown
  | .answer _ :: es => .next (s.withEvents es)
  | _ => .next s

/-- The sequenced operation in `OP` and its poll class. -/
def sequencedOp (op : BitVec 4) : Option (HostOp × PollClass) :=
  (HostOp.ofCode op).bind fun o => (pollClass o).map fun k => (o, k)

/-- The controller's enabled step while an operation is in flight: ISSUE in ENABLE_SENT, POLL in CMD_ISSUED and POLLING
(41_sequencer.md R143, R146). The host's request, if any, is held (R135). -/
def controllerTurn (s : State) : Host.Outcome State Fault Refusal :=
  match sequencedOp s.op with
  | none => .fault .noSequencedOperation
  | some (o, k) => if s.st = .enableSent then .next (stepIssue o s) else .next (stepPoll k s)

/-- Reset in the middle of an exchange: the controller is reset, and the cut frame is, at the chip, "anything else"
(20_memory.md R74, 70_reset_and_hazards.md R211). With a closed transport there is no exchange to cut (log 17). -/
def resetCutting (s : State) : State :=
  { s.resetController with chip := if s.tpOpen then faultedChip s.cfg s.draws else s.chip }

/-- Loss of power between two exchanges: the controller is constructed anew (70_reset_and_hazards.md R210), of the chip
the array alone is kept (60_exceptions.md R204; log 29). -/
def powerLossTurn (s : State) : State :=
  { s.resetController with chip := chipPowerLoss s.cfg s.draws s.chip }

/-- The chip's own step (20_memory.md R73). -/
def chipTurn (s : State) : State :=
  { s with chip := chipComplete s.cfg s.draws s.chip, draws := s.draws + 1 }

/-- One step of the system. -/
def turn (s : State) : Host.Outcome State Fault Refusal :=
  match s.events with
  | .reset :: es => .next (s.withEvents es).resetController
  | .resetMidExchange :: es => .next (resetCutting (s.withEvents es))
  | .powerLoss :: es => .next (powerLossTurn (s.withEvents es))
  | .chipCompletes :: es => .next (chipTurn (s.withEvents es))
  | _ => if s.st = .idle then hostTurn s else controllerTurn s

/-- A command placed as the next request of an idle controller. -/
def placeCommand (c : Command) (s : State) : State := (s.enter .idle).withEvents (.present c :: s.events)

end Sys2Proof.Machine
end

