-- ==== Sys2Proof/Machine/Step.lean ====
section
/-! DEFINITION. One step of the system, and the placing of an opcode-table word as the next request (log 13). -/

namespace Sys2Proof.Machine

/-- One step of the system: one agent's move (00_scope.md R13). -/
def step (s : State) : Host.Outcome State Fault Refusal := turn s

/-- `s` with the instruction of an opcode-table word presented next, the controller idle. -/
def State.withFetchWord (s : State) (nbits w : Nat) : State := placeCommand (tableCommand s.cfg nbits w) s

end Sys2Proof.Machine
end

