-- ==== Sys2Proof/Machine/HostPatterns.lean ====
section
/-! DEFINITION. The host-side sequences of 30_encoding.md R108: not operations of the controller, but what the spec asks
of callers whose write crosses a page or whose read is longer than the transport's frame. -/

namespace Sys2Proof.Machine

/-- R108 (a): while `P` is not empty, `k = min(len(P), PAGE_SIZE - (A mod PAGE_SIZE))`, the chunk `P[0:k]` at `A`, and
on with `(A + k, P[k:])`; `fuel` is at least the number of chunks. -/
def writeChunks (pageSize : Nat) : Nat → Nat → List Byte → List (Nat × List Byte)
  | 0, _, _ => []
  | fuel + 1, a, p =>
    if p.isEmpty then []
    else
      let k := min p.length (pageSize - a % pageSize)
      (a, p.take k) :: writeChunks pageSize fuel (a + k) (p.drop k)

/-- The `writeBytes` operations a host issues for the span `(A, P)` (R108 (a)). DESIGN CHOICE (log 30): R108 goes on with
`A + k` as a natural number, which from 2^32 on no descriptor holds; such a chunk gets the low 32 bits of its address. -/
def splitWrite (c : Config) (a : Addr) (p : List Byte) : List Instr :=
  (writeChunks c.pageSize p.length a.toNat p).map fun x => .writeBytes (BitVec.ofNat 32 x.1) x.2

/-- R108 (b): a read of `count` bytes at `A` in reads of at most `size` bytes. -/
def readChunks (size : Nat) : Nat → Nat → Nat → List (Nat × Nat)
  | 0, _, _ => []
  | fuel + 1, a, count =>
    if count = 0 then []
    else (a, min count size) :: readChunks size fuel (a + min count size) (count - min count size)

/-- The `readBytes` operations a host issues for a read longer than its transport takes (R108 (b),
70_reset_and_hazards.md R226). DESIGN CHOICE (log 30): a chunk at 2^32 or above gets the low 32 bits of its address, a
chunk of 2^32 bytes or more the low 32 bits of its count. -/
def splitRead (size : Nat) (a : Addr) (count : Nat) : List Instr :=
  (readChunks size count a.toNat count).map fun x => .readBytes (BitVec.ofNat 32 x.1) (BitVec.ofNat 32 x.2)

end Sys2Proof.Machine
end

