-- ==== Sys2Proof/Safety.lean ====
section
/-! DEFINITION. What a safe state and a safe run are, in the terms the statements use. -/

namespace Sys2Proof.Machine

/-- The array is in canonical form and lists only addresses that exist (20_memory.md R50, R51). -/
def Chip.sound (c : Config) (chip : Chip) : Bool := Memory.wf chip.mem && Memory.below c.flashSize chip.mem

/-- The operands of the sequenced operation in flight are the valid ones it was accepted with (41_sequencer.md R136,
R139). -/
def heldOperands (o : HostOp) (s : State) : Bool :=
  match o with
  | .writeByte => decide (s.wbuf.length = 1) && valid s.cfg .writeByte s.addr 0 s.wbuf
  | .writeBytes => valid s.cfg .writeBytes s.addr 0 s.wbuf
  | o => s.wbuf.isEmpty && valid s.cfg o s.addr 0 s.wbuf

/-- `POLL_CNT` in CMD_ISSUED and POLLING: no busy reading yet, or at least one, the last one in `SR_LAST`
(10_state.md R29, R30). -/
def pollSound (s : State) : Bool :=
  match s.st with
  | .idle => true
  | .enableSent => true
  | .cmdIssued => decide (s.pollCnt = 0)
  | .polling => decide (1 ≤ s.pollCnt) && s.srLast.any busyBit

/-- An operation is in flight (`st ≠ IDLE`): `OP` is a sequenced operation with valid operands, no result is posted,
the transport is open, and the count is below the bound (41_sequencer.md R149). -/
def inFlightSound (s : State) : Bool :=
  match sequencedOp s.op with
  | none => false
  | some (o, k) =>
    heldOperands o s && decide (s.resStatus = .noResult) && s.resData.isEmpty && s.tpOpen && pollSound s &&
    (s.st == .enableSent || (maxPolls s.cfg k).all (fun m => decide (s.pollCnt < m)))

/-- The invariant of the system: a legal configuration (10_state.md R34), a sound array, a sound operation in flight,
and no result data without `OK` (30_encoding.md R103). -/
structure Inv (s : State) : Prop where
  config : s.cfg.wf = true
  array : s.chip.sound s.cfg = true
  flight : s.st ≠ .idle → inFlightSound s = true
  noData : s.resStatus ≠ .ok → s.resData = []

/-- The chip is within what the source defines: no `CHIP_FAULT`, and not busy but while the controller awaits it
(20_memory.md R75, 70_reset_and_hazards.md R220). -/
def ChipCalm (s : State) : Prop :=
  s.chip.fault = false ∧ (s.chip.wip = true → s.st = .cmdIssued ∨ s.st = .polling)

/-- The outside world's next moves are those of the chip model and of a host at the command port: the next exchange is
answered by the chip, no frame comes from elsewhere, there is no reset and no loss of power (20_memory.md R75, R83). -/
def chipWorld (st : SeqState) (es : List Event) : Bool :=
  match st, es with
  | _, .chipCompletes :: _ => true
  | .idle, [] => true
  | .idle, .shutdown :: _ => true
  | .idle, .answer _ :: _ => true
  | .idle, .present (.host _) :: .answer (.chip _) :: _ => true
  | .enableSent, .answer (.chip _) :: _ => true
  | .cmdIssued, .answer (.chip _) :: _ => true
  | .polling, .answer (.chip _) :: _ => true
  | _, _ => false

/-- The outside world's next move is not a reset, not a loss of power and not the chip's completion, so the controller's or the host's move
is next (41_sequencer.md R149). -/
def inOrder (es : List Event) : Bool :=
  match es with
  | .reset :: _ => false
  | .resetMidExchange :: _ => false
  | .powerLoss :: _ => false
  | .chipCompletes :: _ => false
  | _ => true

/-- The outside world's next move is not a reset and not a loss of power, which constructs the controller anew. -/
def noReset (es : List Event) : Bool :=
  match es with
  | .reset :: _ => false
  | .resetMidExchange :: _ => false
  | .powerLoss :: _ => false
  | _ => true

/-- An event is a reset or a loss of power. -/
def Event.isReset : Event → Bool
  | .reset => true
  | .resetMidExchange => true
  | .powerLoss => true
  | _ => false

/-- The controller has just been constructed: the values of 10_state.md R39, the configuration kept (log 1), no exchange
made, the outside world's further moves `es`. -/
structure ResetDone (s t : State) (es : List Event) : Prop where
  st : t.st = .idle
  tpOpen : t.tpOpen = true
  resStatus : t.resStatus = .noResult
  resData : t.resData = []
  srLast : t.srLast = none
  cfg : t.cfg = s.cfg
  trace : t.trace = s.trace
  events : t.events = es

/-- No register of the controller and no parameter differs. -/
structure SameController (s t : State) : Prop where
  st : t.st = s.st
  op : t.op = s.op
  addr : t.addr = s.addr
  len : t.len = s.len
  wbuf : t.wbuf = s.wbuf
  resStatus : t.resStatus = s.resStatus
  resData : t.resData = s.resData
  srLast : t.srLast = s.srLast
  pollCnt : t.pollCnt = s.pollCnt
  tpOpen : t.tpOpen = s.tpOpen
  cfg : t.cfg = s.cfg

/-- The operand registers, the transport flag and the parameters do not differ (10_state.md R21, R31, R34). -/
structure SameOperands (s t : State) : Prop where
  op : t.op = s.op
  addr : t.addr = s.addr
  len : t.len = s.len
  wbuf : t.wbuf = s.wbuf
  tpOpen : t.tpOpen = s.tpOpen
  cfg : t.cfg = s.cfg

/-- A host operation's row of the dispatch table and its operands (41_sequencer.md R137); none for a wire command. -/
def hostOperands : Instr → Option (HostOp × Addr × BitVec 32 × List Byte)
  | .readByte a => some (.readByte, a, 0, [])
  | .readBytes a count => some (.readBytes, a, count, [])
  | .writeEnable a => some (.writeEnable, a, 0, [])
  | .writeByte a v => some (.writeByte, a, 0, [v])
  | .writeBytes a p => some (.writeBytes, a, 0, p)
  | .erase4K a => some (.erase4K, a, 0, [])
  | .erase32K a => some (.erase32K, a, 0, [])
  | .eraseSector a => some (.eraseSector, a, 0, [])
  | .eraseDie a => some (.eraseDie, a, 0, [])
  | .readStatusRegister a => some (.readStatusRegister, a, 0, [])
  | .readChipId a => some (.readChipId, a, 0, [])
  | .wireRead _ _ => none
  | .wireProgram _ _ => none
  | .wireWren => none
  | .wireErase4K _ => none
  | .wireErase32K _ => none
  | .wireEraseSector _ => none
  | .wireEraseDie _ => none
  | .wireRdsr => none
  | .wireRdid => none

/-- The one frame of a single-transaction operation, from the operands the host gave (40_framer.md R126,
41_sequencer.md R137). -/
def singleFrame (c : Config) (o : HostOp) (a : Addr) (count : BitVec 32) : List Byte :=
  match o with
  | .readByte => frame c.opcodes.read a (.fill 1)
  | .readBytes => frame c.opcodes.read a (.fill count.toNat)
  | .readStatusRegister => [c.opcodes.rdsr, 0x00]
  | .readChipId => c.opcodes.rdid :: List.replicate c.idLen 0x00
  | _ => [c.opcodes.wren]

/-- The frame of step ISSUE, from the operand registers (40_framer.md R126, 41_sequencer.md R137). -/
def issueFrame (c : Config) (k : PollClass) (a : Addr) (data : List Byte) : List Byte :=
  match k with
  | .program => frame c.opcodes.program a (.data data)
  | .erase .sub4K => frame c.opcodes.erase4K a (.fill 0)
  | .erase .sub32K => frame c.opcodes.erase32K a (.fill 0)
  | .erase .sector => frame c.opcodes.eraseSector a (.fill 0)
  | .erase .die => frame c.opcodes.eraseDie a (.fill 0)

/-- A descriptor is malformed (30_encoding.md R105). -/
def malformed (h : Descriptor) : Bool := decide (10 < h.op.toNat) || (h.op == 3 && decide (h.data.length ≠ 1))

/-- A single-transaction operation has completed with `OK`: its operands loaded, `data` returned, the one exchange of
frame `f` with response `r` made, and nothing else of the controller changed but, where it says so, `SR_LAST`
(41_sequencer.md R141). -/
structure SingleDone (s t : State) (o : HostOp) (a : Addr) (data f r : List Byte) (es : List Event) : Prop where
  st : t.st = .idle
  op : t.op = o.code
  addr : t.addr = a
  wbuf : t.wbuf = []
  resStatus : t.resStatus = .ok
  resData : t.resData = data
  pollCnt : t.pollCnt = s.pollCnt
  tpOpen : t.tpOpen = s.tpOpen
  cfg : t.cfg = s.cfg
  events : t.events = es
  trace : t.trace = s.trace ++ [(f, .ok r)]

/-- A wire command's exchange of frame `f` has been answered with `r`, and no register of the controller changed. -/
structure WireDone (s t : State) (f r : List Byte) (es : List Event) : Prop where
  same : SameController s t
  events : t.events = es
  trace : t.trace = s.trace ++ [(f, .ok r)]
  length : r.length = f.length

/-- `k` steps that all answer a next state. -/
def runs : Nat → State → State → Prop
  | 0, s, t => s = t
  | k + 1, s, t => ∃ u, step s = .next u ∧ runs k u t

end Sys2Proof.Machine
end

