-- ==== Sys2Proof/Certificates/Slice0/Obligations.lean ====
section
/-! DEFINITION. The statements for the provers. `draws` and the functions it indexes are free values: no statement rests
on one. A hypothesis `s.events = .answer (.chip junk) :: es` says that the chip answers the next exchange, whatever the
undriven response bytes `junk` are (20_memory.md R65). -/

open Sys2Proof Sys2Proof.Machine

/-! ## Frames and decoding -/

/-- 40_framer.md R120, 30_encoding.md R93: the frame is the opcode, the four address bytes by shift and mask, and the
fillers or the payload. -/
def Obligations.FrameIsOpcodeAddressPayload : Prop :=
  ∀ (op : Byte) (a : Addr) (n : Nat) (d : List Byte),
    frame op a (.fill n) =
      [op, ((a >>> 24) &&& 0xFF).setWidth 8, ((a >>> 16) &&& 0xFF).setWidth 8, ((a >>> 8) &&& 0xFF).setWidth 8,
        (a &&& 0xFF).setWidth 8] ++ List.replicate n 0x00 ∧
    frame op a (.data d) =
      [op, ((a >>> 24) &&& 0xFF).setWidth 8, ((a >>> 16) &&& 0xFF).setWidth 8, ((a >>> 8) &&& 0xFF).setWidth 8,
        (a &&& 0xFF).setWidth 8] ++ d ∧
    frame0 op n = [op] ++ List.replicate n 0x00

/-- 40_framer.md R125: the head of a frame determines its operands, so `frame` is injective in the opcode, the address
and the payload bytes; `Fill(n)` and `Data(rep(0x00, n))` give the same frame. -/
def Obligations.FrameHeadDeterminesOperands : Prop :=
  (∀ (op : Byte) (a : Addr) (pl : Payload), ∃ b3 b2 b1 b0 : Byte,
    frame op a pl = op :: b3 :: b2 :: b1 :: b0 :: pl.bytes ∧
    a = (b3.setWidth 32 <<< 24) ||| (b2.setWidth 32 <<< 16) ||| (b1.setWidth 32 <<< 8) ||| b0.setWidth 32) ∧
  (∀ (op op' : Byte) (a a' : Addr) (pl pl' : Payload),
    frame op a pl = frame op' a' pl' → op = op' ∧ a = a' ∧ pl.bytes = pl'.bytes) ∧
  (∀ (op : Byte) (a : Addr) (n : Nat), frame op a (.fill n) = frame op a (.data (List.replicate n 0x00)))

/-- The words the encoder writes are read back as the instruction, with every operand (30_encoding.md R90 to R96, R101,
R104). -/
def Obligations.DecodeOfEncodeIsTheInstruction : Prop :=
  ∀ (c : Config) (i : Instr), c.wf = true → i.wf c = true → decode c (encode c i) = .ok i

/-- A frame that decodes is the frame its instruction encodes, and the instruction is well formed. -/
def Obligations.EncodeOfDecodedFrameIsTheFrame : Prop :=
  ∀ (c : Config) (f : List Byte) (i : Instr), decodeFrame c f = .ok i → encode c i = .wire f ∧ i.wf c = true

/-- A descriptor is refused exactly when it is malformed, and one that is not gives the operation of its code with the
fields that operation uses (30_encoding.md R101, R104, R105). -/
def Obligations.DescriptorDecodesByItsCode : Prop :=
  ∀ (c : Config) (h : Descriptor),
    ((∃ e, decode c (.host h) = .error e) ↔ malformed h = true) ∧
    ∀ i, decode c (.host h) = .ok i →
      ∃ o count data, hostOperands i = some (o, h.addr, count, data) ∧ o.code = h.op ∧
        (h.op = 1 → count = h.count) ∧ (h.op = 3 ∨ h.op = 4 → data = h.data)

/-- Words written out from 30_encoding.md R91, R96 and R104, one for every family, read as the instructions they stand
for (with the default opcode bytes). -/
def Obligations.WrittenWordsDecode : Prop :=
  decode Config.default (.wire [0x13, 0xDE, 0xAD, 0xBE, 0xEF, 0x00]) = .ok (.wireRead 0xDEADBEEF 1) ∧
  decode Config.default (.wire [0x12, 0x01, 0x02, 0x03, 0x04, 0xAA, 0x55]) =
    .ok (.wireProgram 0x01020304 [0xAA, 0x55]) ∧
  decode Config.default (.wire [0xDC, 0x80, 0x00, 0x00, 0x00]) = .ok (.wireEraseSector 0x80000000) ∧
  decode Config.default (.wire [0x9F, 0x00, 0x00, 0x00]) = .ok .wireRdid ∧
  decode Config.default (.host ⟨1, 0x00123400, 9, []⟩) = .ok (.readBytes 0x00123400 9) ∧
  decode Config.default (.host ⟨3, 0x00123400, 0, [0x48]⟩) = .ok (.writeByte 0x00123400 0x48) ∧
  decode Config.default (.host ⟨8, 0, 0, []⟩) = .ok (.eraseDie 0) ∧
  decode Config.default (.host ⟨9, 0, 0, []⟩) = .ok (.readStatusRegister 0)

/-! ## The step and acceptance -/

/-- A command presented to an idle controller that decodes to `i` is run: the step is `exec i` of the state with the
command taken (41_sequencer.md R136 for a descriptor). That the command may also be a frame put on the transport port,
and that what the host presents stands in `events`, is the model's choice (log 13, log 14). -/
def Obligations.StepRunsTheDecodedInstruction : Prop :=
  ∀ (s : State) (cmd : Command) (i : Instr) (es : List Event),
    s.st = .idle → s.events = .present cmd :: es → decode s.cfg cmd = .ok i → step s = exec i (s.withEvents es)

/-- While `st ≠ IDLE` nothing is accepted: an instruction leaves the state as it is, and what the host presents
(41_sequencer.md R135), or a shutdown it asks for (70_reset_and_hazards.md R213), is still there after the controller's
step. That a wire command and a presented frame are held as a descriptor is, is the model's choice (log 14). -/
def Obligations.BusyControllerHoldsRequests : Prop :=
  (∀ (i : Instr) (s : State), s.st ≠ .idle → exec i s = .next s) ∧
  ∀ (s t : State) (cmd : Command) (es : List Event),
    s.st ≠ .idle → (s.events = .present cmd :: es ∨ s.events = .shutdown :: es) → step s = .next t →
    t.events = s.events ∧ SameOperands s t

/-- 41_sequencer.md R139: which operands are valid, on natural numbers. -/
def Obligations.ValidityTable : Prop :=
  ∀ (c : Config) (a : Addr) (count : BitVec 32) (p : List Byte),
    (valid c .readByte a count p = true ↔ a.toNat < c.flashSize) ∧
    (valid c .readBytes a count p = true ↔ a.toNat < c.flashSize ∧ a.toNat + count.toNat ≤ c.flashSize) ∧
    (valid c .writeByte a count p = true ↔ a.toNat < c.flashSize) ∧
    (valid c .writeBytes a count p = true ↔
      (1 ≤ p.length ∧ p.length ≤ c.pageSize) ∧ a.toNat % c.pageSize + p.length ≤ c.pageSize ∧
        a.toNat + p.length ≤ c.flashSize) ∧
    (valid c .erase4K a count p = true ↔ a.toNat < c.flashSize) ∧
    (valid c .erase32K a count p = true ↔ a.toNat < c.flashSize) ∧
    (valid c .eraseSector a count p = true ↔ a.toNat < c.flashSize) ∧
    (valid c .eraseDie a count p = true ↔ a.toNat < c.flashSize) ∧
    valid c .writeEnable a count p = true ∧ valid c .readStatusRegister a count p = true ∧
    valid c .readChipId a count p = true

/-- 41_sequencer.md R140: a malformed or invalid operation completes in the accepting transition with `INVALID_INPUT`:
no exchange is made, nothing is sent to the chip, `st` stays IDLE, `SR_LAST` is unchanged; the operand registers are
loaded all the same (R136, 30_encoding.md R102). That `WBUF` then holds a payload longer than `PAGE_SIZE` whole is the
model's reading (log 31). -/
def Obligations.RejectionSendsNothing : Prop :=
  (∀ (s : State) (i : Instr) (o : HostOp) (a : Addr) (count : BitVec 32) (data : List Byte),
    s.st = .idle → hostOperands i = some (o, a, count, data) → valid s.cfg o a count data = false →
    ∃ t, exec i s = .next t ∧ t.resStatus = .invalidInput ∧ t.resData = [] ∧ t.st = .idle ∧ t.chip = s.chip ∧
      t.trace = s.trace ∧ t.events = s.events ∧ t.srLast = s.srLast ∧ t.pollCnt = s.pollCnt ∧
      t.tpOpen = s.tpOpen ∧ t.cfg = s.cfg ∧ t.op = o.code ∧ t.addr = a ∧ t.wbuf = operandBuf o data) ∧
  (∀ (s : State) (h : Descriptor) (es : List Event),
    s.st = .idle → s.events = .present (.host h) :: es → malformed h = true →
    ∃ t, step s = .next t ∧ t.resStatus = .invalidInput ∧ t.resData = [] ∧ t.st = .idle ∧ t.chip = s.chip ∧
      t.trace = s.trace ∧ t.events = es ∧ t.srLast = s.srLast ∧ t.pollCnt = s.pollCnt ∧
      t.tpOpen = s.tpOpen ∧ t.cfg = s.cfg ∧ t.op = h.op ∧ t.addr = h.addr)

/-- 70_reset_and_hazards.md R214: with `TP_OPEN = 0` an operation that passes validation completes at once with
`TRANSPORT_ERROR`, one that fails it with `INVALID_INPUT`, and no exchange is made. -/
def Obligations.ClosedTransportEndsOperations : Prop :=
  ∀ (s : State) (i : Instr) (o : HostOp) (a : Addr) (count : BitVec 32) (data : List Byte),
    s.st = .idle → s.tpOpen = false → hostOperands i = some (o, a, count, data) →
    ∃ t, exec i s = .next t ∧
      t.resStatus = (if valid s.cfg o a count data then .transportError else .invalidInput) ∧
      t.resData = [] ∧ t.st = .idle ∧ t.trace = s.trace ∧ t.chip = s.chip ∧ t.events = s.events ∧
      t.srLast = s.srLast ∧ t.pollCnt = s.pollCnt ∧ t.tpOpen = false ∧ t.cfg = s.cfg

/-! ## Host operations, for every answer of the environment -/

/-- 42_read.md R160, R161, 43_write.md R165, 45_status_id.md R180, R181 (step SINGLE, 41_sequencer.md R141): with the
operands valid and the transport open, the operation is the one exchange of its main frame; `Err` ends it with
`TRANSPORT_ERROR`, `Ok(r)` with `OK` and the slice of `r`, `readStatusRegister` storing `r[1]` in `SR_LAST`. -/
def Obligations.SingleTransactionFollowsItsExchange : Prop :=
  ∀ (s t : State) (i : Instr) (o : HostOp) (a : Addr) (count : BitVec 32) (data : List Byte) (res : ExchangeResult),
    s.st = .idle → s.tpOpen = true → hostOperands i = some (o, a, count, data) → pollClass o = none →
    valid s.cfg o a count data = true →
    exchange (singleFrame s.cfg o a count) (loadDescriptor o a count data s) = (res, t) →
    (res = .err → exec i s = .next { t with resStatus := .transportError, resData := [] }) ∧
    ∀ r, res = .ok r →
      (o = .readByte → ∃ b, r[5]? = some b ∧ exec i s = .next { t with resStatus := .ok, resData := [b] }) ∧
      (o = .readBytes → (r.drop 5).length = count.toNat ∧
        exec i s = .next { t with resStatus := .ok, resData := r.drop 5 }) ∧
      (o = .writeEnable → exec i s = .next { t with resStatus := .ok, resData := [] }) ∧
      (o = .readStatusRegister → ∃ b, r[1]? = some b ∧
        exec i s = .next { t with srLast := some b, resStatus := .ok, resData := [b] }) ∧
      (o = .readChipId → (r.drop 1).length = s.cfg.idLen ∧
        exec i s = .next { t with resStatus := .ok, resData := r.drop 1 })

/-- 41_sequencer.md R142: step ENABLE, for every sequenced operation: the exchange of `[OP_WREN]`; `Err` ends the
operation with `TRANSPORT_ERROR`, `Ok` leads to ENABLE_SENT. -/
def Obligations.SequencedAcceptanceSendsWriteEnable : Prop :=
  ∀ (s t : State) (i : Instr) (o : HostOp) (a : Addr) (count : BitVec 32) (data : List Byte) (k : PollClass)
    (res : ExchangeResult),
    s.st = .idle → s.tpOpen = true → hostOperands i = some (o, a, count, data) → pollClass o = some k →
    valid s.cfg o a count data = true →
    exchange [s.cfg.opcodes.wren] (loadDescriptor o a count data s) = (res, t) →
    (res = .err → exec i s = .next { t with resStatus := .transportError, resData := [], st := .idle }) ∧
    ∀ r, res = .ok r → exec i s = .next { t with st := .enableSent }

/-- 41_sequencer.md R136 step 1, 30_encoding.md R102: what acceptance loads before anything else is looked at. That
`WBUF` holds a payload longer than `PAGE_SIZE`, which is rejected afterwards, whole is the model's reading (log 31). -/
def Obligations.AcceptanceLoadsOperands : Prop :=
  ∀ (s t : State) (i : Instr) (o : HostOp) (a : Addr) (count : BitVec 32) (data : List Byte),
    s.st = .idle → hostOperands i = some (o, a, count, data) → exec i s = .next t →
    t.op = o.code ∧ t.addr = a ∧
    ((o = .writeByte ∨ o = .writeBytes) → t.wbuf = data ∧ (data.length < 2 ^ 32 → t.len.toNat = data.length)) ∧
    (¬(o = .writeByte ∨ o = .writeBytes) → t.wbuf = []) ∧
    ((o = .readByte ∨ o = .readStatusRegister) → t.len = 1) ∧
    (o = .readBytes → t.len = count) ∧
    (o = .readChipId → s.cfg.idLen < 2 ^ 32 → t.len.toNat = s.cfg.idLen) ∧
    ((o = .writeEnable ∨ o = .erase4K ∨ o = .erase32K ∨ o = .eraseSector ∨ o = .eraseDie) → t.len = 0)

/-- 41_sequencer.md R143: step ISSUE in ENABLE_SENT: the main frame's exchange; `Err` ends the operation, `Ok` sets
`POLL_CNT` to 0 and leads to CMD_ISSUED. -/
def Obligations.IssueStepSendsMainFrame : Prop :=
  ∀ (s t : State) (o : HostOp) (k : PollClass) (res : ExchangeResult),
    s.st = .enableSent → sequencedOp s.op = some (o, k) → inOrder s.events = true →
    exchange (issueFrame s.cfg k s.addr s.wbuf) s = (res, t) →
    (res = .err → step s = .next { t with resStatus := .transportError, resData := [], st := .idle }) ∧
    ∀ r, res = .ok r → step s = .next { t with pollCnt := 0, st := .cmdIssued }

/-- 41_sequencer.md R146: step POLL in CMD_ISSUED and POLLING: the exchange of `[OP_RDSR, 0x00]`; the byte read is
stored in `SR_LAST`, bit 0 = 0 ends the operation with `OK`, bit 0 = 1 counts and either reaches `MAX_POLLS[c]`,
`BUSY_TIMEOUT`, or goes on in POLLING. -/
def Obligations.PollStepTestsBusyBit : Prop :=
  ∀ (s t : State) (o : HostOp) (k : PollClass) (res : ExchangeResult),
    (s.st = .cmdIssued ∨ s.st = .polling) → sequencedOp s.op = some (o, k) → inOrder s.events = true →
    exchange [s.cfg.opcodes.rdsr, 0x00] s = (res, t) →
    (res = .err → step s = .next { t with resStatus := .transportError, resData := [], st := .idle }) ∧
    ∀ r, res = .ok r → ∃ b, r[1]? = some b ∧
      (b.getLsbD 0 = false → step s = .next { t with srLast := some b, resStatus := .ok, resData := [], st := .idle }) ∧
      (b.getLsbD 0 = true → maxPolls s.cfg k = some (s.pollCnt + 1) →
        step s = .next { t with srLast := some b, pollCnt := s.pollCnt + 1, resStatus := .busyTimeout, resData := [],
                                st := .idle }) ∧
      (b.getLsbD 0 = true → maxPolls s.cfg k ≠ some (s.pollCnt + 1) →
        step s = .next { t with srLast := some b, pollCnt := s.pollCnt + 1, st := .polling })

/-- 41_sequencer.md R147: an exchange that fails ends the operation in flight at once: `TRANSPORT_ERROR`, no data,
IDLE, no further exchange: if a failure is among what the step adds to the trace, it is all that the step adds. The
count and `SR_LAST` are what they were (60_exceptions.md R192). -/
def Obligations.TransportFailureEndsTheOperation : Prop :=
  ∀ (s t : State) (f : List Byte),
    s.st ≠ .idle → noReset s.events = true → step s = .next t → (f, .err) ∈ t.trace.drop s.trace.length →
    t.trace = s.trace ++ [(f, .err)] ∧ t.resStatus = .transportError ∧ t.resData = [] ∧ t.st = .idle ∧ t.pollCnt = s.pollCnt ∧ t.srLast = s.srLast ∧
    SameOperands s t

/-- 41_sequencer.md R148, 60_exceptions.md R191: `complete` writes `RES_STATUS`, `RES_DATA` and `st` and nothing else;
raising an error is `complete(E, [])`. -/
def Obligations.CompletionWritesOnlyTheResult : Prop :=
  ∀ (s : State) (e : ResStatus) (d : List Byte),
    s.complete e d = { s with resStatus := e, resData := d, st := .idle } ∧ s.raise e = s.complete e []

/-! ## Host operations against the chip -/

/-- 42_read.md R160, R161 and 20_memory.md R69: on an idle chip `readByte` and `readBytes` return the array's bytes, in
ascending order, and change nothing on the chip. -/
def Obligations.ReadsReturnTheArray : Prop :=
  ∀ (s : State) (a : Addr) (count : BitVec 32) (junk : List Byte) (es : List Event),
    s.st = .idle → s.tpOpen = true → s.chip.fault = false → s.chip.wip = false →
    s.events = .answer (.chip junk) :: es → a.toNat < s.cfg.flashSize →
    (tooLong s.cfg (frame s.cfg.opcodes.read a (.fill 1)) = false →
      ∃ t r, exec (.readByte a) s = .next t ∧
        SingleDone s t .readByte a [Memory.read s.chip.mem a.toNat] (frame s.cfg.opcodes.read a (.fill 1)) r es ∧
        t.len = 1 ∧ t.srLast = s.srLast ∧ t.chip = s.chip) ∧
    (a.toNat + count.toNat ≤ s.cfg.flashSize →
      tooLong s.cfg (frame s.cfg.opcodes.read a (.fill count.toNat)) = false →
      ∃ t r, exec (.readBytes a count) s = .next t ∧
        SingleDone s t .readBytes a (Memory.readRange s.chip.mem a.toNat count.toNat)
          (frame s.cfg.opcodes.read a (.fill count.toNat)) r es ∧
        t.len = count ∧ t.srLast = s.srLast ∧ t.chip = s.chip)

/-- 43_write.md R165 and 20_memory.md R67: on an idle chip `writeEnable` sets the latch and nothing else. -/
def Obligations.WriteEnableSetsTheLatch : Prop :=
  ∀ (s : State) (a : Addr) (junk : List Byte) (es : List Event),
    s.cfg.wf = true → s.st = .idle → s.tpOpen = true → s.chip.fault = false → s.chip.wip = false →
    s.events = .answer (.chip junk) :: es →
    ∃ t r, exec (.writeEnable a) s = .next t ∧
      SingleDone s t .writeEnable a [] [s.cfg.opcodes.wren] r es ∧ t.len = 0 ∧ t.srLast = s.srLast ∧
      t.chip = { s.chip with wel := true }

/-- 45_status_id.md R180 and 20_memory.md R64, R71: `readStatusRegister` returns the status byte, busy or not, stores it
in `SR_LAST`, and releases the hold of R76. -/
def Obligations.StatusReadReturnsTheStatusByte : Prop :=
  ∀ (s : State) (a : Addr) (junk : List Byte) (es : List Event),
    s.cfg.wf = true → s.st = .idle → s.tpOpen = true → s.chip.fault = false →
    s.events = .answer (.chip junk) :: es → tooLong s.cfg [s.cfg.opcodes.rdsr, 0x00] = false →
    ∃ t r b, exec (.readStatusRegister a) s = .next t ∧
      SingleDone s t .readStatusRegister a [b] [s.cfg.opcodes.rdsr, 0x00] r es ∧ t.len = 1 ∧ t.srLast = some b ∧
      b.getLsbD 0 = s.chip.wip ∧ b.getLsbD 1 = s.chip.wel ∧ b.extractLsb' 2 6 = s.cfg.srHi ∧
      t.chip = { s.chip with hold := false }

/-- 45_status_id.md R181 and 20_memory.md R72: on an idle chip `readChipId` returns `CHIP_ID`. -/
def Obligations.ChipIdIsReturned : Prop :=
  ∀ (s : State) (a : Addr) (junk : List Byte) (es : List Event),
    s.cfg.wf = true → s.st = .idle → s.tpOpen = true → s.chip.fault = false → s.chip.wip = false →
    s.events = .answer (.chip junk) :: es → tooLong s.cfg (frame0 s.cfg.opcodes.rdid s.cfg.idLen) = false →
    ∃ t r, exec (.readChipId a) s = .next t ∧
      SingleDone s t .readChipId a s.cfg.chipId (frame0 s.cfg.opcodes.rdid s.cfg.idLen) r es ∧
      (s.cfg.idLen < 2 ^ 32 → t.len.toNat = s.cfg.idLen) ∧ t.srLast = s.srLast ∧ t.chip = s.chip

/-- 43_write.md R166, R167, 44_erase.md R170 and 20_memory.md R67: on an idle chip the six sequenced operations, valid
and accepted, stand in ENABLE_SENT with their operands loaded and the chip's latch set; no byte of the array and no
other register has changed. -/
def Obligations.SequencedOperationsAreEnabled : Prop :=
  ∀ (s : State) (i : Instr) (o : HostOp) (a : Addr) (count : BitVec 32) (data : List Byte) (k : PollClass)
    (junk : List Byte) (es : List Event),
    s.cfg.wf = true → s.st = .idle → s.tpOpen = true → s.chip.fault = false → s.chip.wip = false →
    s.events = .answer (.chip junk) :: es → hostOperands i = some (o, a, count, data) → pollClass o = some k →
    valid s.cfg o a count data = true →
    ∃ t r, exec i s = .next t ∧ t.st = .enableSent ∧ t.op = o.code ∧ t.addr = a ∧ t.wbuf = data ∧
      t.resStatus = .noResult ∧ t.resData = [] ∧ t.srLast = s.srLast ∧ t.pollCnt = s.pollCnt ∧
      t.tpOpen = true ∧ t.cfg = s.cfg ∧ t.events = es ∧ t.trace = s.trace ++ [([s.cfg.opcodes.wren], .ok r)] ∧
      t.chip = { s.chip with wel := true }

/-- 41_sequencer.md R143 and 20_memory.md R68, R70: step ISSUE on an idle chip with its latch set programs exactly the
payload's bytes, or sets exactly the aligned block to 0xFF, cut at the array's end; every other byte reads as before;
the chip is busy, and after an erase, with the assumption of R76, on hold. -/
def Obligations.IssueStepChangesExactlyItsBytes : Prop :=
  ∀ (s : State) (o : HostOp) (k : PollClass) (junk : List Byte) (es : List Event),
    s.cfg.wf = true → s.st = .enableSent → sequencedOp s.op = some (o, k) → heldOperands o s = true →
    s.tpOpen = true → s.chip.sound s.cfg = true → s.chip.fault = false → s.chip.wip = false → s.chip.wel = true →
    s.events = .answer (.chip junk) :: es → tooLong s.cfg (mainFrame o s) = false →
    ∃ t r, step s = .next t ∧ t.st = .cmdIssued ∧ t.pollCnt = 0 ∧ SameOperands s t ∧
      t.resStatus = s.resStatus ∧ t.resData = s.resData ∧ t.srLast = s.srLast ∧ t.events = es ∧
      t.trace = s.trace ++ [(mainFrame o s, .ok r)] ∧
      t.chip.wip = true ∧ t.chip.wel = true ∧ t.chip.fault = false ∧
      (k = .program → t.chip.hold = s.chip.hold ∧ ∀ x, Memory.read t.chip.mem x =
        if s.addr.toNat ≤ x ∧ x < s.addr.toNat + s.wbuf.length then
          programCell s.cfg.programCell (Memory.read s.chip.mem x) (s.wbuf.getD (x - s.addr.toNat) 0)
        else Memory.read s.chip.mem x) ∧
      (∀ e, k = .erase e → t.chip.hold = (s.chip.hold || s.cfg.assumeEraseHold) ∧ ∀ x, Memory.read t.chip.mem x =
        if s.addr.toNat / blockSize s.cfg e * blockSize s.cfg e ≤ x ∧
            x < s.addr.toNat / blockSize s.cfg e * blockSize s.cfg e + blockSize s.cfg e ∧ x < s.cfg.flashSize then
          0xFF
        else Memory.read s.chip.mem x)

/-! ## The wire commands -/

/-- `READ` on the wire (20_memory.md R69): response byte `5 + i` is `MEM[A + i]`, the chip does not change. That the
frame runs as an instruction and writes no register of the controller is the model's choice (log 14). -/
def Obligations.WireReadAnswersTheArray : Prop :=
  ∀ (s : State) (a : Addr) (n : Nat) (junk : List Byte) (es : List Event),
    s.st = .idle → s.tpOpen = true → s.chip.fault = false → s.chip.wip = false →
    s.events = .answer (.chip junk) :: es → a.toNat + n ≤ s.cfg.flashSize →
    tooLong s.cfg (frame s.cfg.opcodes.read a (.fill n)) = false →
    ∃ t r, exec (.wireRead a n) s = .next t ∧ WireDone s t (frame s.cfg.opcodes.read a (.fill n)) r es ∧
      (∀ i, i < n → r[5 + i]? = some (Memory.read s.chip.mem (a.toNat + i))) ∧ t.chip = s.chip

/-- `PROGRAM` on the wire (20_memory.md R68), the wrap included: with the latch clear nothing changes; with it set,
payload byte `i` is programmed at `base + ((off + i) mod PAGE_SIZE)`, every other byte reads as before, the chip is
busy. The premise on `programEnd` leaves out a page cut by the end of the array (log 11, the model's choice). That with
the latch clear a payload or an address out of range has no effect either is the model's reading (log 10), and that the
frame runs as an instruction and writes no register of the controller its choice (log 14). -/
def Obligations.WireProgramWrapsInsideThePage : Prop :=
  ∀ (s : State) (a : Addr) (d junk : List Byte) (es : List Event),
    s.cfg.wf = true → s.st = .idle → s.tpOpen = true → s.chip.sound s.cfg = true → s.chip.fault = false →
    s.chip.wip = false → s.events = .answer (.chip junk) :: es →
    tooLong s.cfg (frame s.cfg.opcodes.program a (.data d)) = false →
    (s.chip.wel = false → ∃ t r, exec (.wireProgram a d) s = .next t ∧
      WireDone s t (frame s.cfg.opcodes.program a (.data d)) r es ∧ t.chip = s.chip) ∧
    (s.chip.wel = true → 1 ≤ d.length → d.length ≤ s.cfg.pageSize → a.toNat < s.cfg.flashSize →
      programEnd s.cfg.pageSize a.toNat d.length ≤ s.cfg.flashSize →
      ∃ t r, exec (.wireProgram a d) s = .next t ∧
        WireDone s t (frame s.cfg.opcodes.program a (.data d)) r es ∧
        (∀ i (hi : i < d.length), Memory.read t.chip.mem
            (a.toNat / s.cfg.pageSize * s.cfg.pageSize + (a.toNat % s.cfg.pageSize + i) % s.cfg.pageSize) =
          programCell s.cfg.programCell (Memory.read s.chip.mem
            (a.toNat / s.cfg.pageSize * s.cfg.pageSize + (a.toNat % s.cfg.pageSize + i) % s.cfg.pageSize)) d[i]) ∧
        (∀ x, (∀ i, i < d.length → x ≠ a.toNat / s.cfg.pageSize * s.cfg.pageSize +
            (a.toNat % s.cfg.pageSize + i) % s.cfg.pageSize) →
          Memory.read t.chip.mem x = Memory.read s.chip.mem x) ∧
        t.chip.wip = true ∧ t.chip.wel = true ∧ t.chip.hold = s.chip.hold ∧ t.chip.fault = false)

/-- `WREN` on the wire (20_memory.md R67): `WEL_CHIP <- 1` and nothing else of the chip. That the frame runs as an
instruction and writes no register of the controller is the model's choice (log 14). -/
def Obligations.WireWriteEnableSetsTheLatch : Prop :=
  ∀ (s : State) (junk : List Byte) (es : List Event),
    s.cfg.wf = true → s.st = .idle → s.tpOpen = true → s.chip.fault = false → s.chip.wip = false →
    s.events = .answer (.chip junk) :: es →
    ∃ t r, exec .wireWren s = .next t ∧ WireDone s t [s.cfg.opcodes.wren] r es ∧ t.chip = { s.chip with wel := true }

/-- The four erase commands on the wire (20_memory.md R70): with the latch clear nothing changes; with it set the
aligned block of the command's size that contains the address becomes 0xFF, cut at the array's end, every other byte
reads as before, the chip is busy and, with the assumption of R76 (log 21), on hold. That the frame runs as an
instruction and writes no register of the controller is the model's choice (log 14). -/
def Obligations.WireEraseClearsTheAlignedBlock : Prop :=
  ∀ (s : State) (k : EraseKind) (a : Addr) (junk : List Byte) (es : List Event),
    s.cfg.wf = true → s.st = .idle → s.tpOpen = true → s.chip.fault = false → s.chip.wip = false →
    s.events = .answer (.chip junk) :: es → a.toNat < s.cfg.flashSize →
    tooLong s.cfg (frame (eraseOpcode s.cfg k) a (.fill 0)) = false →
    ∃ t r,
      exec (match k with
        | .sub4K => .wireErase4K a
        | .sub32K => .wireErase32K a
        | .sector => .wireEraseSector a
        | .die => .wireEraseDie a) s = .next t ∧
      WireDone s t (frame (eraseOpcode s.cfg k) a (.fill 0)) r es ∧
      (s.chip.wel = false → t.chip = s.chip) ∧
      (s.chip.wel = true → t.chip.wip = true ∧ t.chip.wel = true ∧ t.chip.fault = false ∧
        t.chip.hold = (s.chip.hold || s.cfg.assumeEraseHold) ∧
        ∀ (g : Nat), g = (match k with
            | .sub4K => 4096
            | .sub32K => 32768
            | .sector => s.cfg.sectorSize
            | .die => s.cfg.dieSize) →
          ∀ x, Memory.read t.chip.mem x =
            if a.toNat / g * g ≤ x ∧ x < min (a.toNat / g * g + g) s.cfg.flashSize then 0xFF
            else Memory.read s.chip.mem x)

/-- `RDSR` on the wire (20_memory.md R71), legal whether or not the chip is busy: response byte 1 is the status byte of
R64, `HOLD <- 0`, nothing else of the chip. That the frame runs as an instruction and writes no register of the
controller, `SR_LAST` among them, is the model's choice (log 14). -/
def Obligations.WireStatusReadAnswersTheStatus : Prop :=
  ∀ (s : State) (junk : List Byte) (es : List Event),
    s.cfg.wf = true → s.st = .idle → s.tpOpen = true → s.chip.fault = false →
    s.events = .answer (.chip junk) :: es → tooLong s.cfg [s.cfg.opcodes.rdsr, 0x00] = false →
    ∃ t r, exec .wireRdsr s = .next t ∧ WireDone s t [s.cfg.opcodes.rdsr, 0x00] r es ∧
      r[1]? = some (s.cfg.srHi ++ BitVec.ofBool s.chip.wel ++ BitVec.ofBool s.chip.wip : BitVec 8) ∧
      t.chip = { s.chip with hold := false }

/-- `RDID` on the wire (20_memory.md R72): response bytes 1 to `ID_LEN` are `CHIP_ID`, the chip does not change. That the
frame runs as an instruction and writes no register of the controller is the model's choice (log 14). -/
def Obligations.WireIdentificationAnswersTheChipId : Prop :=
  ∀ (s : State) (junk : List Byte) (es : List Event),
    s.cfg.wf = true → s.st = .idle → s.tpOpen = true → s.chip.fault = false → s.chip.wip = false →
    s.events = .answer (.chip junk) :: es → tooLong s.cfg (frame0 s.cfg.opcodes.rdid s.cfg.idLen) = false →
    ∃ t r, exec .wireRdid s = .next t ∧ WireDone s t (frame0 s.cfg.opcodes.rdid s.cfg.idLen) r es ∧
      r.drop 1 = s.cfg.chipId ∧ t.chip = s.chip

/-- The frame of the nine wire commands, for every state and every answer of the environment: no register of the
controller and no parameter changes; at most one answer is taken, one exchange recorded. All of it is the model's choice
of what a frame on the transport port is (log 14). -/
def Obligations.WireCommandsLeaveTheControllerAlone : Prop :=
  ∀ (i : Instr) (s t : State), hostOperands i = none → exec i s = .next t →
    SameController s t ∧ (t.events = s.events ∨ ∃ a, s.events = .answer a :: t.events) ∧
    (t.trace = s.trace ∨ ∃ f res, encode s.cfg i = .wire f ∧ t.trace = s.trace ++ [(f, res)])

/-- A frame put on the transport port of an idle controller that decodes to no instruction is exchanged all the same: one
entry of the trace, no register of the controller changed, and at an answering chip the frame is handled as 20_memory.md
R66 to R74 say; with the transport closed nothing happens. The model's choice (log 14, log 20). -/
def Obligations.UndecodedFramesReachTheChip : Prop :=
  ∀ (s : State) (f : List Byte) (e : DecodeError) (es : List Event),
    s.st = .idle → s.events = .present (.wire f) :: es → decode s.cfg (.wire f) = .error e →
    (s.tpOpen = false → step s = .next (s.withEvents es)) ∧
    (s.tpOpen = true →
      ∃ t res, step s = .next t ∧ SameController s t ∧ t.trace = s.trace ++ [(f, res)] ∧
        (t.events = es ∨ ∃ a, es = .answer a :: t.events) ∧
        ∀ junk es', es = .answer (.chip junk) :: es' →
          t.events = es' ∧ t.chip = chipReceive s.cfg s.draws s.chip f)

/-! ## The chip -/

/-- 20_memory.md R66: any frame but `RDSR` at a busy chip sets `CHIP_FAULT`; so does a frame of no format (R74): a first
byte that is none of the nine opcodes, an addressed frame shorter than 5 bytes, an erase frame longer than 5, a `WREN`
frame longer than 1, an `RDSR` or `RDID` frame of length 1. That the empty frame, which 00_scope.md R9 excludes, counts
as one of them is the model's reading (log 20). -/
def Obligations.FrameAtABusyChipFaults : Prop :=
  ∀ (c : Config) (n : Nat) (chip : Chip) (f : List Byte),
    (chip.wip = true → f.head? ≠ some c.opcodes.rdsr → (chipReceive c n chip f).fault = true) ∧
    ((∀ op rest, f = op :: rest → op ∉ c.opcodes.all) → (chipReceive c n chip f).fault = true) ∧
    (∀ op, c.wf = true → f.head? = some op →
      (op ∈ [c.opcodes.read, c.opcodes.program, c.opcodes.erase4K, c.opcodes.erase32K, c.opcodes.eraseSector,
          c.opcodes.eraseDie] ∧ f.length < 5) ∨
      (op ∈ [c.opcodes.erase4K, c.opcodes.erase32K, c.opcodes.eraseSector, c.opcodes.eraseDie] ∧ 5 < f.length) ∨
      (op = c.opcodes.wren ∧ 1 < f.length) ∨ ((op = c.opcodes.rdsr ∨ op = c.opcodes.rdid) ∧ f.length = 1) →
      (chipReceive c n chip f).fault = true)

/-- The frames of a format whose operands the chip does not have: with the latch set, a `PROGRAM` of no bytes, of more
than a page or at an address that does not exist (20_memory.md R68) and an erase at such an address (R70); a `READ` that
passes the end of the array, whatever its fillers (R69). Each sets `CHIP_FAULT`. -/
def Obligations.FramesOutOfRangeFault : Prop :=
  ∀ (c : Config) (n : Nat) (chip : Chip) (a : Addr) (d : List Byte), c.wf = true →
    (chip.wel = true → (d = [] ∨ c.pageSize < d.length ∨ c.flashSize ≤ a.toNat) →
      (chipReceive c n chip (frame c.opcodes.program a (.data d))).fault = true) ∧
    (c.flashSize < a.toNat + d.length → (chipReceive c n chip (frame c.opcodes.read a (.data d))).fault = true) ∧
    (∀ k, chip.wel = true → c.flashSize ≤ a.toNat →
      (chipReceive c n chip (frame (eraseOpcode c k) a (.fill 0))).fault = true)

/-- 20_memory.md R75: `CHIP_FAULT` is sticky: no step clears it. -/
def Obligations.ChipFaultIsSticky : Prop :=
  ∀ (s t : State), step s = .next t → s.chip.fault = true → t.chip.fault = true

/-- 20_memory.md R73: the chip's completion step, in any state of the controller: enabled when `WIP = 1` and `HOLD = 0`
it clears `WIP` and the latch and touches nothing else; else it does nothing. -/
def Obligations.CompletionStepClearsBusyAndLatch : Prop :=
  ∀ (s : State) (es : List Event), s.events = .chipCompletes :: es → s.chip.fault = false →
    ∃ t, step s = .next t ∧ SameController s t ∧ t.events = es ∧ t.trace = s.trace ∧
      t.chip = (if s.chip.wip = true ∧ s.chip.hold = false then { s.chip with wip := false, wel := false } else s.chip)

/-- 20_memory.md R76, 44_erase.md R176: with `ASSUME_ERASE_HOLD` the first status read after an accepted erase shows bit
0 = 1, however often the chip's completion step is tried in between. -/
def Obligations.FirstPollAfterAnEraseIsBusy : Prop :=
  ∀ (c : Config) (n m m' : Nat) (chip : Chip) (k : EraseKind) (a : Addr) (junk : List Byte) (tries : Nat),
    c.wf = true → c.assumeEraseHold = true → chip.fault = false → chip.wip = false → chip.wel = true →
    a.toNat < c.flashSize →
    ∃ b, (chipRespond c junk m'
        (Nat.repeat (chipComplete c m) tries (chipReceive c n chip (frame (eraseOpcode c k) a (.fill 0))))
        [c.opcodes.rdsr, 0x00])[1]? = some b ∧ b.getLsbD 0 = true

/-- 20_memory.md R62, R66 to R73: outside `CHIP_FAULT`, no step changes a byte of the array but one whose exchange is a
`PROGRAM` or erase frame. -/
def Obligations.OnlyProgramAndEraseChangeTheArray : Prop :=
  ∀ (s t : State), step s = .next t → t.chip.fault = false →
    (∃ x, Memory.read t.chip.mem x ≠ Memory.read s.chip.mem x) →
    ∃ f res, t.trace = s.trace ++ [(f, res)] ∧
      ((∃ a d, chipCommand s.cfg f = .program a d) ∨ ∃ k a, chipCommand s.cfg f = .erase k a)

/-- 40_framer.md R129: when an exchange fails, the chip has handled the frame or it has not; a frame longer than
`MAX_FRAME` fails; nothing is retried: one exchange, one entry of the trace. -/
def Obligations.FailedExchangeMayHaveReachedTheChip : Prop :=
  ∀ (s : State) (f : List Byte) (reached : Bool) (es : List Event),
    s.tpOpen = true → s.events = .answer (.err reached) :: es →
    ∃ t, exchange f s = (.err, t) ∧ SameController s t ∧ t.events = es ∧ t.trace = s.trace ++ [(f, .err)] ∧
      t.chip = (if reached then chipReceive s.cfg s.draws s.chip f else s.chip) ∧
      (∀ (u : State), tooLong u.cfg f = true → (exchange f u).1 = .err)

/-! ## Whole-machine rules -/

/-- 41_sequencer.md R149: every transition of `st`. Without a reset or a loss of power (log 29), IDLE leads to IDLE or ENABLE_SENT, ENABLE_SENT to
CMD_ISSUED or IDLE, CMD_ISSUED and POLLING to POLLING or IDLE, and the chip's own step leaves `st` alone; a reset and a
loss of power lead to IDLE. -/
def Obligations.SequencerTransitions : Prop :=
  ∀ (s t : State), step s = .next t →
    (noReset s.events = false → t.st = .idle) ∧
    (noReset s.events = true → inOrder s.events = false → t.st = s.st) ∧
    (inOrder s.events = true →
      (s.st = .idle → t.st = .idle ∨ t.st = .enableSent) ∧
      (s.st = .enableSent → t.st = .cmdIssued ∨ t.st = .idle) ∧
      (s.st = .cmdIssued → t.st = .polling ∨ t.st = .idle) ∧
      (s.st = .polling → t.st = .polling ∨ t.st = .idle))

/-- 10_state.md R21, R34: the operand registers are written only by the acceptance of a host operation (or a reset or a
loss of power), the parameters by nothing. That a reset, which loads the construction arguments
(70_reset_and_hazards.md R210), leaves the parameters as they are is the model's choice (log 1). -/
def Obligations.OperandsWrittenOnlyByAcceptance : Prop :=
  ∀ (s t : State), step s = .next t →
    t.cfg = s.cfg ∧
    (noReset s.events = true → (s.st ≠ .idle ∨ ∀ h es, s.events ≠ .present (.host h) :: es) →
      t.op = s.op ∧ t.addr = s.addr ∧ t.len = s.len ∧ t.wbuf = s.wbuf)

/-- 10_state.md R28: `SR_LAST` is written by every status read that succeeds and, but for a reset or a loss of power, by nothing else:
whichever step changes it has exchanged `[OP_RDSR, 0x00]` and stores response byte 1. -/
def Obligations.StatusReadsAloneWriteSrLast : Prop :=
  ∀ (s t : State), step s = .next t → noReset s.events = true → t.srLast ≠ s.srLast →
    ∃ r b, t.trace = s.trace ++ [([s.cfg.opcodes.rdsr, 0x00], .ok r)] ∧ r[1]? = some b ∧ t.srLast = some b

/-- 10_state.md R26: `RES_STATUS` becomes `NONE` only by an acceptance that leaves an operation in flight, by a reset or
by a loss of power; any other change of it is a completion: the controller is in IDLE afterwards. -/
def Obligations.ResultStatusWrittenByAcceptanceAndCompletion : Prop :=
  ∀ (s t : State), step s = .next t → noReset s.events = true → t.resStatus ≠ s.resStatus →
    (t.resStatus = .noResult → s.st = .idle ∧ t.st = .enableSent) ∧ (t.resStatus ≠ .noResult → t.st = .idle)

/-- 10_state.md R31, 70_reset_and_hazards.md R213: shutdown, taken in IDLE, clears `TP_OPEN` and nothing else, with no
exchange; no other step clears it, and nothing but a reset or a loss of power, which constructs the controller anew (log
29), sets it. -/
def Obligations.ShutdownAloneClosesTheTransport : Prop :=
  (∀ (s : State) (es : List Event), s.st = .idle → s.events = .shutdown :: es →
    step s = .next { s with tpOpen := false, events := es }) ∧
  ∀ (s t : State), step s = .next t →
    (s.tpOpen = true → t.tpOpen = false → s.st = .idle ∧ ∃ es, s.events = .shutdown :: es) ∧
    (s.tpOpen = false → t.tpOpen = true → noReset s.events = false)

/-- 70_reset_and_hazards.md R210, R211, 10_state.md R39, R40: reset, in any state: IDLE, the transport open, `NONE`, no
data, no status byte, nothing exchanged. Between two exchanges the chip is unchanged; in the middle of one, by a reset or
a loss of power, the cut frame is treated as 20_memory.md R74. That with the transport closed there is no frame to cut,
so that the chip is unchanged, that a cut exchange has no entry in the trace, and that the configuration is kept is the
model's reading (log 1, log 17). -/
def Obligations.ResetInAnyState : Prop :=
  ∀ (s : State) (es : List Event),
    (s.events = .reset :: es → ∃ t, step s = .next t ∧ ResetDone s t es ∧ t.chip = s.chip) ∧
    (s.events = .resetMidExchange :: es → ∃ t, step s = .next t ∧ ResetDone s t es ∧
      (s.tpOpen = true → t.chip.fault = true) ∧ (s.tpOpen = false → t.chip = s.chip))

/-- 60_exceptions.md R204: "What survives loss of power is `MEM` alone". A loss of power between two exchanges, in any
state: the controller as after a reset, every byte of the array kept while the chip is without `CHIP_FAULT`. That
`CHIP_FAULT` stays as it is (20_memory.md R75), that the array is kept while a program or erase is in progress, and that
the configuration is kept is the model's choice (log 1, log 29). -/
def Obligations.PowerLossKeepsTheArray : Prop :=
  ∀ (s : State) (es : List Event), s.events = .powerLoss :: es →
    ∃ t, step s = .next t ∧ ResetDone s t es ∧ t.chip.fault = s.chip.fault ∧
      (s.chip.fault = false → ∀ x, Memory.read t.chip.mem x = Memory.read s.chip.mem x)

/-- 10_state.md R39: the state after reset. -/
def Obligations.ResetValues : Prop :=
  State.reset.st = .idle ∧ State.reset.tpOpen = true ∧ State.reset.resStatus = .noResult ∧ State.reset.resData = [] ∧
  State.reset.srLast = none ∧ State.reset.ready = true ∧ State.reset.busyOut = none ∧ State.reset.welOut = none ∧
  State.reset.chip.fault = false

/-- 60_exceptions.md R190, R182: how an operation can end. No single-transaction operation ends in `BUSY_TIMEOUT`;
`writeEnable`, `readStatusRegister` and `readChipId` never in `INVALID_INPUT`; a sequenced operation's acceptance never
in `BUSY_TIMEOUT` nor `OK`; its later steps never in `INVALID_INPUT`. -/
def Obligations.HowOperationsCanEnd : Prop :=
  (∀ (s t : State) (i : Instr) (o : HostOp) (a : Addr) (count : BitVec 32) (data : List Byte),
    s.st = .idle → hostOperands i = some (o, a, count, data) → exec i s = .next t →
    t.resStatus ≠ .busyTimeout ∧
    ((o = .writeEnable ∨ o = .readStatusRegister ∨ o = .readChipId) → t.resStatus ≠ .invalidInput) ∧
    (t.st = .idle → t.resStatus ≠ .noResult) ∧
    (∀ k, pollClass o = some k → t.resStatus ≠ .ok) ∧
    (t.resStatus ≠ .ok → t.resData = [])) ∧
  (∀ (s t : State), s.st ≠ .idle → inOrder s.events = true → step s = .next t → t.st = .idle →
    t.resStatus = .ok ∨ t.resStatus = .transportError ∨ t.resStatus = .busyTimeout)

/-- 10_state.md R32, 20_memory.md R64: the outputs, and the status byte's fields. -/
def Obligations.OutputsAndStatusByte : Prop :=
  (∀ (s : State), (s.ready = true ↔ s.st = .idle) ∧
    (∀ b, s.srLast = some b → s.busyOut = some (b.getLsbD 0) ∧ s.welOut = some (b.getLsbD 1)) ∧
    (s.srLast = none → s.busyOut = none ∧ s.welOut = none)) ∧
  ∀ (c : Config) (chip : Chip),
    statusByte c chip = (c.srHi.setWidth 8 <<< 2) ||| ((BitVec.ofBool chip.wel).setWidth 8 <<< 1) |||
      (BitVec.ofBool chip.wip).setWidth 8 ∧
    busyBit (statusByte c chip) = chip.wip ∧ welBit (statusByte c chip) = chip.wel

/-! ## Invariants -/

/-- The state after reset meets the invariants. That the chip is idle then, which 10_state.md R40 leaves unspecified, and
that the configuration is `Config.default` is the model's choice (log 4, log 1). -/
def Obligations.ResetMeetsTheInvariant : Prop := Inv State.reset ∧ ChipCalm State.reset

/-- Every step keeps the invariant: the configuration legal, the array canonical and inside `FLASH_SIZE`, an operation in
flight a sequenced one with valid operands, no posted result, an open transport and a count below its bound, and no
data without `OK`. -/
def Obligations.StepKeepsTheInvariant : Prop :=
  ∀ (s t : State), Inv s → step s = .next t → Inv t

/-- In a state that meets the invariant the machine never stops: every step answers a next state. -/
def Obligations.NoStopUnderTheInvariant : Prop :=
  ∀ (s : State), Inv s → ∃ t, step s = .next t

/-- 20_memory.md R75: "unreachable from a launch state with `WIP = 0` as long as no operation ends in `BUSY_TIMEOUT` or
`TRANSPORT_ERROR`": with the chip answering and a host at the command port, a step that does not leave such a result
keeps the chip out of `CHIP_FAULT` and idle but while the controller awaits it. -/
def Obligations.ControllerKeepsTheChipCalm : Prop :=
  ∀ (s t : State), Inv s → ChipCalm s → chipWorld s.st s.events = true → step s = .next t →
    t.resStatus ≠ .busyTimeout → t.resStatus ≠ .transportError → ChipCalm t

/-! ## Whole operations -/

/-- 41_sequencer.md R151: with a finite `MAX_POLLS[c]` an operation in flight is back in IDLE after at most
`1 + MAX_POLLS[c]` more exchanges (`2 + MAX_POLLS[c]` with its `WREN`), whatever the environment answers and whenever the
chip completes, if neither a reset nor a loss of power intervenes. -/
def Obligations.SequencedOperationsTerminate : Prop :=
  ∀ (s : State) (o : HostOp) (k : PollClass) (m : Nat),
    Inv s → s.st ≠ .idle → sequencedOp s.op = some (o, k) → maxPolls s.cfg k = some m →
    (∀ e ∈ s.events, e.isReset = false) →
    ∃ n t, runs n s t ∧ t.st = .idle ∧
      (t.resStatus = .ok ∨ t.resStatus = .transportError ∨ t.resStatus = .busyTimeout) ∧
      t.trace.length ≤ s.trace.length + 1 + m

/-- 41_sequencer.md R151, R146: with `MAX_POLLS[c] = ∞` and an environment that answers busy any number of times, the
operation is still in flight after as many more steps, every one a status read: the hang a model must be able to exhibit.
The count is the natural number of 10_state.md R30; past 2^32 - 1 the hardware's register saturates (log 26). -/
def Obligations.UnboundedPollGoesOnForever : Prop :=
  ∀ (s : State) (o : HostOp) (k : PollClass) (busy : List (List Byte)) (es : List Event),
    (s.st = .cmdIssued ∨ s.st = .polling) → sequencedOp s.op = some (o, k) → maxPolls s.cfg k = none →
    s.tpOpen = true → tooLong s.cfg [s.cfg.opcodes.rdsr, 0x00] = false →
    (∀ r ∈ busy, r.length = 2 ∧ ∃ b, r[1]? = some b ∧ b.getLsbD 0 = true) →
    s.events = busy.map (fun r => .answer (.bytes true r)) ++ es →
    ∃ t, runs busy.length s t ∧ (t.st = .cmdIssued ∨ t.st = .polling) ∧ t.resStatus = s.resStatus ∧
      t.pollCnt = s.pollCnt + busy.length ∧ t.events = es ∧
      t.trace = s.trace ++ busy.map (fun r => ([s.cfg.opcodes.rdsr, 0x00], .ok r))

/-- 41_sequencer.md R154: the bus trace of a sequenced operation. With `j` busy readings before the not-busy one, `j`
below `MAX_POLLS[c]`: `WREN`, the main frame, `RDSR` `j + 1` times, `OK`; with `MAX_POLLS[c]` busy readings:
`BUSY_TIMEOUT`. The responses are any environment's, and `MAX_FRAME` is at least the main frame's length, the longest of
the three. The count is the natural number of 10_state.md R30 (log 26). -/
def Obligations.SequencedTrace : Prop :=
  ∀ (s : State) (i : Instr) (o : HostOp) (a : Addr) (count : BitVec 32) (data : List Byte) (k : PollClass)
    (r0 r1 last : List Byte) (busy : List (List Byte)) (b0 b1 bl : Bool) (es : List Event),
    s.st = .idle → s.tpOpen = true → hostOperands i = some (o, a, count, data) → pollClass o = some k →
    valid s.cfg o a count data = true → tooLong s.cfg (issueFrame s.cfg k a data) = false →
    r0.length = 1 → r1.length = (issueFrame s.cfg k a data).length →
    (∀ r ∈ busy, r.length = 2 ∧ ∃ b, r[1]? = some b ∧ b.getLsbD 0 = true) →
    (last.length = 2 → (∃ b, last[1]? = some b ∧ b.getLsbD 0 = false) →
      (∀ m, maxPolls s.cfg k = some m → busy.length < m) →
      s.events = .present (encode s.cfg i) :: .answer (.bytes b0 r0) :: .answer (.bytes b1 r1) ::
        (busy.map (fun r => .answer (.bytes true r)) ++ .answer (.bytes bl last) :: es) →
      ∃ t, runs (busy.length + 3) s t ∧ t.st = .idle ∧ t.resStatus = .ok ∧ t.resData = [] ∧
        t.pollCnt = busy.length ∧ t.srLast = last[1]? ∧ t.events = es ∧
        t.trace = s.trace ++ ([([s.cfg.opcodes.wren], .ok r0),
            (issueFrame s.cfg k a data, .ok r1)] ++
          busy.map (fun r => ([s.cfg.opcodes.rdsr, 0x00], .ok r)) ++ [([s.cfg.opcodes.rdsr, 0x00], .ok last)])) ∧
    (1 ≤ busy.length → maxPolls s.cfg k = some busy.length →
      s.events = .present (encode s.cfg i) :: .answer (.bytes b0 r0) :: .answer (.bytes b1 r1) ::
        (busy.map (fun r => .answer (.bytes true r)) ++ es) →
      ∃ t, runs (busy.length + 2) s t ∧ t.st = .idle ∧ t.resStatus = .busyTimeout ∧ t.resData = [] ∧
        t.pollCnt = busy.length ∧ t.events = es ∧
        t.trace = s.trace ++ ([([s.cfg.opcodes.wren], .ok r0),
            (issueFrame s.cfg k a data, .ok r1)] ++
          busy.map (fun r => ([s.cfg.opcodes.rdsr, 0x00], .ok r))))

/-- 20_memory.md R84: write, then read, of a payload inside one page: when the target is erased, the bytes read back are
exactly the payload. The chip completes after any number `j` of busy readings below the poll budget. `MAX_FRAME` is at
least the length of the `PROGRAM` frame, which the read's frame has too and no other frame exceeds. -/
def Obligations.WriteReadRoundTrip : Prop :=
  ∀ (s : State) (a : Addr) (p : List Byte) (j : Nat) (w0 w1 w2 w3 : List Byte) (busy : List (List Byte))
    (es : List Event),
    Inv s → s.st = .idle → s.tpOpen = true → s.chip.fault = false → s.chip.wip = false → s.chip.hold = false →
    tooLong s.cfg (frame s.cfg.opcodes.program a (.data p)) = false →
    1 ≤ p.length → p.length < 2 ^ 32 → a.toNat % s.cfg.pageSize + p.length ≤ s.cfg.pageSize →
    a.toNat + p.length ≤ s.cfg.flashSize →
    (∀ x, a.toNat ≤ x → x < a.toNat + p.length → Memory.read s.chip.mem x = 0xFF) →
    busy.length = j → (∀ m, maxPolls s.cfg .program = some m → j < m) →
    s.events = .present (encode s.cfg (.writeBytes a p)) :: .answer (.chip w0) :: .answer (.chip w1) ::
      (busy.map (fun w => .answer (.chip w)) ++ .chipCompletes :: .answer (.chip w2) ::
        .present (encode s.cfg (.readBytes a (BitVec.ofNat 32 p.length))) :: .answer (.chip w3) :: es) →
    ∃ t, runs (j + 5) s t ∧ t.st = .idle ∧ t.resStatus = .ok ∧ t.resData = p ∧ t.events = es ∧
      t.chip.fault = false ∧ t.chip.wip = false ∧ t.chip.wel = false ∧
      ∀ x, (x < a.toNat ∨ a.toNat + p.length ≤ x) → Memory.read t.chip.mem x = Memory.read s.chip.mem x

/-- 20_memory.md R85: erased state, for the four block sizes: every read inside a freshly erased block returns 0xFF
bytes. The chip completes after any number of busy readings below the poll budget, at least one where the hold of R76
stands (log 21). `MAX_FRAME` is at least the length of the read's frame, which no other frame exceeds. -/
def Obligations.ErasedBlockReadsAllOnes : Prop :=
  ∀ (s : State) (k : EraseKind) (a b : Addr) (n : BitVec 32) (w0 w1 w2 w3 : List Byte) (busy : List (List Byte))
    (es : List Event),
    Inv s → s.st = .idle → s.tpOpen = true → s.chip.fault = false → s.chip.wip = false →
    tooLong s.cfg (frame s.cfg.opcodes.read b (.fill n.toNat)) = false →
    a.toNat < s.cfg.flashSize → b.toNat < s.cfg.flashSize → b.toNat + n.toNat ≤ s.cfg.flashSize →
    a.toNat / blockSize s.cfg k * blockSize s.cfg k ≤ b.toNat →
    b.toNat + n.toNat ≤ a.toNat / blockSize s.cfg k * blockSize s.cfg k + blockSize s.cfg k →
    (busy = [] → s.cfg.assumeEraseHold = false ∧ s.chip.hold = false) →
    (∀ m, maxPolls s.cfg (.erase k) = some m → busy.length < m) →
    s.events = .present (encode s.cfg (match k with
          | .sub4K => .erase4K a
          | .sub32K => .erase32K a
          | .sector => .eraseSector a
          | .die => .eraseDie a)) ::
      .answer (.chip w0) :: .answer (.chip w1) ::
      (busy.map (fun w => .answer (.chip w)) ++ .chipCompletes :: .answer (.chip w2) ::
        .present (encode s.cfg (.readBytes b n)) :: .answer (.chip w3) :: es) →
    ∃ t, runs (busy.length + 5) s t ∧ t.st = .idle ∧ t.resStatus = .ok ∧
      t.resData = List.replicate n.toNat 0xFF ∧ t.events = es ∧
      t.chip.fault = false ∧ t.chip.wip = false ∧ t.chip.wel = false ∧
      ∀ x, ¬(a.toNat / blockSize s.cfg k * blockSize s.cfg k ≤ x ∧
          x < a.toNat / blockSize s.cfg k * blockSize s.cfg k + blockSize s.cfg k) →
        Memory.read t.chip.mem x = Memory.read s.chip.mem x

/-- 20_memory.md R62, R70 and R84, R85: the laws behind R86 at the chip: an erase of the block containing `a`, then a
program of `p` inside a page of that block, leaves exactly `p` in the written range and 0xFF in the rest of the block. -/
def Obligations.EraseThenProgramLeavesExactBytes : Prop :=
  ∀ (c : Config) (n0 n1 n2 n3 : Nat) (chip : Chip) (k : EraseKind) (a b : Addr) (p : List Byte),
    c.wf = true → chip.sound c = true → chip.fault = false → chip.wip = false → chip.wel = true →
    a.toNat < c.flashSize → 1 ≤ p.length → b.toNat % c.pageSize + p.length ≤ c.pageSize →
    blockStart (blockSize c k) a.toNat ≤ b.toNat →
    b.toNat + p.length ≤ min (blockStart (blockSize c k) a.toNat + blockSize c k) c.flashSize →
    ∀ (after : Chip),
      after = chipReceive c n3
        (chipReceive c n2
          (chipComplete c n1
            (chipReceive c n1 (chipReceive c n0 chip (frame (eraseOpcode c k) a (.fill 0))) (frame0 c.opcodes.rdsr 1)))
          (frame0 c.opcodes.wren 0))
        (frame c.opcodes.program b (.data p)) →
      after.fault = false ∧
      ∀ x, blockStart (blockSize c k) a.toNat ≤ x →
        x < min (blockStart (blockSize c k) a.toNat + blockSize c k) c.flashSize →
        Memory.read after.mem x =
          if b.toNat ≤ x ∧ x < b.toNat + p.length then p.getD (x - b.toNat) 0 else 0xFF

/-- 30_encoding.md R108 (a): the host-side split of a span: every chunk is a valid `writeBytes`, the chunks follow each
other without a gap, and their payloads joined are the span's. -/
def Obligations.SplitWriteChunksAreValid : Prop :=
  ∀ (c : Config) (a : Addr) (p : List Byte),
    c.wf = true → a.toNat + p.length ≤ c.flashSize →
    (∀ i ∈ splitWrite c a p, ∃ b q, i = .writeBytes b q ∧ valid c .writeBytes b 0 q = true) ∧
    ((writeChunks c.pageSize p.length a.toNat p).map Prod.snd).flatten = p ∧
    ∀ x d, (x, d) ∈ writeChunks c.pageSize p.length a.toNat p →
      a.toNat ≤ x ∧ x + d.length ≤ a.toNat + p.length ∧ d = (p.drop (x - a.toNat)).take d.length
end

