-- ==== Sys2Proof/Laws/Decode.lean ====
section
/-! SUPPORT. The frame encoder, the codes of the host operations, and what a legal configuration says of the opcodes. -/

namespace Sys2Proof

/-- The address bytes of a frame read back as the address (30_encoding.md R93). -/
theorem addrOfBytes_extract (a : Addr) :
    addrOfBytes (a.extractLsb' 24 8) (a.extractLsb' 16 8) (a.extractLsb' 8 8) (a.extractLsb' 0 8) = a := by
  apply BitVec.eq_of_getLsbD_eq
  intro i hi
  simp only [addrOfBytes, BitVec.getLsbD_append, BitVec.getLsbD_extractLsb']
  rcases Nat.lt_or_ge i 8 with h | h
  · simp [h]
  · rcases Nat.lt_or_ge i 16 with h2 | h2
    · simp [Nat.not_lt.mpr h, show i - 8 < 8 by omega, show 8 + (i - 8) = i by omega]
    · rcases Nat.lt_or_ge i 24 with h3 | h3
      · simp [Nat.not_lt.mpr h, show ¬ i - 8 < 8 by omega, show i - 8 - 8 < 8 by omega,
          show 16 + (i - 8 - 8) = i by omega]
      · simp [Nat.not_lt.mpr h, show ¬ i - 8 < 8 by omega, show ¬ i - 8 - 8 < 8 by omega,
          show i - 8 - 8 - 8 < 8 by omega, show 24 + (i - 8 - 8 - 8) = i by omega]

/-- An addressed frame byte by byte (30_encoding.md R91). -/
theorem frame_eq (op : Byte) (a : Addr) (pl : Payload) :
    frame op a pl = op :: a.extractLsb' 24 8 :: a.extractLsb' 16 8 :: a.extractLsb' 8 8 :: a.extractLsb' 0 8 ::
      pl.bytes := rfl

@[simp] theorem frame_length (op : Byte) (a : Addr) (pl : Payload) :
    (frame op a pl).length = 5 + pl.bytes.length := by
  rw [frame_eq]; simp only [List.length_cons]; omega

@[simp] theorem frame0_length (op : Byte) (n : Nat) : (frame0 op n).length = 1 + n := by
  simp [frame0, Nat.add_comm]

@[simp] theorem fill_length (n : Nat) : (Payload.fill n).bytes.length = n := by simp [Payload.bytes]

@[simp] theorem fill_zero : (Payload.fill 0).bytes = [] := rfl

@[simp] theorem data_bytes (d : List Byte) : (Payload.data d).bytes = d := rfl

@[simp] theorem ofCode_code (o : HostOp) : HostOp.ofCode o.code = some o := by cases o <;> rfl

/-- A code that stands for an operation is that operation's code (30_encoding.md R104). -/
theorem code_of_ofCode {b : BitVec 4} {o : HostOp} (h : HostOp.ofCode b = some o) : b = o.code := by
  revert h; revert b; cases o <;> decide

/-- The nine opcode bytes are pairwise distinct (00_scope.md R7). -/
theorem opcodes_nodup {c : Config} (h : c.wf = true) : c.opcodes.all.Nodup := by
  simp only [Config.wf, Bool.and_eq_true, decide_eq_true_eq] at h
  exact h.1.1.1.1.1.1.1.1.1.1.1.1.1

/-- No opcode byte is one of those the decoders look for before it (00_scope.md R7, 30_encoding.md R96). -/
theorem opcodes_ne {c : Config} (h : c.wf = true) :
    ¬ c.opcodes.program = c.opcodes.read ∧ ¬ c.opcodes.wren = c.opcodes.read ∧
    ¬ c.opcodes.wren = c.opcodes.program ∧ ¬ c.opcodes.erase4K = c.opcodes.read ∧
    ¬ c.opcodes.erase4K = c.opcodes.program ∧ ¬ c.opcodes.erase4K = c.opcodes.wren ∧
    ¬ c.opcodes.erase32K = c.opcodes.read ∧ ¬ c.opcodes.erase32K = c.opcodes.program ∧
    ¬ c.opcodes.erase32K = c.opcodes.wren ∧ ¬ c.opcodes.erase32K = c.opcodes.erase4K ∧
    ¬ c.opcodes.eraseSector = c.opcodes.read ∧ ¬ c.opcodes.eraseSector = c.opcodes.program ∧
    ¬ c.opcodes.eraseSector = c.opcodes.wren ∧ ¬ c.opcodes.eraseSector = c.opcodes.erase4K ∧
    ¬ c.opcodes.eraseSector = c.opcodes.erase32K ∧ ¬ c.opcodes.eraseDie = c.opcodes.read ∧
    ¬ c.opcodes.eraseDie = c.opcodes.program ∧ ¬ c.opcodes.eraseDie = c.opcodes.wren ∧
    ¬ c.opcodes.eraseDie = c.opcodes.erase4K ∧ ¬ c.opcodes.eraseDie = c.opcodes.erase32K ∧
    ¬ c.opcodes.eraseDie = c.opcodes.eraseSector ∧ ¬ c.opcodes.rdsr = c.opcodes.read ∧
    ¬ c.opcodes.rdsr = c.opcodes.program ∧ ¬ c.opcodes.rdsr = c.opcodes.wren ∧
    ¬ c.opcodes.rdsr = c.opcodes.erase4K ∧ ¬ c.opcodes.rdsr = c.opcodes.erase32K ∧
    ¬ c.opcodes.rdsr = c.opcodes.eraseSector ∧ ¬ c.opcodes.rdsr = c.opcodes.eraseDie ∧
    ¬ c.opcodes.rdid = c.opcodes.read ∧ ¬ c.opcodes.rdid = c.opcodes.program ∧ ¬ c.opcodes.rdid = c.opcodes.wren ∧
    ¬ c.opcodes.rdid = c.opcodes.erase4K ∧ ¬ c.opcodes.rdid = c.opcodes.erase32K ∧
    ¬ c.opcodes.rdid = c.opcodes.eraseSector ∧ ¬ c.opcodes.rdid = c.opcodes.eraseDie ∧
    ¬ c.opcodes.rdid = c.opcodes.rdsr := by
  have := opcodes_nodup h
  simp only [Opcodes.all, List.nodup_cons, List.mem_cons, not_or, List.not_mem_nil, not_false_eq_true] at this
  and_intros <;> intro he <;> simp [he] at this

/-- A page has at least one byte (00_scope.md R7). -/
theorem pageSize_pos {c : Config} (h : c.wf = true) : 1 ≤ c.pageSize := by
  simp only [Config.wf, Bool.and_eq_true, decide_eq_true_eq] at h
  exact h.1.1.1.1.1.1.1.1.1.1.1.1.2

/-- `1 <= FLASH_SIZE <= 2^32` (00_scope.md R7). -/
theorem flashSize_bounds {c : Config} (h : c.wf = true) : 1 ≤ c.flashSize ∧ c.flashSize ≤ 2 ^ 32 := by
  simp only [Config.wf, Bool.and_eq_true, decide_eq_true_eq] at h
  exact ⟨h.1.1.1.1.1.1.1.1.1.1.1.2, h.1.1.1.1.1.1.1.1.1.1.2⟩

/-- `ID_LEN >= 1`, and `CHIP_ID` has `ID_LEN` bytes (00_scope.md R7). -/
theorem idLen_facts {c : Config} (h : c.wf = true) : 1 ≤ c.idLen ∧ c.chipId.length = c.idLen := by
  simp only [Config.wf, Bool.and_eq_true, decide_eq_true_eq] at h
  exact ⟨h.1.1.1.1.1.1.1.2, h.2⟩

end Sys2Proof
end

