-- ==== Sys2Proof/Laws/Memory.lean ====
section
/-! SUPPORT. The array: every operation keeps the canonical form and the bound, what each reads as afterwards, and that
a canonical array is determined by what it reads as. -/

namespace Sys2Proof.Machine

/-! ## The canonical form -/

theorem wfFrom_mono {lo lo' : Nat} (h : lo' ≤ lo) {m : Memory} (hm : Memory.wfFrom lo m = true) :
    Memory.wfFrom lo' m = true := by
  cases m with
  | nil => rfl
  | cons c m =>
    simp only [Memory.wfFrom, Bool.and_eq_true, decide_eq_true_eq] at hm ⊢
    exact ⟨⟨by omega, hm.1.2⟩, hm.2⟩

/-- Below its first address a canonical array lists nothing. -/
theorem read_lt_wfFrom {m : Memory} {lo a : Nat} (hm : Memory.wfFrom lo m = true) (h : a < lo) :
    Memory.read m a = erasedByte := by
  induction m generalizing lo with
  | nil => rfl
  | cons c m ih =>
    obtain ⟨b, w⟩ := c
    simp only [Memory.wfFrom, Bool.and_eq_true, decide_eq_true_eq] at hm
    rw [Memory.read, if_neg (by omega)]
    exact ih hm.2 (by omega)

theorem wfFrom_write {m : Memory} {lo a : Nat} (v : Byte) (hm : Memory.wfFrom lo m = true) (h : lo ≤ a) :
    Memory.wfFrom lo (Memory.write m a v) = true := by
  induction m generalizing lo with
  | nil => by_cases hv : v = erasedByte <;> simp [Memory.write, Memory.wfFrom, hv, h]
  | cons c m ih =>
    obtain ⟨b, w⟩ := c
    simp only [Memory.wfFrom, Bool.and_eq_true, decide_eq_true_eq] at hm
    obtain ⟨⟨hb, hw⟩, hrest⟩ := hm
    unfold Memory.write
    split
    · split
      · simp [Memory.wfFrom, hb, hw, hrest]
      · rename_i hlt hv
        simp [Memory.wfFrom, h, hv, hw, hrest]; omega
    · split
      · rename_i hab
        subst hab
        split
        · exact wfFrom_mono (by omega) hrest
        · rename_i hv
          simp [Memory.wfFrom, h, hv, hrest]
      · simp only [Memory.wfFrom, Bool.and_eq_true, decide_eq_true_eq]
        exact ⟨⟨hb, hw⟩, ih hrest (by omega)⟩

theorem wf_write {m : Memory} (a : Nat) (v : Byte) (hm : Memory.wf m = true) :
    Memory.wf (Memory.write m a v) = true := wfFrom_write v hm (Nat.zero_le a)

theorem wfFrom_filter {m : Memory} {lo : Nat} (p : Host.Cell → Bool) (hm : Memory.wfFrom lo m = true) :
    Memory.wfFrom lo (m.filter p) = true := by
  induction m generalizing lo with
  | nil => rfl
  | cons c m ih =>
    obtain ⟨b, w⟩ := c
    simp only [Memory.wfFrom, Bool.and_eq_true, decide_eq_true_eq] at hm
    rw [List.filter_cons]
    split
    · simp only [Memory.wfFrom, Bool.and_eq_true, decide_eq_true_eq]
      exact ⟨hm.1, ih hm.2⟩
    · exact ih (wfFrom_mono (by omega) hm.2)

theorem wf_eraseRange {m : Memory} (lo hi : Nat) (hm : Memory.wf m = true) :
    Memory.wf (Memory.eraseRange m lo hi) = true := wfFrom_filter _ hm

theorem wf_ofCells (bound : Nat) (cells : List Host.Cell) : Memory.wf (Memory.ofCells bound cells) = true := by
  induction cells with
  | nil => rfl
  | cons c cells ih =>
    unfold Memory.ofCells
    split
    · exact wf_write _ _ ih
    · exact ih

/-! ## The bound -/

/-- A write lists nothing but the cell it writes and what was listed. -/
theorem mem_write {m : Memory} {a : Nat} {v : Byte} {c : Host.Cell} (h : c ∈ Memory.write m a v) :
    c = (a, v) ∨ c ∈ m := by
  induction m with
  | nil =>
    unfold Memory.write at h
    split at h
    · exact absurd h List.not_mem_nil
    · exact .inl (List.mem_singleton.mp h)
  | cons d m ih =>
    obtain ⟨b, w⟩ := d
    unfold Memory.write at h
    split at h
    · split at h
      · exact .inr h
      · exact List.mem_cons.mp h
    · split at h
      · split at h
        · exact .inr (List.mem_cons_of_mem _ h)
        · exact (List.mem_cons.mp h).imp id (List.mem_cons_of_mem _)
      · rcases List.mem_cons.mp h with h | h
        · exact .inr (h ▸ List.mem_cons_self)
        · exact (ih h).imp id (List.mem_cons_of_mem _)

theorem below_write {m : Memory} {bound a : Nat} (v : Byte) (hm : Memory.below bound m = true) (h : a < bound) :
    Memory.below bound (Memory.write m a v) = true := by
  simp only [Memory.below, List.all_eq_true, decide_eq_true_eq] at hm ⊢
  intro c hc
  rcases mem_write hc with rfl | hc
  · exact h
  · exact hm c hc

theorem below_eraseRange {m : Memory} {bound : Nat} (lo hi : Nat) (hm : Memory.below bound m = true) :
    Memory.below bound (Memory.eraseRange m lo hi) = true := by
  simp only [Memory.below, Memory.eraseRange, List.all_eq_true, List.mem_filter] at hm ⊢
  exact fun c hc => hm c hc.1

theorem below_ofCells (bound : Nat) (cells : List Host.Cell) :
    Memory.below bound (Memory.ofCells bound cells) = true := by
  induction cells with
  | nil => rfl
  | cons c cells ih =>
    unfold Memory.ofCells
    split
    · exact below_write _ ih ‹_›
    · exact ih

/-! ## What is read -/

/-- A read after a write gives the value written at its address and the old byte everywhere else. -/
theorem read_write {m : Memory} (hm : Memory.wf m = true) (a v a') :
    Memory.read (Memory.write m a v) a' = if a' = a then v else Memory.read m a' := by
  unfold Memory.wf at hm
  revert hm
  generalize 0 = lo
  intro hm
  induction m generalizing lo with
  | nil =>
    by_cases hv : v = erasedByte <;> by_cases h : a' = a <;> simp [Memory.write, Memory.read, hv, h]
  | cons c m ih =>
    obtain ⟨b, w⟩ := c
    simp only [Memory.wfFrom, Bool.and_eq_true, decide_eq_true_eq] at hm
    have hlow : ∀ x, x < b + 1 → Memory.read m x = erasedByte := fun x hx => read_lt_wfFrom hm.2 hx
    unfold Memory.write
    split
    · rename_i hab
      have ha : Memory.read m a = erasedByte := hlow a (by omega)
      split
      · by_cases h : a' = a
        · subst h; rw [if_pos rfl, Memory.read, if_neg (by omega), ha]; simp_all
        · simp [h]
      · by_cases h : a' = a <;> simp [Memory.read, h]
    · split
      · rename_i hab
        subst hab
        split
        · by_cases h : a' = a
          · subst h; simp_all
          · simp [Memory.read, h]
        · by_cases h : a' = a <;> simp [Memory.read, h]
      · rename_i hab hne
        have := ih (b + 1) hm.2
        by_cases h : a' = b
        · subst h; simp [Memory.read, Ne.symm hne]
        · simp [Memory.read, h, this]

theorem read_eraseRange (m : Memory) (lo hi a : Nat) :
    Memory.read (Memory.eraseRange m lo hi) a =
      if lo ≤ a ∧ a < hi then erasedByte else Memory.read m a := by
  induction m with
  | nil => simp [Memory.eraseRange, Memory.read]
  | cons c m ih =>
    obtain ⟨b, w⟩ := c
    have hcons : Memory.eraseRange ((b, w) :: m) lo hi =
        if lo ≤ b ∧ b < hi then Memory.eraseRange m lo hi else (b, w) :: Memory.eraseRange m lo hi := by
      unfold Memory.eraseRange
      by_cases h : lo ≤ b ∧ b < hi
      · simp [h]
      · rw [if_neg h, List.filter_cons_of_pos (by simp; omega)]
    rw [hcons]
    by_cases hab : a = b
    · subst hab
      split <;> rename_i h
      · rw [ih, if_pos h]
      · simp [Memory.read]
    · split
      · rw [ih, Memory.read, if_neg hab]
      · rw [Memory.read, if_neg hab, ih, Memory.read, if_neg hab]

@[simp] theorem readRange_length (m : Memory) (a n : Nat) : (Memory.readRange m a n).length = n := by
  induction n generalizing a with
  | zero => rfl
  | succ n ih => simp [Memory.readRange, ih]

/-- `MemRead(A, n)[i] = MEM[A + i]` (20_memory.md R52). -/
theorem readRange_getElem? (m : Memory) (a n i : Nat) (h : i < n) :
    (Memory.readRange m a n)[i]? = some (Memory.read m (a + i)) := by
  induction n generalizing a i with
  | zero => omega
  | succ n ih =>
    cases i with
    | zero => simp [Memory.readRange]
    | succ i =>
      simp only [Memory.readRange, List.getElem?_cons_succ]
      rw [ih (a + 1) i (by omega)]
      congr 2; omega

/-- Ranges that read the same byte by byte read the same. -/
theorem readRange_congr {m m' : Memory} {a n : Nat} (h : ∀ x, a ≤ x → x < a + n → Memory.read m x = Memory.read m' x) :
    Memory.readRange m a n = Memory.readRange m' a n := by
  induction n generalizing a with
  | zero => rfl
  | succ n ih =>
    simp only [Memory.readRange]
    rw [h a (by omega) (by omega), ih (fun x h1 h2 => h x (by omega) (by omega))]

theorem readRange_add (m : Memory) (a n k : Nat) :
    Memory.readRange m a (n + k) = Memory.readRange m a n ++ Memory.readRange m (a + n) k := by
  induction n generalizing a with
  | zero => simp [Memory.readRange]
  | succ n ih =>
    rw [Nat.succ_add]
    simp only [Memory.readRange, List.cons_append]
    rw [ih (a + 1)]
    congr 3; omega

/-- A canonical array is determined by what it reads as. -/
theorem memory_ext {m m' : Memory} (hm : Memory.wf m = true) (hm' : Memory.wf m' = true)
    (h : ∀ a, Memory.read m a = Memory.read m' a) : m = m' := by
  unfold Memory.wf at hm hm'
  revert hm hm'
  generalize 0 = lo
  intro hm hm'
  induction m generalizing lo m' with
  | nil =>
    cases m' with
    | nil => rfl
    | cons c m' =>
      obtain ⟨b, w⟩ := c
      simp only [Memory.wfFrom, Bool.and_eq_true, decide_eq_true_eq] at hm'
      have := h b
      simp only [Memory.read, if_true] at this
      exact absurd this.symm hm'.1.2
  | cons c m ih =>
    obtain ⟨b, w⟩ := c
    simp only [Memory.wfFrom, Bool.and_eq_true, decide_eq_true_eq] at hm
    cases m' with
    | nil =>
      have := h b
      simp only [Memory.read, if_true] at this
      exact absurd this hm.1.2
    | cons c' m' =>
      obtain ⟨b', w'⟩ := c'
      simp only [Memory.wfFrom, Bool.and_eq_true, decide_eq_true_eq] at hm'
      have hb : b = b' := by
        rcases Nat.lt_trichotomy b b' with hlt | heq | hlt
        · have hx := h b
          rw [Memory.read, if_pos rfl, Memory.read, if_neg (by omega), read_lt_wfFrom hm'.2 (by omega)] at hx
          exact absurd hx hm.1.2
        · exact heq
        · have hx := h b'
          rw [Memory.read, if_neg (by omega), read_lt_wfFrom hm.2 (by omega), Memory.read, if_pos rfl] at hx
          exact absurd hx.symm hm'.1.2
      subst hb
      have hw := h b
      simp only [Memory.read, if_true] at hw
      subst hw
      congr 1
      refine ih (fun a => ?_) (b + 1) hm.2 hm'.2
      by_cases hab : a = b
      · subst hab; rw [read_lt_wfFrom hm.2 (by omega), read_lt_wfFrom hm'.2 (by omega)]
      · have := h a
        rwa [Memory.read, if_neg hab, Memory.read, if_neg hab] at this

end Sys2Proof.Machine
end

