-- ==== Sys2Proof/Laws/Chip.lean ====
section
/-! SUPPORT. The chip model: what each of the nine frames is at the chip, the length of a response, the bytes a program
leaves, and that no frame and no completion breaks the array's canonical form. -/

namespace Sys2Proof.Machine

variable {c : Config}

/-! ## What the controller's frames are at the chip (20_memory.md R66 to R72) -/

theorem chipCommand_read (c : Config) (a : Addr) (pl : Payload) :
    chipCommand c (frame c.opcodes.read a pl) = .read a pl.bytes.length := by
  simp [frame_eq, chipCommand, chipAddressed, addrOfBytes_extract]

section Commands
variable (h : c.wf = true) (a : Addr)
include h

theorem chipCommand_wren : chipCommand c (frame0 c.opcodes.wren 0) = .wren := by
  simp [chipCommand, frame0, opcodes_ne h]

theorem chipCommand_rdsr : chipCommand c (frame0 c.opcodes.rdsr 1) = .rdsr 1 := by
  simp [chipCommand, frame0, opcodes_ne h]

theorem chipCommand_rdid : chipCommand c (frame0 c.opcodes.rdid c.idLen) = .rdid c.idLen := by
  have := (idLen_facts h).1
  simp [chipCommand, frame0, opcodes_ne h, show c.idLen ≠ 0 by omega]

theorem chipCommand_program (d : List Byte) :
    chipCommand c (frame c.opcodes.program a (.data d)) = .program a d := by
  simp [frame_eq, chipCommand, chipAddressed, addrOfBytes_extract, opcodes_ne h]

theorem chipCommand_erase (k : EraseKind) :
    chipCommand c (frame (eraseOpcode c k) a (.fill 0)) = .erase k a := by
  cases k <;>
    simp [frame_eq, chipCommand, chipAddressed, chipErase, addrOfBytes_extract, eraseOpcode, opcodes_ne h]

end Commands

/-! ## Responses -/

@[simp] theorem drawBytes_length (junk : List Byte) (n i k : Nat) : (drawBytes junk n i k).length = k := by
  induction k generalizing i with
  | zero => rfl
  | succ k ih => simp [drawBytes, ih]

@[simp] theorem idBytes_length (junk : List Byte) (n k : Nat) : (idBytes c junk n k).length = k := by
  simp only [idBytes, List.length_append, drawBytes_length, List.length_take]
  omega

/-- A frame the chip reads as a read, a status read or an identification has the length of its response. -/
theorem commandResponse_length (junk : List Byte) (n : Nat) (chip : Chip) (f : List Byte) :
    (commandResponse c junk n chip f.length (chipCommand c f)).length = f.length := by
  unfold chipCommand
  split
  · simp [commandResponse]
  · rename_i op rest
    unfold chipAddressed chipErase
    repeat' split
    all_goals simp_all [commandResponse, Nat.add_comm]
    all_goals omega

/-- "`len(r) = len(f)`" (20_memory.md R65, 40_framer.md R127). -/
@[simp] theorem chipRespond_length (junk : List Byte) (n : Nat) (chip : Chip) (f : List Byte) :
    (chipRespond c junk n chip f).length = f.length := by
  unfold chipRespond
  split
  · simp
  · exact commandResponse_length junk n chip f

/-! ## The program loop (20_memory.md R68) -/

/-- Inside the page there is no wrap: `t = A + i`. -/
theorem programTarget_eq {page a i : Nat} (h : a % page + i < page) : programTarget page a i = a + i := by
  unfold programTarget
  rw [Nat.mod_eq_of_lt h, Nat.mul_comm]
  have := Nat.div_add_mod a page
  omega

theorem wf_programBytes (rule : CellRule) (page a : Nat) (d : List Byte) (i : Nat) {m : Memory}
    (hm : Memory.wf m = true) : Memory.wf (programBytes rule page a d i m) = true := by
  induction d generalizing i m with
  | nil => exact hm
  | cons b d ih => exact ih _ (wf_write _ _ hm)

/-- A program within its page leaves `PROGRAM_CELL(MEM[A + i], d[i])` at `A + i` and every other byte as it was. -/
theorem read_programBytes (rule : CellRule) (page a : Nat) (d : List Byte) (i : Nat) {m : Memory}
    (hm : Memory.wf m = true) (hp : a % page + (i + d.length) ≤ page) (x : Nat) :
    Memory.read (programBytes rule page a d i m) x =
      if a + i ≤ x ∧ x < a + i + d.length then programCell rule (Memory.read m x) (d.getD (x - (a + i)) 0)
      else Memory.read m x := by
  induction d generalizing i m with
  | nil => simp only [programBytes, List.length_nil]; rw [if_neg (by omega)]
  | cons b d ih =>
    simp only [List.length_cons] at hp ⊢
    have ht : programTarget page a i = a + i := programTarget_eq (by omega)
    rw [programBytes, ht, ih (i + 1) (wf_write _ _ hm) (by omega), read_write hm]
    by_cases hx : x = a + i
    · subst hx
      rw [if_neg (by omega), if_pos rfl, if_pos (by omega)]
      simp
    · by_cases hin : a + (i + 1) ≤ x ∧ x < a + (i + 1) + d.length
      · rw [if_pos hin, if_neg hx, if_pos (by omega)]
        congr 1
        rw [show x - (a + i) = (x - (a + (i + 1))) + 1 by omega, List.getD_cons_succ]
      · rw [if_neg hin, if_neg hx, if_neg (by omega)]

/-- A byte no payload byte lands on keeps its value, wrap or not. -/
theorem read_programBytes_other (rule : CellRule) (page a : Nat) (d : List Byte) (i : Nat) {m : Memory}
    (hm : Memory.wf m = true) (x : Nat) (hx : ∀ j, j < d.length → x ≠ programTarget page a (i + j)) :
    Memory.read (programBytes rule page a d i m) x = Memory.read m x := by
  induction d generalizing i m with
  | nil => rfl
  | cons b d ih =>
    rw [programBytes, ih (i + 1) (wf_write _ _ hm)]
    · rw [read_write hm, if_neg]
      exact hx 0 (by simp)
    · intro j hj
      have := hx (j + 1) (by simp; omega)
      rwa [show i + (j + 1) = i + 1 + j by omega] at this

theorem below_programBytes (rule : CellRule) {page a bound : Nat} (d : List Byte) (i : Nat) {m : Memory}
    (hm : Memory.below bound m = true) (ht : ∀ j, j < d.length → programTarget page a (i + j) < bound) :
    Memory.below bound (programBytes rule page a d i m) = true := by
  induction d generalizing i m with
  | nil => exact hm
  | cons b d ih =>
    refine ih (i + 1) (below_write _ hm (ht 0 (by simp))) fun j hj => ?_
    have := ht (j + 1) (by simp; omega)
    rwa [show i + (j + 1) = i + 1 + j by omega] at this

/-- Every byte of a program lies below `programEnd`. -/
theorem programTarget_lt_end {page a n i : Nat} (hp : 1 ≤ page) (hi : i < n) :
    programTarget page a i < programEnd page a n := by
  unfold programEnd
  split
  · rename_i h
    rw [programTarget_eq (by omega)]; omega
  · unfold programTarget
    have := Nat.mod_lt (a % page + i) hp
    omega

/-- A program inside its page ends with its last byte. -/
theorem programEnd_inside {page a n : Nat} (h : a % page + n ≤ page) : programEnd page a n = a + n := by
  simp [programEnd, h]

/-! ## Which frames fault -/

/-- At a chip that is not busy a frame faults only by its command (20_memory.md R66). -/
theorem frameFaults_idle {chip : Chip} {f : List Byte} (hw : chip.wip = false)
    (h : commandFaults c chip (chipCommand c f) = false) : frameFaults c chip f = false := by
  simp [frameFaults, hw, h]

/-- A program inside its page and the array does not fault (20_memory.md R68). -/
theorem commandFaults_program {chip : Chip} {a : Addr} {d : List Byte} (h1 : 1 ≤ d.length)
    (h2 : a.toNat % c.pageSize + d.length ≤ c.pageSize) (h3 : a.toNat + d.length ≤ c.flashSize) :
    commandFaults c chip (.program a d) = false := by
  have hd : d ≠ [] := by rintro rfl; simp at h1
  simp only [commandFaults, programEnd_inside h2, Bool.and_eq_false_imp, Bool.or_eq_false_iff,
    decide_eq_false_iff_not, List.isEmpty_eq_false_iff]
  exact fun _ => ⟨⟨⟨hd, by omega⟩, by omega⟩, by omega⟩

/-- An erase inside the array does not fault (20_memory.md R70). -/
theorem commandFaults_erase {chip : Chip} {k : EraseKind} {a : Addr} (h : a.toNat < c.flashSize) :
    commandFaults c chip (.erase k a) = false := by
  simp [commandFaults, h]

/-- `RDSR` is legal busy or not (20_memory.md R71). -/
theorem frameFaults_rdsr (h : c.wf = true) (chip : Chip) : frameFaults c chip (frame0 c.opcodes.rdsr 1) = false := by
  unfold frameFaults
  rw [chipCommand_rdsr h]
  simp [commandFaults, frame0]

/-! ## The status byte (20_memory.md R64) -/

theorem statusByte_fields (c : Config) (chip : Chip) :
    statusByte c chip = (c.srHi ++ BitVec.ofBool chip.wel ++ BitVec.ofBool chip.wip : BitVec 8) ∧
    (statusByte c chip).getLsbD 0 = chip.wip ∧ (statusByte c chip).getLsbD 1 = chip.wel ∧
    (statusByte c chip).extractLsb' 2 6 = c.srHi := by
  unfold statusByte
  generalize c.srHi = h
  cases chip.wel <;> cases chip.wip <;> revert h <;> decide

/-! ## The array stays sound -/

theorem faultedChip_sound (n : Nat) : (faultedChip c n).sound c = true := by
  simp [Chip.sound, faultedChip, wf_ofCells, below_ofCells]

/-- A command that does not fault keeps the array sound. -/
theorem commandEffect_sound (hc : c.wf = true) {chip : Chip} (cmd : ChipCommand) (h : chip.sound c = true)
    (hf : commandFaults c chip cmd = false) : (commandEffect c chip cmd).sound c = true := by
  have hs := h
  simp only [Chip.sound, Bool.and_eq_true] at hs
  cases cmd with
  | program a d =>
    simp only [commandEffect]
    split
    · rename_i hw
      simp only [commandFaults, hw, Bool.true_and, Bool.or_eq_false_iff, decide_eq_false_iff_not, Nat.not_lt] at hf
      simp only [Chip.sound, Bool.and_eq_true]
      refine ⟨wf_programBytes _ _ _ _ _ hs.1, below_programBytes _ _ _ hs.2 fun j hj => ?_⟩
      rw [Nat.zero_add]
      exact Nat.lt_of_lt_of_le (programTarget_lt_end (pageSize_pos hc) hj) hf.2
    · exact h
  | erase k a =>
    simp only [commandEffect]
    split
    · simp only [Chip.sound, Bool.and_eq_true]
      exact ⟨wf_eraseRange _ _ hs.1, below_eraseRange _ _ hs.2⟩
    · exact h
  | wren => exact h
  | read a n => exact h
  | rdsr n => exact h
  | rdid n => exact h
  | other => exact h

theorem chipReceive_sound (hc : c.wf = true) (n : Nat) {chip : Chip} (f : List Byte) (h : chip.sound c = true) :
    (chipReceive c n chip f).sound c = true := by
  unfold chipReceive
  split
  · exact faultedChip_sound n
  · rename_i hf
    simp only [frameFaults, Bool.or_eq_true, not_or, Bool.not_eq_true] at hf
    exact commandEffect_sound hc _ h hf.2.2

theorem chipComplete_sound (n : Nat) {chip : Chip} (h : chip.sound c = true) :
    (chipComplete c n chip).sound c = true := by
  unfold chipComplete
  split
  · exact faultedChip_sound n
  · split
    · exact h
    · exact h

theorem chipPowerLoss_sound (n : Nat) {chip : Chip} (h : chip.sound c = true) :
    (chipPowerLoss c n chip).sound c = true := by
  unfold chipPowerLoss
  split
  · exact faultedChip_sound n
  · exact h

/-- A loss of power leaves `CHIP_FAULT` and, while it is 0, the array as they are (60_exceptions.md R204). -/
theorem chipPowerLoss_keeps (c : Config) (n : Nat) (chip : Chip) :
    (chipPowerLoss c n chip).fault = chip.fault ∧ (chip.fault = false → (chipPowerLoss c n chip).mem = chip.mem) := by
  unfold chipPowerLoss
  cases chip.fault <;> simp [faultedChip]

end Sys2Proof.Machine
end

