-- ==== Sys2Proof/Laws/PerInstr.lean ====
section
/-! SUPPORT. Per instruction: the form its words have. A wire command's frame begins with one of the nine opcodes and is
at least as long as the shortest frame of its format (30_encoding.md R90, R96); a host operation's descriptor is not
malformed (30_encoding.md R104, R105). -/

namespace Sys2Proof.Laws.Format

/-- The words of an instruction have the form of its row. -/
def Statement (i : Instr) : Prop :=
  ∀ c : Config, c.wf = true → i.wf c = true →
    match encode c i with
    | .wire f => ∃ op, f.head? = some op ∧ op ∈ c.opcodes.all ∧ minFrameLength c op ≤ f.length
    | .host h => Machine.malformed h = false

/-- The shortest frame of each opcode. -/
theorem minFrameLength_eq {c : Config} (hc : c.wf = true) :
    minFrameLength c c.opcodes.wren = 1 ∧ minFrameLength c c.opcodes.rdsr = 2 ∧
    minFrameLength c c.opcodes.rdid = 1 + c.idLen ∧ minFrameLength c c.opcodes.program = 6 ∧
    minFrameLength c c.opcodes.read = 5 ∧ minFrameLength c c.opcodes.erase4K = 5 ∧
    minFrameLength c c.opcodes.erase32K = 5 ∧ minFrameLength c c.opcodes.eraseSector = 5 ∧
    minFrameLength c c.opcodes.eraseDie = 5 := by
  have hn := opcodes_ne hc
  simp only [minFrameLength]
  and_intros <;> repeat' split
  all_goals first | rfl | (exfalso; simp_all; done)

theorem wireRead (a : Addr) (n : Nat) : Statement (.wireRead a n) := by
  intro c hc hi
  exact ⟨_, rfl, by simp [Opcodes.all], by simp [minFrameLength_eq hc]⟩

theorem wireProgram (a : Addr) (d : List Byte) : Statement (.wireProgram a d) := by
  intro c hc hi
  simp only [Instr.wf, Bool.and_eq_true, decide_eq_true_eq] at hi
  refine ⟨_, rfl, by simp [Opcodes.all], ?_⟩
  simp [minFrameLength_eq hc]
  omega

theorem wireWren : Statement .wireWren := by
  intro c hc hi
  exact ⟨_, rfl, by simp [Opcodes.all], by simp [minFrameLength_eq hc]⟩

theorem wireErase4K (a : Addr) : Statement (.wireErase4K a) := by
  intro c hc hi
  exact ⟨_, rfl, by simp [Opcodes.all], by simp [minFrameLength_eq hc]⟩

theorem wireErase32K (a : Addr) : Statement (.wireErase32K a) := by
  intro c hc hi
  exact ⟨_, rfl, by simp [Opcodes.all], by simp [minFrameLength_eq hc]⟩

theorem wireEraseSector (a : Addr) : Statement (.wireEraseSector a) := by
  intro c hc hi
  exact ⟨_, rfl, by simp [Opcodes.all], by simp [minFrameLength_eq hc]⟩

theorem wireEraseDie (a : Addr) : Statement (.wireEraseDie a) := by
  intro c hc hi
  exact ⟨_, rfl, by simp [Opcodes.all], by simp [minFrameLength_eq hc]⟩

theorem wireRdsr : Statement .wireRdsr := by
  intro c hc hi
  exact ⟨_, rfl, by simp [Opcodes.all], by simp [minFrameLength_eq hc]⟩

theorem wireRdid : Statement .wireRdid := by
  intro c hc hi
  exact ⟨_, rfl, by simp [Opcodes.all], by simp [minFrameLength_eq hc]⟩

theorem readByte (a : Addr) : Statement (.readByte a) := by
  intro c _ _
  rfl

theorem readBytes (a : Addr) (count : BitVec 32) : Statement (.readBytes a count) := by
  intro c _ _
  rfl

theorem writeEnable (a : Addr) : Statement (.writeEnable a) := by
  intro c _ _
  rfl

theorem writeByte (a : Addr) (v : Byte) : Statement (.writeByte a v) := by
  intro c _ _
  rfl

theorem writeBytes (a : Addr) (p : List Byte) : Statement (.writeBytes a p) := by
  intro c _ _
  rfl

theorem erase4K (a : Addr) : Statement (.erase4K a) := by
  intro c _ _
  rfl

theorem erase32K (a : Addr) : Statement (.erase32K a) := by
  intro c _ _
  rfl

theorem eraseSector (a : Addr) : Statement (.eraseSector a) := by
  intro c _ _
  rfl

theorem eraseDie (a : Addr) : Statement (.eraseDie a) := by
  intro c _ _
  rfl

theorem readStatusRegister (a : Addr) : Statement (.readStatusRegister a) := by
  intro c _ _
  rfl

theorem readChipId (a : Addr) : Statement (.readChipId a) := by
  intro c _ _
  rfl

end Sys2Proof.Laws.Format
end

