-- ==== Sys2Proof/Laws/State.lean ====
section
/-! SUPPORT. What each named update of State does to each field, and what the chip's turn, the cutting one and a loss of power do. -/

namespace Sys2Proof.Machine

variable (s : State)

@[simp] theorem loadOperands_st (o : BitVec 4) (a : Addr) (l : BitVec 32) (w : List Byte) : (s.loadOperands o a l w).st = s.st := rfl
@[simp] theorem loadOperands_op (o : BitVec 4) (a : Addr) (l : BitVec 32) (w : List Byte) : (s.loadOperands o a l w).op = o := rfl
@[simp] theorem loadOperands_addr (o : BitVec 4) (a : Addr) (l : BitVec 32) (w : List Byte) : (s.loadOperands o a l w).addr = a := rfl
@[simp] theorem loadOperands_len (o : BitVec 4) (a : Addr) (l : BitVec 32) (w : List Byte) : (s.loadOperands o a l w).len = l := rfl
@[simp] theorem loadOperands_wbuf (o : BitVec 4) (a : Addr) (l : BitVec 32) (w : List Byte) : (s.loadOperands o a l w).wbuf = w := rfl
@[simp] theorem loadOperands_resStatus (o : BitVec 4) (a : Addr) (l : BitVec 32) (w : List Byte) : (s.loadOperands o a l w).resStatus = .noResult := rfl
@[simp] theorem loadOperands_resData (o : BitVec 4) (a : Addr) (l : BitVec 32) (w : List Byte) : (s.loadOperands o a l w).resData = [] := rfl
@[simp] theorem loadOperands_srLast (o : BitVec 4) (a : Addr) (l : BitVec 32) (w : List Byte) : (s.loadOperands o a l w).srLast = s.srLast := rfl
@[simp] theorem loadOperands_pollCnt (o : BitVec 4) (a : Addr) (l : BitVec 32) (w : List Byte) : (s.loadOperands o a l w).pollCnt = s.pollCnt := rfl
@[simp] theorem loadOperands_tpOpen (o : BitVec 4) (a : Addr) (l : BitVec 32) (w : List Byte) : (s.loadOperands o a l w).tpOpen = s.tpOpen := rfl
@[simp] theorem loadOperands_cfg (o : BitVec 4) (a : Addr) (l : BitVec 32) (w : List Byte) : (s.loadOperands o a l w).cfg = s.cfg := rfl
@[simp] theorem loadOperands_chip (o : BitVec 4) (a : Addr) (l : BitVec 32) (w : List Byte) : (s.loadOperands o a l w).chip = s.chip := rfl
@[simp] theorem loadOperands_events (o : BitVec 4) (a : Addr) (l : BitVec 32) (w : List Byte) : (s.loadOperands o a l w).events = s.events := rfl
@[simp] theorem loadOperands_draws (o : BitVec 4) (a : Addr) (l : BitVec 32) (w : List Byte) : (s.loadOperands o a l w).draws = s.draws + 1 := rfl
@[simp] theorem loadOperands_trace (o : BitVec 4) (a : Addr) (l : BitVec 32) (w : List Byte) : (s.loadOperands o a l w).trace = s.trace := rfl

@[simp] theorem complete_st (r : ResStatus) (d : List Byte) : (s.complete r d).st = .idle := rfl
@[simp] theorem complete_op (r : ResStatus) (d : List Byte) : (s.complete r d).op = s.op := rfl
@[simp] theorem complete_addr (r : ResStatus) (d : List Byte) : (s.complete r d).addr = s.addr := rfl
@[simp] theorem complete_len (r : ResStatus) (d : List Byte) : (s.complete r d).len = s.len := rfl
@[simp] theorem complete_wbuf (r : ResStatus) (d : List Byte) : (s.complete r d).wbuf = s.wbuf := rfl
@[simp] theorem complete_resStatus (r : ResStatus) (d : List Byte) : (s.complete r d).resStatus = r := rfl
@[simp] theorem complete_resData (r : ResStatus) (d : List Byte) : (s.complete r d).resData = d := rfl
@[simp] theorem complete_srLast (r : ResStatus) (d : List Byte) : (s.complete r d).srLast = s.srLast := rfl
@[simp] theorem complete_pollCnt (r : ResStatus) (d : List Byte) : (s.complete r d).pollCnt = s.pollCnt := rfl
@[simp] theorem complete_tpOpen (r : ResStatus) (d : List Byte) : (s.complete r d).tpOpen = s.tpOpen := rfl
@[simp] theorem complete_cfg (r : ResStatus) (d : List Byte) : (s.complete r d).cfg = s.cfg := rfl
@[simp] theorem complete_chip (r : ResStatus) (d : List Byte) : (s.complete r d).chip = s.chip := rfl
@[simp] theorem complete_events (r : ResStatus) (d : List Byte) : (s.complete r d).events = s.events := rfl
@[simp] theorem complete_draws (r : ResStatus) (d : List Byte) : (s.complete r d).draws = s.draws := rfl
@[simp] theorem complete_trace (r : ResStatus) (d : List Byte) : (s.complete r d).trace = s.trace := rfl

@[simp] theorem raise_st (e : ResStatus) : (s.raise e).st = .idle := rfl
@[simp] theorem raise_op (e : ResStatus) : (s.raise e).op = s.op := rfl
@[simp] theorem raise_addr (e : ResStatus) : (s.raise e).addr = s.addr := rfl
@[simp] theorem raise_len (e : ResStatus) : (s.raise e).len = s.len := rfl
@[simp] theorem raise_wbuf (e : ResStatus) : (s.raise e).wbuf = s.wbuf := rfl
@[simp] theorem raise_resStatus (e : ResStatus) : (s.raise e).resStatus = e := rfl
@[simp] theorem raise_resData (e : ResStatus) : (s.raise e).resData = [] := rfl
@[simp] theorem raise_srLast (e : ResStatus) : (s.raise e).srLast = s.srLast := rfl
@[simp] theorem raise_pollCnt (e : ResStatus) : (s.raise e).pollCnt = s.pollCnt := rfl
@[simp] theorem raise_tpOpen (e : ResStatus) : (s.raise e).tpOpen = s.tpOpen := rfl
@[simp] theorem raise_cfg (e : ResStatus) : (s.raise e).cfg = s.cfg := rfl
@[simp] theorem raise_chip (e : ResStatus) : (s.raise e).chip = s.chip := rfl
@[simp] theorem raise_events (e : ResStatus) : (s.raise e).events = s.events := rfl
@[simp] theorem raise_draws (e : ResStatus) : (s.raise e).draws = s.draws := rfl
@[simp] theorem raise_trace (e : ResStatus) : (s.raise e).trace = s.trace := rfl

@[simp] theorem setSrLast_st (b : Byte) : (s.setSrLast b).st = s.st := rfl
@[simp] theorem setSrLast_op (b : Byte) : (s.setSrLast b).op = s.op := rfl
@[simp] theorem setSrLast_addr (b : Byte) : (s.setSrLast b).addr = s.addr := rfl
@[simp] theorem setSrLast_len (b : Byte) : (s.setSrLast b).len = s.len := rfl
@[simp] theorem setSrLast_wbuf (b : Byte) : (s.setSrLast b).wbuf = s.wbuf := rfl
@[simp] theorem setSrLast_resStatus (b : Byte) : (s.setSrLast b).resStatus = s.resStatus := rfl
@[simp] theorem setSrLast_resData (b : Byte) : (s.setSrLast b).resData = s.resData := rfl
@[simp] theorem setSrLast_srLast (b : Byte) : (s.setSrLast b).srLast = some b := rfl
@[simp] theorem setSrLast_pollCnt (b : Byte) : (s.setSrLast b).pollCnt = s.pollCnt := rfl
@[simp] theorem setSrLast_tpOpen (b : Byte) : (s.setSrLast b).tpOpen = s.tpOpen := rfl
@[simp] theorem setSrLast_cfg (b : Byte) : (s.setSrLast b).cfg = s.cfg := rfl
@[simp] theorem setSrLast_chip (b : Byte) : (s.setSrLast b).chip = s.chip := rfl
@[simp] theorem setSrLast_events (b : Byte) : (s.setSrLast b).events = s.events := rfl
@[simp] theorem setSrLast_draws (b : Byte) : (s.setSrLast b).draws = s.draws := rfl
@[simp] theorem setSrLast_trace (b : Byte) : (s.setSrLast b).trace = s.trace := rfl

@[simp] theorem enter_st (t : SeqState) : (s.enter t).st = t := rfl
@[simp] theorem enter_op (t : SeqState) : (s.enter t).op = s.op := rfl
@[simp] theorem enter_addr (t : SeqState) : (s.enter t).addr = s.addr := rfl
@[simp] theorem enter_len (t : SeqState) : (s.enter t).len = s.len := rfl
@[simp] theorem enter_wbuf (t : SeqState) : (s.enter t).wbuf = s.wbuf := rfl
@[simp] theorem enter_resStatus (t : SeqState) : (s.enter t).resStatus = s.resStatus := rfl
@[simp] theorem enter_resData (t : SeqState) : (s.enter t).resData = s.resData := rfl
@[simp] theorem enter_srLast (t : SeqState) : (s.enter t).srLast = s.srLast := rfl
@[simp] theorem enter_pollCnt (t : SeqState) : (s.enter t).pollCnt = s.pollCnt := rfl
@[simp] theorem enter_tpOpen (t : SeqState) : (s.enter t).tpOpen = s.tpOpen := rfl
@[simp] theorem enter_cfg (t : SeqState) : (s.enter t).cfg = s.cfg := rfl
@[simp] theorem enter_chip (t : SeqState) : (s.enter t).chip = s.chip := rfl
@[simp] theorem enter_events (t : SeqState) : (s.enter t).events = s.events := rfl
@[simp] theorem enter_draws (t : SeqState) : (s.enter t).draws = s.draws := rfl
@[simp] theorem enter_trace (t : SeqState) : (s.enter t).trace = s.trace := rfl

@[simp] theorem setPollCnt_st (n : Nat) : (s.setPollCnt n).st = s.st := rfl
@[simp] theorem setPollCnt_op (n : Nat) : (s.setPollCnt n).op = s.op := rfl
@[simp] theorem setPollCnt_addr (n : Nat) : (s.setPollCnt n).addr = s.addr := rfl
@[simp] theorem setPollCnt_len (n : Nat) : (s.setPollCnt n).len = s.len := rfl
@[simp] theorem setPollCnt_wbuf (n : Nat) : (s.setPollCnt n).wbuf = s.wbuf := rfl
@[simp] theorem setPollCnt_resStatus (n : Nat) : (s.setPollCnt n).resStatus = s.resStatus := rfl
@[simp] theorem setPollCnt_resData (n : Nat) : (s.setPollCnt n).resData = s.resData := rfl
@[simp] theorem setPollCnt_srLast (n : Nat) : (s.setPollCnt n).srLast = s.srLast := rfl
@[simp] theorem setPollCnt_pollCnt (n : Nat) : (s.setPollCnt n).pollCnt = n := rfl
@[simp] theorem setPollCnt_tpOpen (n : Nat) : (s.setPollCnt n).tpOpen = s.tpOpen := rfl
@[simp] theorem setPollCnt_cfg (n : Nat) : (s.setPollCnt n).cfg = s.cfg := rfl
@[simp] theorem setPollCnt_chip (n : Nat) : (s.setPollCnt n).chip = s.chip := rfl
@[simp] theorem setPollCnt_events (n : Nat) : (s.setPollCnt n).events = s.events := rfl
@[simp] theorem setPollCnt_draws (n : Nat) : (s.setPollCnt n).draws = s.draws := rfl
@[simp] theorem setPollCnt_trace (n : Nat) : (s.setPollCnt n).trace = s.trace := rfl

@[simp] theorem withEvents_st (es : List Event) : (s.withEvents es).st = s.st := rfl
@[simp] theorem withEvents_op (es : List Event) : (s.withEvents es).op = s.op := rfl
@[simp] theorem withEvents_addr (es : List Event) : (s.withEvents es).addr = s.addr := rfl
@[simp] theorem withEvents_len (es : List Event) : (s.withEvents es).len = s.len := rfl
@[simp] theorem withEvents_wbuf (es : List Event) : (s.withEvents es).wbuf = s.wbuf := rfl
@[simp] theorem withEvents_resStatus (es : List Event) : (s.withEvents es).resStatus = s.resStatus := rfl
@[simp] theorem withEvents_resData (es : List Event) : (s.withEvents es).resData = s.resData := rfl
@[simp] theorem withEvents_srLast (es : List Event) : (s.withEvents es).srLast = s.srLast := rfl
@[simp] theorem withEvents_pollCnt (es : List Event) : (s.withEvents es).pollCnt = s.pollCnt := rfl
@[simp] theorem withEvents_tpOpen (es : List Event) : (s.withEvents es).tpOpen = s.tpOpen := rfl
@[simp] theorem withEvents_cfg (es : List Event) : (s.withEvents es).cfg = s.cfg := rfl
@[simp] theorem withEvents_chip (es : List Event) : (s.withEvents es).chip = s.chip := rfl
@[simp] theorem withEvents_events (es : List Event) : (s.withEvents es).events = es := rfl
@[simp] theorem withEvents_draws (es : List Event) : (s.withEvents es).draws = s.draws := rfl
@[simp] theorem withEvents_trace (es : List Event) : (s.withEvents es).trace = s.trace := rfl

@[simp] theorem shutdown_st : (s.shutdown).st = s.st := rfl
@[simp] theorem shutdown_op : (s.shutdown).op = s.op := rfl
@[simp] theorem shutdown_addr : (s.shutdown).addr = s.addr := rfl
@[simp] theorem shutdown_len : (s.shutdown).len = s.len := rfl
@[simp] theorem shutdown_wbuf : (s.shutdown).wbuf = s.wbuf := rfl
@[simp] theorem shutdown_resStatus : (s.shutdown).resStatus = s.resStatus := rfl
@[simp] theorem shutdown_resData : (s.shutdown).resData = s.resData := rfl
@[simp] theorem shutdown_srLast : (s.shutdown).srLast = s.srLast := rfl
@[simp] theorem shutdown_pollCnt : (s.shutdown).pollCnt = s.pollCnt := rfl
@[simp] theorem shutdown_tpOpen : (s.shutdown).tpOpen = false := rfl
@[simp] theorem shutdown_cfg : (s.shutdown).cfg = s.cfg := rfl
@[simp] theorem shutdown_chip : (s.shutdown).chip = s.chip := rfl
@[simp] theorem shutdown_events : (s.shutdown).events = s.events := rfl
@[simp] theorem shutdown_draws : (s.shutdown).draws = s.draws := rfl
@[simp] theorem shutdown_trace : (s.shutdown).trace = s.trace := rfl

@[simp] theorem resetController_st : (s.resetController).st = .idle := rfl
@[simp] theorem resetController_op : (s.resetController).op = Config.unspecifiedOp s.draws := rfl
@[simp] theorem resetController_addr : (s.resetController).addr = Config.unspecifiedAddr s.draws := rfl
@[simp] theorem resetController_len : (s.resetController).len = Config.unspecifiedLen s.draws := rfl
@[simp] theorem resetController_wbuf : (s.resetController).wbuf = Config.unspecifiedWbuf s.draws := rfl
@[simp] theorem resetController_resStatus : (s.resetController).resStatus = .noResult := rfl
@[simp] theorem resetController_resData : (s.resetController).resData = [] := rfl
@[simp] theorem resetController_srLast : (s.resetController).srLast = none := rfl
@[simp] theorem resetController_pollCnt : (s.resetController).pollCnt = Config.unspecifiedPollCnt s.draws := rfl
@[simp] theorem resetController_tpOpen : (s.resetController).tpOpen = true := rfl
@[simp] theorem resetController_cfg : (s.resetController).cfg = s.cfg := rfl
@[simp] theorem resetController_chip : (s.resetController).chip = s.chip := rfl
@[simp] theorem resetController_events : (s.resetController).events = s.events := rfl
@[simp] theorem resetController_draws : (s.resetController).draws = s.draws + 1 := rfl
@[simp] theorem resetController_trace : (s.resetController).trace = s.trace := rfl

@[simp] theorem chipTurn_st : (chipTurn s).st = s.st := rfl
@[simp] theorem chipTurn_op : (chipTurn s).op = s.op := rfl
@[simp] theorem chipTurn_addr : (chipTurn s).addr = s.addr := rfl
@[simp] theorem chipTurn_len : (chipTurn s).len = s.len := rfl
@[simp] theorem chipTurn_wbuf : (chipTurn s).wbuf = s.wbuf := rfl
@[simp] theorem chipTurn_resStatus : (chipTurn s).resStatus = s.resStatus := rfl
@[simp] theorem chipTurn_resData : (chipTurn s).resData = s.resData := rfl
@[simp] theorem chipTurn_srLast : (chipTurn s).srLast = s.srLast := rfl
@[simp] theorem chipTurn_pollCnt : (chipTurn s).pollCnt = s.pollCnt := rfl
@[simp] theorem chipTurn_tpOpen : (chipTurn s).tpOpen = s.tpOpen := rfl
@[simp] theorem chipTurn_cfg : (chipTurn s).cfg = s.cfg := rfl
@[simp] theorem chipTurn_chip : (chipTurn s).chip = chipComplete s.cfg s.draws s.chip := rfl
@[simp] theorem chipTurn_events : (chipTurn s).events = s.events := rfl
@[simp] theorem chipTurn_draws : (chipTurn s).draws = s.draws + 1 := rfl
@[simp] theorem chipTurn_trace : (chipTurn s).trace = s.trace := rfl

@[simp] theorem resetCutting_st : (resetCutting s).st = .idle := rfl
@[simp] theorem resetCutting_op : (resetCutting s).op = Config.unspecifiedOp s.draws := rfl
@[simp] theorem resetCutting_addr : (resetCutting s).addr = Config.unspecifiedAddr s.draws := rfl
@[simp] theorem resetCutting_len : (resetCutting s).len = Config.unspecifiedLen s.draws := rfl
@[simp] theorem resetCutting_wbuf : (resetCutting s).wbuf = Config.unspecifiedWbuf s.draws := rfl
@[simp] theorem resetCutting_resStatus : (resetCutting s).resStatus = .noResult := rfl
@[simp] theorem resetCutting_resData : (resetCutting s).resData = [] := rfl
@[simp] theorem resetCutting_srLast : (resetCutting s).srLast = none := rfl
@[simp] theorem resetCutting_pollCnt : (resetCutting s).pollCnt = Config.unspecifiedPollCnt s.draws := rfl
@[simp] theorem resetCutting_tpOpen : (resetCutting s).tpOpen = true := rfl
@[simp] theorem resetCutting_cfg : (resetCutting s).cfg = s.cfg := rfl
@[simp] theorem resetCutting_chip : (resetCutting s).chip = if s.tpOpen then faultedChip s.cfg s.draws else s.chip := rfl
@[simp] theorem resetCutting_events : (resetCutting s).events = s.events := rfl
@[simp] theorem resetCutting_draws : (resetCutting s).draws = s.draws + 1 := rfl
@[simp] theorem resetCutting_trace : (resetCutting s).trace = s.trace := rfl

@[simp] theorem powerLossTurn_st : (powerLossTurn s).st = .idle := rfl
@[simp] theorem powerLossTurn_op : (powerLossTurn s).op = Config.unspecifiedOp s.draws := rfl
@[simp] theorem powerLossTurn_addr : (powerLossTurn s).addr = Config.unspecifiedAddr s.draws := rfl
@[simp] theorem powerLossTurn_len : (powerLossTurn s).len = Config.unspecifiedLen s.draws := rfl
@[simp] theorem powerLossTurn_wbuf : (powerLossTurn s).wbuf = Config.unspecifiedWbuf s.draws := rfl
@[simp] theorem powerLossTurn_resStatus : (powerLossTurn s).resStatus = .noResult := rfl
@[simp] theorem powerLossTurn_resData : (powerLossTurn s).resData = [] := rfl
@[simp] theorem powerLossTurn_srLast : (powerLossTurn s).srLast = none := rfl
@[simp] theorem powerLossTurn_pollCnt : (powerLossTurn s).pollCnt = Config.unspecifiedPollCnt s.draws := rfl
@[simp] theorem powerLossTurn_tpOpen : (powerLossTurn s).tpOpen = true := rfl
@[simp] theorem powerLossTurn_cfg : (powerLossTurn s).cfg = s.cfg := rfl
@[simp] theorem powerLossTurn_chip : (powerLossTurn s).chip = chipPowerLoss s.cfg s.draws s.chip := rfl
@[simp] theorem powerLossTurn_events : (powerLossTurn s).events = s.events := rfl
@[simp] theorem powerLossTurn_draws : (powerLossTurn s).draws = s.draws + 1 := rfl
@[simp] theorem powerLossTurn_trace : (powerLossTurn s).trace = s.trace := rfl

@[simp] theorem loadDescriptor_st (o : HostOp) (a : Addr) (n : BitVec 32) (d : List Byte) :
    (loadDescriptor o a n d s).st = s.st := rfl
@[simp] theorem loadDescriptor_op (o : HostOp) (a : Addr) (n : BitVec 32) (d : List Byte) :
    (loadDescriptor o a n d s).op = o.code := rfl
@[simp] theorem loadDescriptor_addr (o : HostOp) (a : Addr) (n : BitVec 32) (d : List Byte) :
    (loadDescriptor o a n d s).addr = a := rfl
@[simp] theorem loadDescriptor_len (o : HostOp) (a : Addr) (n : BitVec 32) (d : List Byte) :
    (loadDescriptor o a n d s).len = operandLen s.cfg s.draws o n d := rfl
@[simp] theorem loadDescriptor_wbuf (o : HostOp) (a : Addr) (n : BitVec 32) (d : List Byte) :
    (loadDescriptor o a n d s).wbuf = operandBuf o d := rfl
@[simp] theorem loadDescriptor_resStatus (o : HostOp) (a : Addr) (n : BitVec 32) (d : List Byte) :
    (loadDescriptor o a n d s).resStatus = .noResult := rfl
@[simp] theorem loadDescriptor_resData (o : HostOp) (a : Addr) (n : BitVec 32) (d : List Byte) :
    (loadDescriptor o a n d s).resData = [] := rfl
@[simp] theorem loadDescriptor_srLast (o : HostOp) (a : Addr) (n : BitVec 32) (d : List Byte) :
    (loadDescriptor o a n d s).srLast = s.srLast := rfl
@[simp] theorem loadDescriptor_pollCnt (o : HostOp) (a : Addr) (n : BitVec 32) (d : List Byte) :
    (loadDescriptor o a n d s).pollCnt = s.pollCnt := rfl
@[simp] theorem loadDescriptor_tpOpen (o : HostOp) (a : Addr) (n : BitVec 32) (d : List Byte) :
    (loadDescriptor o a n d s).tpOpen = s.tpOpen := rfl
@[simp] theorem loadDescriptor_cfg (o : HostOp) (a : Addr) (n : BitVec 32) (d : List Byte) :
    (loadDescriptor o a n d s).cfg = s.cfg := rfl
@[simp] theorem loadDescriptor_chip (o : HostOp) (a : Addr) (n : BitVec 32) (d : List Byte) :
    (loadDescriptor o a n d s).chip = s.chip := rfl
@[simp] theorem loadDescriptor_events (o : HostOp) (a : Addr) (n : BitVec 32) (d : List Byte) :
    (loadDescriptor o a n d s).events = s.events := rfl
@[simp] theorem loadDescriptor_draws (o : HostOp) (a : Addr) (n : BitVec 32) (d : List Byte) :
    (loadDescriptor o a n d s).draws = s.draws + 1 := rfl
@[simp] theorem loadDescriptor_trace (o : HostOp) (a : Addr) (n : BitVec 32) (d : List Byte) :
    (loadDescriptor o a n d s).trace = s.trace := rfl

/-- A ready controller takes the request. -/
theorem whenReady_idle (f : State → State) (h : s.st = .idle) : s.whenReady f = f s := by
  simp [State.whenReady, h]

/-- A busy controller holds the request: nothing happens. -/
theorem whenReady_busy (f : State → State) (h : s.st ≠ .idle) : s.whenReady f = s := by
  simp [State.whenReady, h]

end Sys2Proof.Machine
end

