-- ==== Sys2Proof/Laws/Transport.lean ====
section
/-! SUPPORT. The exchange: the fields it leaves alone, what it does when the transport is closed, when the environment's
answer stands in `events`, and when it does not; the length of a response; the array stays sound. -/

namespace Sys2Proof.Machine

variable (s : State) (f : List Byte)

/-! ## What an exchange leaves alone -/

@[simp] theorem takeAnswer_st : (takeAnswer s).2.st = s.st := by unfold takeAnswer; split <;> rfl
@[simp] theorem takeAnswer_op : (takeAnswer s).2.op = s.op := by unfold takeAnswer; split <;> rfl
@[simp] theorem takeAnswer_addr : (takeAnswer s).2.addr = s.addr := by unfold takeAnswer; split <;> rfl
@[simp] theorem takeAnswer_len : (takeAnswer s).2.len = s.len := by unfold takeAnswer; split <;> rfl
@[simp] theorem takeAnswer_wbuf : (takeAnswer s).2.wbuf = s.wbuf := by unfold takeAnswer; split <;> rfl
@[simp] theorem takeAnswer_resStatus : (takeAnswer s).2.resStatus = s.resStatus := by unfold takeAnswer; split <;> rfl
@[simp] theorem takeAnswer_resData : (takeAnswer s).2.resData = s.resData := by unfold takeAnswer; split <;> rfl
@[simp] theorem takeAnswer_srLast : (takeAnswer s).2.srLast = s.srLast := by unfold takeAnswer; split <;> rfl
@[simp] theorem takeAnswer_pollCnt : (takeAnswer s).2.pollCnt = s.pollCnt := by unfold takeAnswer; split <;> rfl
@[simp] theorem takeAnswer_tpOpen : (takeAnswer s).2.tpOpen = s.tpOpen := by unfold takeAnswer; split <;> rfl
@[simp] theorem takeAnswer_cfg : (takeAnswer s).2.cfg = s.cfg := by unfold takeAnswer; split <;> rfl
@[simp] theorem takeAnswer_trace : (takeAnswer s).2.trace = s.trace := by unfold takeAnswer; split <;> rfl
@[simp] theorem takeAnswer_draws : (takeAnswer s).2.draws = s.draws + 1 := by unfold takeAnswer; split <;> rfl

@[simp] theorem exchange_st : (exchange f s).2.st = s.st := by unfold exchange; split <;> simp
@[simp] theorem exchange_op : (exchange f s).2.op = s.op := by unfold exchange; split <;> simp
@[simp] theorem exchange_addr : (exchange f s).2.addr = s.addr := by unfold exchange; split <;> simp
@[simp] theorem exchange_len : (exchange f s).2.len = s.len := by unfold exchange; split <;> simp
@[simp] theorem exchange_wbuf : (exchange f s).2.wbuf = s.wbuf := by unfold exchange; split <;> simp
@[simp] theorem exchange_resStatus : (exchange f s).2.resStatus = s.resStatus := by unfold exchange; split <;> simp
@[simp] theorem exchange_resData : (exchange f s).2.resData = s.resData := by unfold exchange; split <;> simp
@[simp] theorem exchange_srLast : (exchange f s).2.srLast = s.srLast := by unfold exchange; split <;> simp
@[simp] theorem exchange_pollCnt : (exchange f s).2.pollCnt = s.pollCnt := by unfold exchange; split <;> simp
@[simp] theorem exchange_tpOpen : (exchange f s).2.tpOpen = s.tpOpen := by unfold exchange; split <;> simp
@[simp] theorem exchange_cfg : (exchange f s).2.cfg = s.cfg := by unfold exchange; split <;> simp
@[simp] theorem sendWire_st : (sendWire f s).st = s.st := by simp [sendWire]
@[simp] theorem sendWire_op : (sendWire f s).op = s.op := by simp [sendWire]
@[simp] theorem sendWire_addr : (sendWire f s).addr = s.addr := by simp [sendWire]
@[simp] theorem sendWire_len : (sendWire f s).len = s.len := by simp [sendWire]
@[simp] theorem sendWire_wbuf : (sendWire f s).wbuf = s.wbuf := by simp [sendWire]
@[simp] theorem sendWire_resStatus : (sendWire f s).resStatus = s.resStatus := by simp [sendWire]
@[simp] theorem sendWire_resData : (sendWire f s).resData = s.resData := by simp [sendWire]
@[simp] theorem sendWire_srLast : (sendWire f s).srLast = s.srLast := by simp [sendWire]
@[simp] theorem sendWire_pollCnt : (sendWire f s).pollCnt = s.pollCnt := by simp [sendWire]
@[simp] theorem sendWire_tpOpen : (sendWire f s).tpOpen = s.tpOpen := by simp [sendWire]
@[simp] theorem sendWire_cfg : (sendWire f s).cfg = s.cfg := by simp [sendWire]

/-! ## What an exchange does -/

variable {s f}

/-- "With `TP_OPEN = 0` no exchange can be made" (10_state.md R31). -/
theorem exchange_closed (h : s.tpOpen = false) : exchange f s = (.err, s) := by simp [exchange, h]

/-- An exchange whose answer stands in `events`: the answer is taken, the chip handles the frame if it was reached, and
the transaction is recorded (40_framer.md R127 to R130). -/
theorem exchange_scripted {a : Answer} {es : List Event} (ho : s.tpOpen = true) (he : s.events = .answer a :: es) :
    exchange f s =
      (answerResult s.cfg s.draws s.chip f a,
        { s with
          events := es
          draws := s.draws + 1
          chip := if answerReached a then chipReceive s.cfg s.draws s.chip f else s.chip
          trace := s.trace ++ [(f, answerResult s.cfg s.draws s.chip f a)] }) := by
  simp [exchange, ho, takeAnswer, he]

/-- An exchange the chip answers, its frame no longer than the transport takes: the chip's response to the frame, and
the chip after it (20_memory.md R66 to R75). -/
theorem exchange_chip {junk : List Byte} {es : List Event} (ho : s.tpOpen = true)
    (he : s.events = .answer (.chip junk) :: es) (hl : tooLong s.cfg f = false) :
    exchange f s =
      (.ok (chipRespond s.cfg junk s.draws s.chip f),
        { s with
          events := es
          draws := s.draws + 1
          chip := chipReceive s.cfg s.draws s.chip f
          trace := s.trace ++ [(f, .ok (chipRespond s.cfg junk s.draws s.chip f))] }) := by
  simp [exchange_scripted ho he, answerResult, hl, answerReached]

/-- An exchange the chip answers with a frame that does not fault: the command's response and effect (20_memory.md R67 to
R72). -/
theorem exchange_clean {junk : List Byte} {es : List Event} (ho : s.tpOpen = true)
    (he : s.events = .answer (.chip junk) :: es) (hl : tooLong s.cfg f = false) (hf : s.chip.fault = false)
    (hff : frameFaults s.cfg s.chip f = false) :
    exchange f s =
      (.ok (commandResponse s.cfg junk s.draws s.chip f.length (chipCommand s.cfg f)),
        { s with
          events := es
          draws := s.draws + 1
          chip := commandEffect s.cfg s.chip (chipCommand s.cfg f)
          trace := s.trace ++
            [(f, .ok (commandResponse s.cfg junk s.draws s.chip f.length (chipCommand s.cfg f)))] }) := by
  rw [exchange_chip ho he hl]
  simp [chipRespond, chipReceive, hf, hff]

/-- A frame of one byte is never too long (00_scope.md R7: `MAX_FRAME` is 1 or more). -/
theorem tooLong_single {c : Config} (h : c.wf = true) (b : Byte) : tooLong c [b] = false := by
  simp only [Config.wf, Bool.and_eq_true, decide_eq_true_eq] at h
  have := h.1.2
  unfold tooLong
  cases hm : c.maxFrame with
  | none => rfl
  | some m => simp [hm] at this ⊢; omega

/-- An open exchange appends its frame and result to the trace (40_framer.md R130). -/
theorem exchange_trace (ho : s.tpOpen = true) :
    (exchange f s).2.trace = s.trace ++ [(f, (exchange f s).1)] := by simp [exchange, ho]

/-- "`Ok(r)` with `len(r) = len(f)`" (40_framer.md R127, R128). -/
theorem exchange_ok_length {r : List Byte} (h : (exchange f s).1 = .ok r) : r.length = f.length := by
  unfold exchange at h
  split at h
  · simp only [answerResult] at h
    split at h
    · cases h
    · split at h
      · injection h with h; rw [← h, chipRespond_length]
      · split at h
        · injection h with h; rw [← h]; assumption
        · cases h
      · cases h
  · cases h

/-- A frame longer than `MAX_FRAME` is answered `Err` (40_framer.md R129). -/
theorem exchange_tooLong (h : tooLong s.cfg f = true) : (exchange f s).1 = .err := by
  unfold exchange
  split <;> simp [answerResult, h]

/-- A frame no longer than one the transport takes is taken too (`MAX_FRAME`, 40_framer.md R129). -/
theorem tooLong_mono {c : Config} {g : List Byte} (h : tooLong c f = false) (hl : g.length ≤ f.length) :
    tooLong c g = false := by
  unfold tooLong at h ⊢
  cases hm : c.maxFrame with
  | none => rfl
  | some m =>
    rw [hm] at h
    simp only [Option.any_some, decide_eq_false_iff_not, Nat.not_lt] at h ⊢
    exact Nat.le_trans hl h

/-- Where a failure is among what is recorded since before an exchange, it is the exchange's own and all there is. -/
theorem exchange_failure_recorded {u : State} {g : List Byte} (hu : u.trace = (exchange f s).2.trace)
    (h : (g, .err) ∈ u.trace.drop s.trace.length) : (exchange f s).1 = .err ∧ u.trace = s.trace ++ [(g, .err)] := by
  cases ho : s.tpOpen with
  | false =>
    rw [hu, exchange_closed ho] at h
    simp at h
  | true =>
    rw [hu, exchange_trace ho, List.drop_left, List.mem_singleton, Prod.mk.injEq] at h
    rw [hu, exchange_trace ho, ← h.2, h.1]
    exact ⟨rfl, rfl⟩

/-- No exchange breaks the array (20_memory.md R51). -/
theorem exchange_sound (hc : s.cfg.wf = true) (h : s.chip.sound s.cfg = true) :
    (exchange f s).2.chip.sound s.cfg = true := by
  have hta : (takeAnswer s).2.chip.sound s.cfg = true := by
    unfold takeAnswer
    split
    · exact h
    · dsimp only
      split
      · exact chipComplete_sound _ h
      · exact h
  unfold exchange
  split
  · simp only [takeAnswer_cfg]
    split
    · exact chipReceive_sound hc _ _ hta
    · exact hta
  · exact h

/-- An exchange takes at most one answer off `events`. -/
theorem exchange_events : (exchange f s).2.events = s.events ∨ ∃ a, s.events = .answer a :: (exchange f s).2.events := by
  unfold exchange
  split
  · unfold takeAnswer
    split
    · rename_i a es h; exact .inr ⟨a, h⟩
    · exact .inl rfl
  · exact .inl rfl

end Sys2Proof.Machine
end

