-- ==== Sys2Proof/Laws/Sequencer.lean ====
section
/-! SUPPORT. The controller's steps by the result of their one exchange, and what acceptance can do. -/

namespace Sys2Proof.Machine

variable {s t : State} {o : HostOp} {k : PollClass} {r : List Byte}

/-! ## The steps (41_sequencer.md R141 to R147) -/

theorem stepSingle_err (h : exchange (mainFrame o s) s = (.err, t)) :
    stepSingle o s = t.raise .transportError := by simp [stepSingle, h]

theorem stepSingle_ok (h : exchange (mainFrame o s) s = (.ok r, t)) :
    stepSingle o s = (storeStatus o r t).complete .ok (resultSlice o t r) := by simp [stepSingle, h]

theorem stepEnable_err (h : exchange (frame0 s.cfg.opcodes.wren 0) s = (.err, t)) :
    stepEnable s = t.raise .transportError := by simp [stepEnable, h]

theorem stepEnable_ok (h : exchange (frame0 s.cfg.opcodes.wren 0) s = (.ok r, t)) :
    stepEnable s = t.enter .enableSent := by simp [stepEnable, h]

theorem stepIssue_err (h : exchange (mainFrame o s) s = (.err, t)) :
    stepIssue o s = t.raise .transportError := by simp [stepIssue, h]

theorem stepIssue_ok (h : exchange (mainFrame o s) s = (.ok r, t)) :
    stepIssue o s = (t.setPollCnt 0).enter .cmdIssued := by simp [stepIssue, h]

theorem stepPoll_err (h : exchange (frame0 s.cfg.opcodes.rdsr 1) s = (.err, t)) :
    stepPoll k s = t.raise .transportError := by simp [stepPoll, h]

/-- A status read that succeeds has a status byte, at offset 1 (30_encoding.md R95). -/
theorem stepPoll_ok (h : exchange (frame0 s.cfg.opcodes.rdsr 1) s = (.ok r, t)) :
    ∃ b, r[1]? = some b ∧ stepPoll k s = pollReading (maxPolls s.cfg k) b t := by
  have hl := exchange_ok_length (congrArg Prod.fst h)
  rw [frame0_length] at hl
  refine ⟨r[1], List.getElem?_eq_getElem (by omega), ?_⟩
  simp [stepPoll, h, List.getElem?_eq_getElem (show 1 < r.length by omega)]

/-- Step SINGLE by the result of its exchange (R141). -/
theorem stepSingle_cases (o : HostOp) (s : State) :
    ((exchange (mainFrame o s) s).1 = .err ∧
      stepSingle o s = (exchange (mainFrame o s) s).2.raise .transportError) ∨
    ∃ r, (exchange (mainFrame o s) s).1 = .ok r ∧
      stepSingle o s = (storeStatus o r (exchange (mainFrame o s) s).2).complete .ok
        (resultSlice o (exchange (mainFrame o s) s).2 r) := by
  unfold stepSingle
  split <;> rename_i hx <;> rw [hx]
  · exact .inl ⟨rfl, rfl⟩
  · exact .inr ⟨_, rfl, rfl⟩

/-- Step ENABLE by the result of its exchange (R142). -/
theorem stepEnable_cases (s : State) :
    ((exchange (frame0 s.cfg.opcodes.wren 0) s).1 = .err ∧
      stepEnable s = (exchange (frame0 s.cfg.opcodes.wren 0) s).2.raise .transportError) ∨
    ∃ r, (exchange (frame0 s.cfg.opcodes.wren 0) s).1 = .ok r ∧
      stepEnable s = (exchange (frame0 s.cfg.opcodes.wren 0) s).2.enter .enableSent := by
  unfold stepEnable
  split <;> rename_i hx <;> rw [hx]
  · exact .inl ⟨rfl, rfl⟩
  · exact .inr ⟨_, rfl, rfl⟩

/-- Step ISSUE by the result of its exchange (R143). -/
theorem stepIssue_cases (o : HostOp) (s : State) :
    ((exchange (mainFrame o s) s).1 = .err ∧
      stepIssue o s = (exchange (mainFrame o s) s).2.raise .transportError) ∨
    ∃ r, (exchange (mainFrame o s) s).1 = .ok r ∧
      stepIssue o s = ((exchange (mainFrame o s) s).2.setPollCnt 0).enter .cmdIssued := by
  unfold stepIssue
  split <;> rename_i hx <;> rw [hx]
  · exact .inl ⟨rfl, rfl⟩
  · exact .inr ⟨_, rfl, rfl⟩

/-- What a status reading can do: `OK` on bit 0 = 0, `BUSY_TIMEOUT` on the last permitted busy reading, POLLING on any
other (41_sequencer.md R146). -/
theorem pollReading_cases (bound : Option Nat) (b : Byte) (s : State) :
    (busyBit b = false ∧ pollReading bound b s = (s.setSrLast b).complete .ok []) ∨
    (busyBit b = true ∧ bound = some (s.pollCnt + 1) ∧
      pollReading bound b s = ((s.setSrLast b).setPollCnt (s.pollCnt + 1)).raise .busyTimeout) ∨
    (busyBit b = true ∧ bound ≠ some (s.pollCnt + 1) ∧
      pollReading bound b s = ((s.setSrLast b).setPollCnt (s.pollCnt + 1)).enter .polling) := by
  unfold pollReading
  by_cases hb : busyBit b = true
  · by_cases hm : bound = some (s.pollCnt + 1)
    · exact .inr (.inl ⟨hb, hm, by simp [hb, hm]⟩)
    · exact .inr (.inr ⟨hb, hm, by simp [hb, hm]⟩)
  · exact .inl ⟨by simpa using hb, by simp [hb]⟩

/-- Step POLL by the result of its exchange (R146). -/
theorem stepPoll_cases (k : PollClass) (s : State) :
    ((exchange (frame0 s.cfg.opcodes.rdsr 1) s).1 = .err ∧
      stepPoll k s = (exchange (frame0 s.cfg.opcodes.rdsr 1) s).2.raise .transportError) ∨
    ∃ r b, (exchange (frame0 s.cfg.opcodes.rdsr 1) s).1 = .ok r ∧ r[1]? = some b ∧
      ((busyBit b = false ∧
          stepPoll k s = ((exchange (frame0 s.cfg.opcodes.rdsr 1) s).2.setSrLast b).complete .ok []) ∨
        (busyBit b = true ∧ maxPolls s.cfg k = some (s.pollCnt + 1) ∧
          stepPoll k s = (((exchange (frame0 s.cfg.opcodes.rdsr 1) s).2.setSrLast b).setPollCnt
            (s.pollCnt + 1)).raise .busyTimeout) ∨
        (busyBit b = true ∧ maxPolls s.cfg k ≠ some (s.pollCnt + 1) ∧
          stepPoll k s = (((exchange (frame0 s.cfg.opcodes.rdsr 1) s).2.setSrLast b).setPollCnt
            (s.pollCnt + 1)).enter .polling)) := by
  rcases hx : exchange (frame0 s.cfg.opcodes.rdsr 1) s with ⟨_ | _, u⟩
  · obtain ⟨b, hb, hp⟩ := stepPoll_ok (k := k) hx
    have hu : u.pollCnt = s.pollCnt := by
      have := exchange_pollCnt s (frame0 s.cfg.opcodes.rdsr 1)
      rwa [hx] at this
    have hc := pollReading_cases (maxPolls s.cfg k) b u
    rw [hu, ← hp] at hc
    exact .inr ⟨_, b, rfl, hb, hc⟩
  · exact .inl ⟨rfl, stepPoll_err hx⟩

/-- What storing the status byte can do. -/
theorem storeStatus_cases (o : HostOp) (r : List Byte) (s : State) :
    storeStatus o r s = s ∨
    ∃ b, o = .readStatusRegister ∧ r[1]? = some b ∧ storeStatus o r s = s.setSrLast b := by
  unfold storeStatus
  split
  · rename_i b h; exact .inr ⟨b, rfl, h, rfl⟩
  · exact .inl rfl

/-- A single-transaction operation stores the status byte only if it is `readStatusRegister`. -/
theorem storeStatus_other (h : o ≠ .readStatusRegister) (r : List Byte) (s : State) : storeStatus o r s = s := by
  unfold storeStatus
  split
  · exact absurd rfl h
  · rfl

/-! ## Acceptance (41_sequencer.md R136) -/

/-- Everything acceptance can do once the operands are loaded: reject, fail on a closed transport, or make the first
exchange. -/
theorem dispatch_cases (o : HostOp) (ok : Bool) (s : State) :
    (ok = false ∧ dispatch o ok s = s.raise .invalidInput) ∨
    (ok = true ∧ s.tpOpen = false ∧ dispatch o ok s = s.raise .transportError) ∨
    (ok = true ∧ s.tpOpen = true ∧ pollClass o = none ∧ dispatch o ok s = stepSingle o s) ∨
    (ok = true ∧ s.tpOpen = true ∧ (∃ k, pollClass o = some k) ∧ dispatch o ok s = stepEnable s) := by
  cases ok with
  | false => exact .inl ⟨rfl, rfl⟩
  | true =>
    cases ht : s.tpOpen with
    | false => exact .inr (.inl ⟨rfl, rfl, by simp [dispatch, ht]⟩)
    | true =>
      cases hk : pollClass o with
      | none => exact .inr (.inr (.inl ⟨rfl, rfl, rfl, by simp [dispatch, ht, hk]⟩))
      | some k => exact .inr (.inr (.inr ⟨rfl, rfl, ⟨k, rfl⟩, by simp [dispatch, ht, hk]⟩))

/-- A sequenced operation's code leads to its poll class. -/
theorem sequencedOp_code {o : HostOp} {k : PollClass} (h : pollClass o = some k) :
    sequencedOp o.code = some (o, k) := by simp [sequencedOp, h]

theorem sequencedOp_some {b : BitVec 4} {o : HostOp} {k : PollClass} (h : sequencedOp b = some (o, k)) :
    b = o.code ∧ pollClass o = some k := by
  simp only [sequencedOp, Option.bind_eq_some_iff, Option.map_eq_some_iff] at h
  obtain ⟨o', ho, k', hk, he⟩ := h
  cases he
  exact ⟨code_of_ofCode ho, hk⟩

/-- Everything the acceptance of a well-formed descriptor can do (R136). -/
theorem accept_cases (o : HostOp) (a : Addr) (count : BitVec 32) (data : List Byte) (s : State) :
    (valid s.cfg o a count data = false ∧
      accept o a count data s = (loadDescriptor o a count data s).raise .invalidInput) ∨
    (valid s.cfg o a count data = true ∧ s.tpOpen = false ∧
      accept o a count data s = (loadDescriptor o a count data s).raise .transportError) ∨
    (valid s.cfg o a count data = true ∧ s.tpOpen = true ∧ pollClass o = none ∧
      accept o a count data s = stepSingle o (loadDescriptor o a count data s)) ∨
    (valid s.cfg o a count data = true ∧ s.tpOpen = true ∧ (∃ k, pollClass o = some k) ∧
      accept o a count data s = stepEnable (loadDescriptor o a count data s)) :=
  dispatch_cases o (valid s.cfg o a count data) (loadDescriptor o a count data s)

/-- The acceptance of a malformed descriptor loads the operands and ends in `INVALID_INPUT` (R136, R140). -/
theorem acceptMalformed_cases (d : Descriptor) (s : State) :
    ∃ op len w, acceptMalformed d s = (s.loadOperands op d.addr len w).raise .invalidInput := by
  unfold acceptMalformed
  split <;> exact ⟨_, _, _, rfl⟩

/-- Dispatch writes no operand register (10_state.md R21). -/
theorem dispatch_operands (o : HostOp) (ok : Bool) (s : State) : SameOperands s (dispatch o ok s) := by
  rcases dispatch_cases o ok s with ⟨_, h⟩ | ⟨_, _, h⟩ | ⟨_, _, _, h⟩ | ⟨_, _, _, h⟩ <;> rw [h]
  · constructor <;> rfl
  · constructor <;> rfl
  · unfold stepSingle
    split
    · rename_i u hx
      obtain rfl : (exchange (mainFrame o s) s).2 = u := by rw [hx]
      constructor <;> simp
    · rename_i r u hx
      obtain rfl : (exchange (mainFrame o s) s).2 = u := by rw [hx]
      unfold storeStatus
      split <;> constructor <;> simp
  · unfold stepEnable
    split
    · rename_i u hx
      obtain rfl : (exchange _ s).2 = u := by rw [hx]
      constructor <;> simp
    · rename_i r u hx
      obtain rfl : (exchange _ s).2 = u := by rw [hx]
      constructor <;> simp

/-- The one frame of a single-transaction operation, once its operands are loaded (R137). -/
theorem mainFrame_single (s : State) (a : Addr) (count : BitVec 32) (data : List Byte) (h : pollClass o = none) :
    mainFrame o (loadDescriptor o a count data s) = singleFrame s.cfg o a count := by
  cases o <;> simp [mainFrame, loadDescriptor, operandLen, pollClass, singleFrame, frame0] at h ⊢

/-- The main frame of a sequenced operation (R137). -/
theorem mainFrame_issue {b : BitVec 4} (h : sequencedOp b = some (o, k)) (s : State) :
    mainFrame o s = issueFrame s.cfg k s.addr s.wbuf := by
  obtain ⟨_, h⟩ := sequencedOp_some h
  cases o <;> simp [pollClass] at h <;> subst h <;> rfl

/-- The length of the frame of step ISSUE (30_encoding.md R90). -/
theorem issueFrame_length (c : Config) (k : PollClass) (a : Addr) (data : List Byte) :
    (issueFrame c k a data).length = 5 + (match k with
      | .program => data.length
      | .erase _ => 0) := by
  rcases k with _ | k
  · simp only [issueFrame, frame_eq, Payload.bytes, List.length_cons]
    omega
  · cases k <;> rfl

/-! ## Instructions -/

/-- A host operation's meaning is the acceptance of its row of the dispatch table (41_sequencer.md R136, R137). -/
theorem exec_host {i : Instr} {a : Addr} {count : BitVec 32} {data : List Byte}
    (h : hostOperands i = some (o, a, count, data)) (s : State) :
    exec i s = .next (s.whenReady (accept o a count data)) := by
  cases i <;> simp only [hostOperands, Option.some.injEq, Prod.mk.injEq, reduceCtorEq] at h <;>
    obtain ⟨rfl, rfl, rfl, rfl⟩ := h <;> rfl

/-- A host operation that passes validation with the transport open is its step SINGLE or ENABLE (R136). -/
theorem exec_host_valid {i : Instr} {a : Addr} {count : BitVec 32} {data : List Byte}
    (hs : s.st = .idle) (ht : s.tpOpen = true) (h : hostOperands i = some (o, a, count, data))
    (hv : valid s.cfg o a count data = true) :
    exec i s = .next (match pollClass o with
      | none => stepSingle o (loadDescriptor o a count data s)
      | some _ => stepEnable (loadDescriptor o a count data s)) := by
  rw [exec_host h, whenReady_idle _ _ hs]
  cases hp : pollClass o <;> simp [accept, dispatch, hv, loadDescriptor, State.loadOperands, ht, hp]

/-- A frame decodes to a wire command (30_encoding.md R96). -/
theorem decodeFrame_wire {c : Config} {f : List Byte} {i : Instr} (h : decodeFrame c f = .ok i) :
    hostOperands i = none := by
  have ha : ∀ {op rest mk}, (∀ a, hostOperands (mk a) = none) → decodeAddress op rest mk = .ok i →
      hostOperands i = none := by
    intro op rest mk hm h
    unfold decodeAddress at h
    split at h
    · cases h; exact hm _
    · cases h
  have hf : ∀ {op n rest j}, hostOperands j = none → decodeFillers op n rest j = .ok i → hostOperands i = none := by
    intro op n rest j hj h
    unfold decodeFillers at h
    split at h
    · cases h
    · split at h
      · cases h; exact hj
      · cases h
  unfold decodeFrame at h
  split at h
  · cases h
  · split at h
    · unfold decodeRead at h
      split at h
      · split at h
        · cases h
        · split at h
          · cases h; rfl
          · cases h
      · cases h
    split at h
    · unfold decodeProgram at h
      split at h
      · split at h
        · cases h; rfl
        · cases h
      · cases h
    repeat' split at h
    all_goals
      first
      | exact hf rfl h
      | exact ha (fun _ => rfl) h
      | cases h

/-- In IDLE an instruction is the exchange of a frame or the acceptance of an operation. -/
theorem exec_idle (i : Instr) (s : State) (h : s.st = .idle) :
    ∃ t, exec i s = .next t ∧
      ((∃ f, t = sendWire f s) ∨
        ∃ o a count data, (o = .writeByte → data.length = 1) ∧ t = accept o a count data s) := by
  cases i <;>
    simp only [exec, execWireRead, execWireProgram, execWireWren, execWireErase4K, execWireErase32K,
      execWireEraseSector, execWireEraseDie, execWireRdsr, execWireRdid, execReadByte, execReadBytes, execWriteEnable,
      execWriteByte, execWriteBytes, execErase4K, execErase32K, execEraseSector, execEraseDie, execReadStatusRegister,
      execReadChipId, whenReady_idle s _ h] <;>
    refine ⟨_, rfl, ?_⟩ <;>
    first
    | exact .inl ⟨_, rfl⟩
    | exact .inr ⟨_, _, _, _, by simp, rfl⟩

/-- While an operation is in flight an instruction is held: nothing happens (41_sequencer.md R135). -/
theorem exec_busy (i : Instr) (s : State) (h : s.st ≠ .idle) : exec i s = .next s := by
  cases i <;>
    simp only [exec, execWireRead, execWireProgram, execWireWren, execWireErase4K, execWireErase32K,
      execWireEraseSector, execWireEraseDie, execWireRdsr, execWireRdid, execReadByte, execReadBytes, execWriteEnable,
      execWriteByte, execWriteBytes, execErase4K, execErase32K, execEraseSector, execEraseDie, execReadStatusRegister,
      execReadChipId, whenReady_busy s _ h]

/-- What is presented in IDLE: an exchange, an acceptance, or the acceptance of a malformed descriptor. -/
theorem presentCommand_idle (cmd : Command) (s : State) (h : s.st = .idle) :
    ∃ t, presentCommand cmd s = .next t ∧
      ((∃ f, t = sendWire f s) ∨
        (∃ o a count data, (o = .writeByte → data.length = 1) ∧ t = accept o a count data s) ∨
        ∃ d, t = acceptMalformed d s) := by
  unfold presentCommand
  split
  · obtain ⟨t, ht, hc⟩ := exec_idle _ s h
    exact ⟨t, ht, hc.imp_right .inl⟩
  · cases cmd with
    | host d => exact ⟨_, rfl, .inr (.inr ⟨d, by simp [undecoded, whenReady_idle s _ h]⟩)⟩
    | wire f => exact ⟨_, rfl, .inl ⟨f, by simp [undecoded, whenReady_idle s _ h]⟩⟩

/-! ## The step -/

/-- While an operation is in flight and neither a reset nor the chip's completion comes first, the step is the
controller's (R149). -/
theorem step_controller (h : inOrder s.events = true) (hs : s.st ≠ .idle) : step s = controllerTurn s := by
  unfold step turn
  split <;> simp_all [inOrder]

/-- Everything a step that answers a next state can do. -/
theorem step_cases (h : step s = .next t) :
    (∃ es, s.events = .reset :: es ∧ t = (s.withEvents es).resetController) ∨
    (∃ es, s.events = .resetMidExchange :: es ∧ t = resetCutting (s.withEvents es)) ∨
    (∃ es, s.events = .powerLoss :: es ∧ t = powerLossTurn (s.withEvents es)) ∨
    (∃ es, s.events = .chipCompletes :: es ∧ t = chipTurn (s.withEvents es)) ∨
    (s.st = .idle ∧ ∃ cmd es, s.events = .present cmd :: es ∧ presentCommand cmd (s.withEvents es) = .next t) ∨
    (s.st = .idle ∧ ∃ es, s.events = .shutdown :: es ∧ t = (s.withEvents es).shutdown) ∨
    (s.st = .idle ∧ ∃ a es, s.events = .answer a :: es ∧ t = s.withEvents es) ∨
    (s.st = .idle ∧ s.events = [] ∧ t = s) ∨
    (s.st = .enableSent ∧ inOrder s.events = true ∧ ∃ o k, sequencedOp s.op = some (o, k) ∧ t = stepIssue o s) ∨
    ((s.st = .cmdIssued ∨ s.st = .polling) ∧ inOrder s.events = true ∧
      ∃ o k, sequencedOp s.op = some (o, k) ∧ t = stepPoll k s) := by
  have ctl : s.st ≠ .idle → inOrder s.events = true → controllerTurn s = .next t →
      (s.st = .enableSent ∧ inOrder s.events = true ∧ ∃ o k, sequencedOp s.op = some (o, k) ∧ t = stepIssue o s) ∨
      ((s.st = .cmdIssued ∨ s.st = .polling) ∧ inOrder s.events = true ∧
        ∃ o k, sequencedOp s.op = some (o, k) ∧ t = stepPoll k s) := by
    intro hst hio hc
    unfold controllerTurn at hc
    split at hc
    · cases hc
    · rename_i o k hop
      split at hc
      · rename_i he
        injection hc with hc
        exact .inl ⟨he, hio, o, k, hop, hc.symm⟩
      · rename_i he
        injection hc with hc
        refine .inr ⟨?_, hio, o, k, hop, hc.symm⟩
        cases hs : s.st <;> simp_all
  unfold step turn at h
  split at h
  · rename_i es he; injection h with h; exact .inl ⟨es, he, h.symm⟩
  · rename_i es he; injection h with h; exact .inr (.inl ⟨es, he, h.symm⟩)
  · rename_i es he; injection h with h; exact .inr (.inr (.inl ⟨es, he, h.symm⟩))
  · rename_i es he; injection h with h; exact .inr (.inr (.inr (.inl ⟨es, he, h.symm⟩)))
  · refine .inr (.inr (.inr (.inr ?_)))
    split at h
    · rename_i hst
      unfold hostTurn at h
      split at h
      · rename_i cmd es he; exact .inl ⟨hst, cmd, es, he, h⟩
      · rename_i es he; injection h with h; exact .inr (.inl ⟨hst, es, he, h.symm⟩)
      · rename_i a es he; injection h with h; exact .inr (.inr (.inl ⟨hst, a, es, he, h.symm⟩))
      · injection h with h
        refine .inr (.inr (.inr (.inl ⟨hst, ?_, h.symm⟩)))
        cases hev : s.events with
        | nil => rfl
        | cons e es => cases e <;> simp_all
    · rename_i hst
      have hio : inOrder s.events = true := by unfold inOrder; split <;> simp_all
      exact .inr (.inr (.inr (.inr (ctl hst hio h))))

end Sys2Proof.Machine
end

