-- ==== Sys2Proof/Laws/Step.lean ====
section
/-! SUPPORT. The step as a whole: where the chip and the trace come from, what an operation in flight holds, wire commands
against the chip, and runs. -/

namespace Sys2Proof.Machine

variable {s t : State} {o : HostOp} {k : PollClass} {f r : List Byte}

/-! ## Chip and trace of the controller's steps: those of the one exchange -/

theorem stepSingle_chip (o : HostOp) (s : State) :
    (stepSingle o s).chip = (exchange (mainFrame o s) s).2.chip ∧
    (stepSingle o s).trace = (exchange (mainFrame o s) s).2.trace := by
  unfold stepSingle
  split <;> rename_i hx <;> rw [hx]
  · exact ⟨rfl, rfl⟩
  · unfold storeStatus
    split <;> exact ⟨rfl, rfl⟩

theorem stepEnable_chip (s : State) :
    (stepEnable s).chip = (exchange (frame0 s.cfg.opcodes.wren 0) s).2.chip ∧
    (stepEnable s).trace = (exchange (frame0 s.cfg.opcodes.wren 0) s).2.trace := by
  unfold stepEnable
  split <;> rename_i hx <;> rw [hx] <;> exact ⟨rfl, rfl⟩

theorem stepIssue_chip (o : HostOp) (s : State) :
    (stepIssue o s).chip = (exchange (mainFrame o s) s).2.chip ∧
    (stepIssue o s).trace = (exchange (mainFrame o s) s).2.trace := by
  unfold stepIssue
  split <;> rename_i hx <;> rw [hx] <;> exact ⟨rfl, rfl⟩

theorem stepPoll_chip (k : PollClass) (s : State) :
    (stepPoll k s).chip = (exchange (frame0 s.cfg.opcodes.rdsr 1) s).2.chip ∧
    (stepPoll k s).trace = (exchange (frame0 s.cfg.opcodes.rdsr 1) s).2.trace := by
  rcases stepPoll_cases k s with ⟨_, h⟩ | ⟨r, b, _, _, ⟨_, h⟩ | ⟨_, _, h⟩ | ⟨_, _, h⟩⟩ <;> rw [h] <;> exact ⟨rfl, rfl⟩

/-- Acceptance leaves the chip alone or makes one exchange. -/
theorem accept_chip (o : HostOp) (a : Addr) (count : BitVec 32) (data : List Byte) (s : State) :
    ((accept o a count data s).chip = s.chip ∧ (accept o a count data s).trace = s.trace) ∨
    ∃ f, (accept o a count data s).chip = (exchange f (loadDescriptor o a count data s)).2.chip ∧
      (accept o a count data s).trace = (exchange f (loadDescriptor o a count data s)).2.trace := by
  rcases accept_cases o a count data s with ⟨_, h⟩ | ⟨_, _, h⟩ | ⟨_, _, _, h⟩ | ⟨_, _, _, h⟩ <;> rw [h]
  · exact .inl ⟨rfl, rfl⟩
  · exact .inl ⟨rfl, rfl⟩
  · exact .inr ⟨_, stepSingle_chip _ _⟩
  · exact .inr ⟨_, stepEnable_chip _⟩

/-- A step leaves chip and trace alone, cuts a frame short, loses power, is the chip's own step, or makes one exchange. -/
theorem step_chip (h : step s = .next t) :
    (t.chip = s.chip ∧ t.trace = s.trace) ∨ t.chip = faultedChip s.cfg s.draws ∨
    (t.chip = chipPowerLoss s.cfg s.draws s.chip ∧ t.trace = s.trace) ∨
    t.chip = chipComplete s.cfg s.draws s.chip ∨
    ∃ u f, u.chip = s.chip ∧ u.trace = s.trace ∧ u.cfg = s.cfg ∧ t.chip = (exchange f u).2.chip ∧
      t.trace = (exchange f u).2.trace := by
  rcases step_cases h with ⟨es, _, rfl⟩ | ⟨es, _, rfl⟩ | ⟨es, _, rfl⟩ | ⟨es, _, rfl⟩ | ⟨hs, cmd, es, _, hp⟩ | ⟨_, es, _, rfl⟩ |
    ⟨_, a, es, _, rfl⟩ | ⟨_, _, rfl⟩ | ⟨_, _, o, k, _, rfl⟩ | ⟨_, _, o, k, _, rfl⟩
  · exact .inl ⟨rfl, rfl⟩
  · simp only [resetCutting_chip]
    split
    · exact .inr (.inl rfl)
    · exact .inl ⟨rfl, rfl⟩
  · exact .inr (.inr (.inl ⟨rfl, rfl⟩))
  · exact .inr (.inr (.inr (.inl rfl)))
  · obtain ⟨t', ht', hc⟩ := presentCommand_idle cmd (s.withEvents es) hs
    rw [hp] at ht'
    cases ht'
    rcases hc with ⟨f, rfl⟩ | ⟨o, a, count, data, _, rfl⟩ | ⟨d, rfl⟩
    · exact .inr (.inr (.inr (.inr ⟨s.withEvents es, f, rfl, rfl, rfl, rfl, rfl⟩)))
    · rcases accept_chip o a count data (s.withEvents es) with h | ⟨f, h⟩
      · exact .inl h
      · exact .inr (.inr (.inr (.inr ⟨loadDescriptor o a count data (s.withEvents es), f, rfl, rfl, rfl, h.1, h.2⟩)))
    · obtain ⟨_, _, _, h⟩ := acceptMalformed_cases d (s.withEvents es)
      rw [h]
      exact .inl ⟨rfl, rfl⟩
  · exact .inl ⟨rfl, rfl⟩
  · exact .inl ⟨rfl, rfl⟩
  · exact .inl ⟨rfl, rfl⟩
  · exact .inr (.inr (.inr (.inr ⟨s, _, rfl, rfl, rfl, stepIssue_chip _ _⟩)))
  · exact .inr (.inr (.inr (.inr ⟨s, _, rfl, rfl, rfl, stepPoll_chip _ _⟩)))

/-! ## Operations in flight -/

/-- What the invariant says of an operation in flight, part by part. -/
theorem inFlightSound_parts (h : inFlightSound s = true) :
    ∃ o k, sequencedOp s.op = some (o, k) ∧ heldOperands o s = true ∧ s.resStatus = .noResult ∧ s.resData = [] ∧
      s.tpOpen = true ∧ pollSound s = true ∧
      (s.st = .enableSent ∨ ∀ m, maxPolls s.cfg k = some m → s.pollCnt < m) := by
  unfold inFlightSound at h
  split at h
  · cases h
  · rename_i o k ho
    simp only [Bool.and_eq_true, decide_eq_true_eq, List.isEmpty_iff, Bool.or_eq_true, beq_iff_eq] at h
    obtain ⟨⟨⟨⟨⟨h1, h2⟩, h3⟩, h4⟩, h5⟩, h6⟩ := h
    refine ⟨o, k, ho, h1, h2, h3, h4, h5, h6.imp_right fun h m hm => ?_⟩
    simpa [hm] using h

/-- An operation stays soundly in flight while its operands, its empty result and its poll count do. -/
theorem inFlightSound_of_same (hs : inFlightSound s = true) (ho : sequencedOp s.op = some (o, k))
    (h : SameOperands s t) (hr : t.resStatus = s.resStatus) (hd : t.resData = s.resData) (hp : pollSound t = true)
    (hb : t.st = .enableSent ∨ ∀ m, maxPolls s.cfg k = some m → t.pollCnt < m) : inFlightSound t = true := by
  unfold inFlightSound at hs ⊢
  rw [h.op, ho]
  rw [ho] at hs
  simp only [Bool.and_eq_true] at hs ⊢
  have hh : heldOperands o t = heldOperands o s := by
    unfold heldOperands
    rw [h.cfg, h.addr, h.wbuf]
  rw [hh, hr, hd, h.tpOpen, h.cfg]
  refine ⟨⟨hs.1.1, hp⟩, ?_⟩
  rcases hb with hb | hb
  · simp [hb]
  · cases hm : maxPolls s.cfg k with
    | none => simp
    | some m => simp [hb m hm]

/-- `MAX_POLLS[c]` is 1 or more (00_scope.md R7). -/
theorem maxPolls_pos {c : Config} (h : c.wf = true) (k : PollClass) (m : Nat) (hm : maxPolls c k = some m) : 1 ≤ m := by
  simp only [Config.wf, Bool.and_eq_true, decide_eq_true_eq, PollConfig.wf] at h
  obtain ⟨⟨⟨⟨⟨⟨⟨_, h1⟩, h2⟩, h3⟩, h4⟩, h5⟩, _⟩, _⟩ := h
  rcases k with _ | k
  · simp only [maxPolls, pollConfig] at hm
    simpa [hm] using h1
  · cases k <;> simp only [maxPolls, pollConfig] at hm
    · simpa [hm] using h2
    · simpa [hm] using h3
    · simpa [hm] using h4
    · simpa [hm] using h5

/-! ## Exchanges and the chip -/

/-- `CHIP_FAULT` survives an exchange (20_memory.md R75). -/
theorem exchange_fault (f : List Byte) (h : s.chip.fault = true) : (exchange f s).2.chip.fault = true := by
  have ta : (takeAnswer s).2.chip.fault = true := by
    unfold takeAnswer
    split
    · exact h
    · dsimp only
      split
      · simp [chipComplete, h, faultedChip]
      · exact h
  unfold exchange
  split
  · dsimp only
    split
    · simp [chipReceive, ta, faultedChip]
    · exact ta
  · exact h

/-- A transport that answered `Ok` was open (10_state.md R31). -/
theorem exchange_ok_open (h : (exchange f s).1 = .ok r) : s.tpOpen = true := by
  cases ho : s.tpOpen with
  | false => rw [exchange_closed ho] at h; cases h
  | true => rfl

/-- An exchange some other environment answers with a response of the right length (40_framer.md R127). -/
theorem exchange_bytes {b : Bool} {es : List Event} (ho : s.tpOpen = true) (he : s.events = .answer (.bytes b r) :: es)
    (hm : tooLong s.cfg f = false) (hl : r.length = f.length) :
    ∃ chip, exchange f s =
      (.ok r, { s with events := es, draws := s.draws + 1, chip := chip, trace := s.trace ++ [(f, .ok r)] }) := by
  rw [exchange_scripted ho he]
  have : answerResult s.cfg s.draws s.chip f (.bytes b r) = .ok r := by simp [answerResult, hm, hl]
  rw [this]
  exact ⟨_, rfl⟩

/-- A frame on the transport port that the chip answers and that does not fault: the command's response and effect, and
no register of the controller changed. -/
theorem sendWire_clean {junk : List Byte} {es : List Event} {cmd : ChipCommand} (ht : s.tpOpen = true)
    (he : s.events = .answer (.chip junk) :: es) (hl : tooLong s.cfg f = false) (hf : s.chip.fault = false)
    (hff : frameFaults s.cfg s.chip f = false) (hcmd : chipCommand s.cfg f = cmd) :
    WireDone s (sendWire f s) f (commandResponse s.cfg junk s.draws s.chip f.length cmd) es ∧
    (sendWire f s).chip = commandEffect s.cfg s.chip cmd := by
  have hx := exchange_clean ht he hl hf hff
  subst hcmd
  refine ⟨⟨⟨?_, ?_, ?_, ?_, ?_, ?_, ?_, ?_, ?_, ?_, ?_⟩, ?_, ?_, commandResponse_length junk _ _ _⟩, ?_⟩ <;>
    simp [sendWire, hx]

/-! ## Runs -/

theorem runs_trans {a b : Nat} {u : State} (h1 : runs a s t) (h2 : runs b t u) : runs (a + b) s u := by
  induction a generalizing s with
  | zero => cases h1; simpa using h2
  | succ a ih =>
    obtain ⟨v, hv, hr⟩ := h1
    rw [Nat.add_right_comm]
    exact ⟨v, hv, ih hr⟩

end Sys2Proof.Machine
end

