-- ==== Sys2Proof/Tests/Slice0.lean ====
section
/-! SUPPORT. Tests: the checks of WellFormed, the words of every instruction, one step of every instruction against
95_test_vectors.md, and a witness for the hypotheses of every statement. Expected values are those of the vectors. -/

namespace Sys2Proof.Tests

open Sys2Proof.Machine

/-! ## Small states -/

/-- An idle controller with `es` to come; the registers no vector reads are zero. -/
def idle (es : List Event) : State :=
  { State.reset with op := 0, addr := 0, len := 0, wbuf := [], pollCnt := 0, events := es }

/-- An idle controller whose chip has the array `m` and the latch `wel`. -/
def idleChip (m : Memory) (wel : Bool) (es : List Event) : State :=
  { idle es with chip := ⟨m, false, wel, false, false⟩ }

/-- The operation `o` in flight, the chip's `WIP` and `HOLD` as given, the latch set. -/
def flying (st : SeqState) (o : HostOp) (a : Addr) (buf : List Byte) (polls : Nat) (wip hold : Bool)
    (es : List Event) : State :=
  { idle es with
    st := st, op := o.code, addr := a, wbuf := buf, pollCnt := polls
    srLast := if polls = 0 then none else some 0x03
    chip := ⟨[], wip, true, hold, false⟩ }

/-- The chip answers, with these bytes where no rule defines the response (vector RD2). -/
def ans : Event := .answer (.chip [0xAA, 0xBB, 0xCC, 0xDD, 0xEE])

/-- The exchange fails; whether the chip handled the frame. -/
def fails (reached : Bool) : Event := .answer (.err reached)

/-- Another environment answers. -/
def bytes (r : List Byte) : Event := .answer (.bytes true r)

def hello : List Byte := [0x48, 0x65, 0x6C, 0x6C, 0x6F, 0x20, 0x4D, 0x4D, 0x4A]

/-- "Hello MMJ" at 0x00123400 (vector RD3). -/
def helloMem : Memory :=
  [(0x123400, 0x48), (0x123401, 0x65), (0x123402, 0x6C), (0x123403, 0x6C), (0x123404, 0x6F), (0x123405, 0x20),
   (0x123406, 0x4D), (0x123407, 0x4D), (0x123408, 0x4A)]

/-- What a test looks at in the next state. -/
def look {α : Type} (f : State → α) : Host.Outcome State Fault Refusal → Option α
  | .next s => some (f s)
  | .fault _ => none
  | .refused _ => none

def result (s : State) : SeqState × ResStatus × List Byte := (s.st, s.resStatus, s.resData)

/-- The frames sent. -/
def sent (s : State) : List (List Byte) := s.trace.map Prod.fst

def noDecode (c : Config) (cmd : Command) : Bool :=
  match decode c cmd with
  | .ok _ => false
  | .error _ => true

/-! ## WellFormed refuses -/

theorem test_wf_program_empty : Instr.wf Config.default (.wireProgram 0 []) = false := by decide

theorem test_wf_program_too_long :
    Instr.wf { Config.default with pageSize := 4 } (.wireProgram 0 [1, 2, 3, 4, 5]) = false := by decide

theorem test_wf_program_full_page :
    Instr.wf { Config.default with pageSize := 4 } (.wireProgram 0 [1, 2, 3, 4]) = true := by decide

theorem test_wf_read_too_long : Instr.wf Config.default (.wireRead 0 (2 ^ 32)) = false := by decide

theorem test_wf_config_default : Config.default.wf = true := by decide

theorem test_wf_config_opcodes :
    Config.wf { Config.default with opcodes := { Opcodes.default with rdid := 0x05 } } = false := by decide

theorem test_wf_config_page : Config.wf { Config.default with pageSize := 0 } = false := by decide

theorem test_wf_config_flash_zero : Config.wf { Config.default with flashSize := 0 } = false := by decide

theorem test_wf_config_flash_big : Config.wf { Config.default with flashSize := 2 ^ 32 + 1 } = false := by decide

theorem test_wf_config_sector : Config.wf { Config.default with sectorSize := 65535 } = false := by decide

theorem test_wf_config_die : Config.wf { Config.default with dieSize := 0 } = false := by decide

theorem test_wf_config_id_len : Config.wf { Config.default with idLen := 0, chipId := [] } = false := by decide

theorem test_wf_config_poll_program :
    Config.wf { Config.default with pollProgram := ⟨some 0, 0⟩ } = false := by decide

theorem test_wf_config_poll_4k : Config.wf { Config.default with pollErase4K := ⟨some 0, 0⟩ } = false := by decide

theorem test_wf_config_poll_32k : Config.wf { Config.default with pollErase32K := ⟨some 0, 0⟩ } = false := by decide

theorem test_wf_config_poll_sector :
    Config.wf { Config.default with pollEraseSector := ⟨some 0, 0⟩ } = false := by decide

theorem test_wf_config_poll_die : Config.wf { Config.default with pollEraseDie := ⟨some 0, 0⟩ } = false := by decide

theorem test_wf_config_max_frame : Config.wf { Config.default with maxFrame := some 0 } = false := by decide

theorem test_wf_config_chip_id : Config.wf { Config.default with chipId := [0x20] } = false := by decide

/-! ## Words (30_encoding.md R90, R91, R96, R101, R104; vectors F1 to F12) -/

theorem test_word_read :
    decode Config.default (.wire [0x13, 0x00, 0x12, 0x34, 0x00, 0x00]) = .ok (.wireRead 0x00123400 1) := by decide

theorem test_word_program :
    decode Config.default (.wire [0x12, 0x01, 0x02, 0x03, 0x04, 0xAA, 0x55]) = .ok (.wireProgram 0x01020304 [0xAA, 0x55]) := by decide

theorem test_word_wren : decode Config.default (.wire [0x06]) = .ok (.wireWren) := by decide

theorem test_word_erase_4k :
    decode Config.default (.wire [0x21, 0x00, 0x12, 0x30, 0x00]) = .ok (.wireErase4K 0x00123000) := by decide

theorem test_word_erase_32k :
    decode Config.default (.wire [0x5C, 0x00, 0x12, 0x30, 0x00]) = .ok (.wireErase32K 0x00123000) := by decide

theorem test_word_erase_sector :
    decode Config.default (.wire [0xDC, 0x80, 0x00, 0x00, 0x00]) = .ok (.wireEraseSector 0x80000000) := by decide

theorem test_word_erase_die :
    decode Config.default (.wire [0xC4, 0x00, 0x00, 0x00, 0x00]) = .ok (.wireEraseDie 0) := by decide

theorem test_word_rdsr : decode Config.default (.wire [0x05, 0x00]) = .ok (.wireRdsr) := by decide

theorem test_word_rdid : decode Config.default (.wire [0x9F, 0x00, 0x00, 0x00]) = .ok (.wireRdid) := by decide

theorem test_word_readByte :
    decode Config.default (.host ⟨0, 0x00123400, 7, [1]⟩) = .ok (.readByte 0x00123400) := by decide

theorem test_word_readBytes :
    decode Config.default (.host ⟨1, 0x00123400, 9, []⟩) = .ok (.readBytes 0x00123400 9) := by decide

theorem test_word_writeEnable : decode Config.default (.host ⟨2, 5, 7, [1]⟩) = .ok (.writeEnable 5) := by decide

theorem test_word_writeByte :
    decode Config.default (.host ⟨3, 0x20, 0, [0x3C]⟩) = .ok (.writeByte 0x20 0x3C) := by decide

theorem test_word_writeBytes :
    decode Config.default (.host ⟨4, 0xF8, 0, [1, 2]⟩) = .ok (.writeBytes 0xF8 [1, 2]) := by decide

theorem test_word_erase4K :
    decode Config.default (.host ⟨5, 0x00123000, 0, []⟩) = .ok (.erase4K 0x00123000) := by decide

theorem test_word_erase32K :
    decode Config.default (.host ⟨6, 0x00123000, 0, []⟩) = .ok (.erase32K 0x00123000) := by decide

theorem test_word_eraseSector :
    decode Config.default (.host ⟨7, 0x00123000, 0, []⟩) = .ok (.eraseSector 0x00123000) := by decide

theorem test_word_eraseDie : decode Config.default (.host ⟨8, 0, 0, []⟩) = .ok (.eraseDie 0) := by decide

theorem test_word_readStatusRegister :
    decode Config.default (.host ⟨9, 0, 0, []⟩) = .ok (.readStatusRegister 0) := by decide

theorem test_word_readChipId : decode Config.default (.host ⟨10, 0, 0, []⟩) = .ok (.readChipId 0) := by decide

theorem test_word_reserved_code : noDecode Config.default (.host ⟨11, 0, 0, []⟩) = true := by decide

theorem test_word_writeByte_two_bytes : noDecode Config.default (.host ⟨3, 0, 0, [0x11, 0x22]⟩) = true := by decide

theorem test_word_unknown_opcode : noDecode Config.default (.wire [0x00]) = true := by decide

theorem test_word_erase_length :
    noDecode Config.default (.wire [0x21, 0x00, 0x12, 0x30, 0x00, 0x00]) = true := by decide

theorem test_word_filler : noDecode Config.default (.wire [0x05, 0x01]) = true := by decide

theorem test_word_more_than_a_page :
    noDecode { Config.default with pageSize := 4 } (.wire [0x12, 0, 0, 0, 0, 1, 2, 3, 4, 5]) = true := by decide

theorem test_frame_big_endian : frame 0x13 0xDEADBEEF (.fill 1) = [0x13, 0xDE, 0xAD, 0xBE, 0xEF, 0x00] := by decide

theorem test_frame_small_address : frame 0x13 0x00000005 (.fill 3) = [0x13, 0, 0, 0, 5, 0, 0, 0] := by decide

theorem test_table_word_wire : decodeTableWord 8 0x9F = some .wireRdid := by decide

theorem test_table_word_host : decodeTableWord 4 0x5 = some (.erase4K 0) := by decide

/-! ## Host operations, one step -/

/-- RD1, RD2. -/
theorem test_readByte :
    look result (exec (.readByte 0x00123400) (idleChip helloMem false [ans])) = some (.idle, .ok, [0x48]) := by decide

/-- RD3. -/
theorem test_readBytes :
    look result (exec (.readBytes 0x00123400 9) (idleChip helloMem false [ans])) = some (.idle, .ok, hello) := by decide

/-- RD6. -/
theorem test_readBytes_order :
    look (fun s => (s.resData, sent s)) (exec (.readBytes 0x01FFFFFE 2)
      (idleChip [(0x01FFFFFE, 0x12), (0x01FFFFFF, 0x34)] false [ans])) =
      some ([0x12, 0x34], [[0x13, 0x01, 0xFF, 0xFF, 0xFE, 0x00, 0x00]]) := by decide

/-- V2. -/
theorem test_readByte_range :
    look (fun s => (result s, sent s)) (exec (.readByte 0x02000000) (idle [ans])) = some ((.idle, .invalidInput, []), []) := by decide

/-- V7. -/
theorem test_readBytes_no_wrap :
    look result (exec (.readBytes 0xFFFFFFFF 0xFFFFFFFF) (idle [ans])) = some (.idle, .invalidInput, []) := by decide

/-- W1. -/
theorem test_writeEnable :
    look (fun s => (result s, s.chip.wel, s.chip.wip)) (exec (.writeEnable 0) (idle [ans])) =
      some ((.idle, .ok, []), true, false) := by decide

/-- W6, first exchange. -/
theorem test_writeByte_accepted :
    look (fun s => (s.st, s.wbuf, s.len, sent s)) (exec (.writeByte 0x20 0x3C) (idle [ans])) =
      some (.enableSent, [0x3C], 1, [[0x06]]) := by decide

/-- W8. -/
theorem test_writeByte_wren_fails :
    look (fun s => (result s, sent s)) (exec (.writeByte 0x20 0x00) (idle [fails false])) =
      some ((.idle, .transportError, []), [[0x06]]) := by decide

/-- P1, exchange 5. -/
theorem test_writeBytes_accepted :
    look (fun s => (s.st, s.op, s.len, s.wbuf)) (exec (.writeBytes 0x00123400 hello) (idle [ans])) =
      some (.enableSent, 4, 9, hello) := by decide

/-- V10. -/
theorem test_writeBytes_crosses_page :
    look (fun s => (result s, s.len)) (exec (.writeBytes 0xF8 [0, 1, 2, 3, 4, 5, 6, 7, 8]) (idle [ans])) =
      some ((.idle, .invalidInput, []), 9) := by decide

/-- P1, exchange 1. -/
theorem test_erase4K_accepted :
    look (fun s => (s.st, s.op, s.addr, s.chip.wel)) (exec (.erase4K 0x00123000) (idle [ans])) =
      some (.enableSent, 5, 0x00123000, true) := by decide

/-- V21. -/
theorem test_erase4K_range :
    look result (exec (.erase4K 0x02000000) (idle [ans])) = some (.idle, .invalidInput, []) := by decide

theorem test_erase32K_accepted :
    look (fun s => (s.st, s.op)) (exec (.erase32K 0x01FFFFFF) (idle [ans])) = some (.enableSent, 6) := by decide

theorem test_eraseSector_accepted :
    look (fun s => (s.st, s.op)) (exec (.eraseSector 0x00120000) (idle [ans])) = some (.enableSent, 7) := by decide

theorem test_eraseDie_accepted :
    look (fun s => (s.st, s.op)) (exec (.eraseDie 0) (idle [ans])) = some (.enableSent, 8) := by decide

/-- I3. -/
theorem test_readStatusRegister :
    look (fun s => (s.resData, s.srLast, s.busyOut, s.welOut))
      (exec (.readStatusRegister 0) (idleChip [] true [ans])) = some ([0x02], some 0x02, some false, some true) := by decide

/-- I5. -/
theorem test_readStatusRegister_high_bits :
    look (fun s => s.resData) (exec (.readStatusRegister 0)
      { idle [ans] with cfg := { Config.default with srHi := 0x27 } }) = some [0x9C] := by decide

/-- I6. -/
theorem test_readChipId :
    look (fun s => (s.resData, s.srLast, sent s)) (exec (.readChipId 0) (idle [ans])) =
      some ([0x20, 0xBA, 0x19], none, [[0x9F, 0x00, 0x00, 0x00]]) := by decide

/-- Z4. -/
theorem test_readChipId_closed :
    look (fun s => (result s, sent s)) (exec (.readChipId 0) { idle [ans] with tpOpen := false }) =
      some ((.idle, .transportError, []), []) := by decide

/-! ## The controller's own steps -/

/-- P1, exchange 2. -/
theorem test_issue_erase :
    look (fun s => (s.st, s.chip.wip, s.chip.hold, sent s))
      (step (flying .enableSent .erase4K 0x00123000 [] 0 false false [ans])) =
      some (.cmdIssued, true, true, [[0x21, 0x00, 0x12, 0x30, 0x00]]) := by decide

/-- W6: `0xF0 & 0x3C`. -/
theorem test_issue_program :
    look (fun s => (s.st, Memory.read s.chip.mem 0x20, sent s))
      (step { flying .enableSent .writeByte 0x20 [0x3C] 0 false false [ans] with
        chip := ⟨[(0x20, 0xF0)], false, true, false, false⟩ }) =
      some (.cmdIssued, 0x30, [[0x12, 0x00, 0x00, 0x00, 0x20, 0x3C]]) := by decide

/-- P1, exchange 3. -/
theorem test_poll_busy :
    look (fun s => (s.st, s.pollCnt, s.srLast, s.chip.hold))
      (step (flying .cmdIssued .erase4K 0x00123000 [] 0 true true [ans])) = some (.polling, 1, some 0x03, false) := by decide

/-- Q5. -/
theorem test_poll_only_bit_0 :
    look (fun s => (result s, s.pollCnt, s.srLast)) (step (flying .cmdIssued .writeByte 0 [0] 0 true false
      [bytes [0x00, 0xFE]])) = some ((.idle, .ok, []), 0, some 0xFE) := by decide

/-- Q3, the fourth reading. -/
theorem test_poll_timeout :
    look (fun s => (result s, s.pollCnt, s.srLast)) (step (flying .polling .writeByte 0 [0] 3 true false
      [bytes [0x00, 0x03]])) = some ((.idle, .busyTimeout, []), 4, some 0x03) := by decide

/-- Q7. -/
theorem test_poll_fails :
    look (fun s => (result s, s.pollCnt, s.srLast)) (step (flying .polling .writeByte 0 [0] 1 true false
      [fails true])) = some ((.idle, .transportError, []), 1, some 0x03) := by decide

/-- V29. -/
theorem test_request_held :
    look (fun s => (s.st, s.events)) (step (flying .polling .writeByte 0 [0] 1 true false
      [bytes [0x00, 0x03], .present (.host ⟨9, 0, 0, []⟩)])) =
      some (.polling, [.present (.host ⟨9, 0, 0, []⟩)]) := by decide

/-- V22. -/
theorem test_malformed :
    look (fun s => (result s, s.op)) (step (idle [.present (.host ⟨11, 0, 0, []⟩), ans])) =
      some ((.idle, .invalidInput, []), 11) := by decide

/-- Z2. -/
theorem test_reset_in_flight :
    look (fun s => (result s, s.srLast, s.tpOpen, s.chip.wip))
      (step (flying .polling .erase4K 0 [] 1 true false [.reset])) =
      some ((.idle, .noResult, []), none, true, true) := by decide

/-- R204, R210: power is lost in the middle of an erase; the array is kept. -/
theorem test_power_loss :
    look (fun s => (result s, s.srLast, s.tpOpen, Memory.read s.chip.mem 0x123400))
      (step { flying .polling .erase4K 0 [] 1 true false [.powerLoss] with chip := ⟨helloMem, true, true, false, false⟩ }) =
      some ((.idle, .noResult, []), none, true, 0x48) := by decide

/-- R211, 20_memory.md R74: the cut frame faults the chip. -/
theorem test_reset_mid_exchange :
    look (fun s => (result s, s.chip.fault)) (step (flying .polling .erase4K 0 [] 1 true false [.resetMidExchange])) =
      some ((.idle, .noResult, []), true) := by decide

/-- Z3. -/
theorem test_shutdown : look (fun s => (s.tpOpen, s.trace)) (step (idle [.shutdown])) = some (false, []) := by decide

/-- P1, after exchange 3. -/
theorem test_completion :
    look (fun s => (s.chip.wip, s.chip.wel)) (step (flying .polling .erase4K 0 [] 1 true false [.chipCompletes])) =
      some (false, false) := by decide

/-- P2. -/
theorem test_split :
    splitWrite Config.default 0xF8 [0, 1, 2, 3, 4, 5, 6, 7, 8, 9, 10, 11, 12, 13, 14, 15] =
      [.writeBytes 0xF8 [0, 1, 2, 3, 4, 5, 6, 7], .writeBytes 0x100 [8, 9, 10, 11, 12, 13, 14, 15]] := by decide

/-- 30_encoding.md R108 (b). -/
theorem test_split_read : splitRead 256 0x10 300 = [.readBytes 0x10 256, .readBytes 0x110 44] := by decide

/-! ## Wire commands, one exchange -/

/-- 20_memory.md R69; the first five bytes as in RD2. -/
theorem test_wire_read :
    look (fun s => s.trace.map fun e => e.2) (exec (.wireRead 0x00123400 2) (idleChip helloMem false [ans])) =
      some [.ok [0xAA, 0xBB, 0xCC, 0xDD, 0xEE, 0x48, 0x65]] := by decide

/-- W10. -/
theorem test_wire_program_wraps :
    look (fun s => [0xFE, 0xFF, 0x00, 0x01, 0x100, 0x101].map (Memory.read s.chip.mem))
      (exec (.wireProgram 0xFE [0x01, 0x02, 0x03, 0x04]) (idleChip [] true [ans])) =
      some [0x01, 0x02, 0x03, 0x04, 0xFF, 0xFF] := by decide

/-- W11. -/
theorem test_wire_program_latch_clear :
    look (fun s => s.chip) (exec (.wireProgram 0x20 [0x00]) (idleChip [] false [ans])) =
      some ⟨[], false, false, false, false⟩ := by decide

/-- 20_memory.md R67. -/
theorem test_wire_wren :
    look (fun s => (s.chip, s.resStatus)) (exec .wireWren (idleChip [] false [ans])) =
      some (⟨[], false, true, false, false⟩, .noResult) := by decide

/-- E2. -/
theorem test_wire_erase_4k :
    look (fun s => (s.chip.mem, s.chip.wip)) (exec (.wireErase4K 0x00123456)
      (idleChip [(0x122FFF, 1), (0x123000, 2), (0x123FFF, 3), (0x124000, 4)] true [ans])) =
      some ([(0x122FFF, 1), (0x124000, 4)], true) := by decide

/-- E11. -/
theorem test_wire_erase_4k_latch_clear :
    look (fun s => s.chip) (exec (.wireErase4K 0x00123000) (idleChip [(0x123000, 2)] false [ans])) =
      some ⟨[(0x123000, 2)], false, false, false, false⟩ := by decide

/-- E8. -/
theorem test_wire_erase_cut :
    look (fun s => s.chip.mem) (exec (.wireErase4K 0x00123000)
      { idleChip [(0x122FFF, 1), (0x1237FF, 2)] true [ans] with cfg := { Config.default with flashSize := 0x123800 } }) =
      some [(0x122FFF, 1)] := by decide

/-- E3. -/
theorem test_wire_erase_32k :
    look (fun s => s.chip.mem) (exec (.wireErase32K 0x00123000)
      (idleChip [(0x11FFFF, 1), (0x120000, 2), (0x127FFF, 3), (0x128000, 4)] true [ans])) =
      some [(0x11FFFF, 1), (0x128000, 4)] := by decide

/-- E4. -/
theorem test_wire_erase_sector :
    look (fun s => s.chip.mem) (exec (.wireEraseSector 0x00123000)
      (idleChip [(0x11FFFF, 1), (0x120000, 2), (0x12FFFF, 3), (0x130000, 4)] true [ans])) =
      some [(0x11FFFF, 1), (0x130000, 4)] := by decide

/-- E5. -/
theorem test_wire_erase_die :
    look (fun s => s.chip.mem) (exec (.wireEraseDie 0) (idleChip [(0, 1), (0x1FFFFFF, 2)] true [ans])) = some [] := by decide

/-- I4; a frame on the transport port writes no register (log 14). -/
theorem test_wire_rdsr :
    look (fun s => (s.trace.map fun e => e.2, s.srLast, s.chip.hold))
      (exec .wireRdsr { idle [ans] with chip := ⟨[], true, true, true, false⟩ }) = some ([.ok [0xAA, 0x03]], none, false) := by decide

/-- I6. -/
theorem test_wire_rdid :
    look (fun s => s.trace.map fun e => e.2) (exec .wireRdid (idle [ans])) = some [.ok [0xAA, 0x20, 0xBA, 0x19]] := by decide

/-- P3, the variant: `READ` at a busy chip. -/
theorem test_busy_chip_faults :
    look (fun s => s.chip.fault) (exec (.wireRead 0 1) { idle [ans] with chip := ⟨[], true, true, false, false⟩ }) =
      some true := by decide

/-- 70_reset_and_hazards.md R229, the first two frames of P1. -/
theorem test_frame_clocks : traceClocks [([0x06], .err), ([0x21, 0x00, 0x12, 0x30, 0x00], .err)] = 48 := by decide
/-! ## Witnesses: concrete data that meet the hypotheses of each statement -/

theorem idle_inv (es : List Event) : Inv (idle es) :=
  ⟨show Config.default.wf = true by decide, rfl, fun h => absurd rfl h, fun _ => rfl⟩

/-- An idle controller with a legal configuration and an open transport to an idle chip, `es` to come. -/
abbrev Ready (s : State) (es : List Event) : Prop :=
  s.cfg.wf = true ∧ s.st = .idle ∧ s.tpOpen = true ∧ s.chip.fault = false ∧ s.chip.wip = false ∧ s.events = es

theorem witness_FrameHeadDeterminesOperands :
    frame 0x13 0xFFFFFFFF (.fill 1) = frame 0x13 0xFFFFFFFF (.data [0x00]) := by decide

/-- The longest read, and a full page of a small configuration. -/
theorem witness_DecodeOfEncodeIsTheInstruction :
    Config.default.wf = true ∧ Instr.wf Config.default (.wireRead 0xFFFFFFFF (2 ^ 32 - 1)) = true ∧
    Config.wf { Config.default with pageSize := 2 } = true ∧
    Instr.wf { Config.default with pageSize := 2 } (.wireProgram 0 [1, 2]) = true := by decide

theorem witness_EncodeOfDecodedFrameIsTheFrame :
    decodeFrame Config.default [0x13, 0, 0, 0, 0] = .ok (.wireRead 0 0) ∧
    decodeFrame Config.default [0x12, 0xFF, 0xFF, 0xFF, 0xFF, 1] = .ok (.wireProgram 0xFFFFFFFF [1]) := by decide

theorem witness_DescriptorDecodesByItsCode :
    decode Config.default (.host ⟨1, 0, 5, []⟩) = .ok (.readBytes 0 5) ∧
    decode Config.default (.host ⟨3, 0, 0, [1]⟩) = .ok (.writeByte 0 1) ∧
    decode Config.default (.host ⟨4, 0, 0, []⟩) = .ok (.writeBytes 0 []) ∧
    malformed ⟨11, 0, 0, []⟩ = true ∧ malformed ⟨10, 0, 0, []⟩ = false ∧ malformed ⟨3, 0, 0, []⟩ = true := by decide

theorem witness_StepRunsTheDecodedInstruction :
    Ready (idle [.present (.wire [0x9F, 0, 0, 0]), ans]) [.present (.wire [0x9F, 0, 0, 0]), ans] ∧
    decode Config.default (.wire [0x9F, 0, 0, 0]) = .ok .wireRdid := by decide

theorem witness_BusyControllerHoldsRequests :
    (∃ t, step (flying .polling .writeByte 0 [0] 1 true false [.present (.wire [0x06])]) = .next t) ∧
    (∃ t, step (flying .enableSent .writeByte 0 [0] 0 false false [.shutdown]) = .next t) :=
  ⟨⟨_, rfl⟩, ⟨_, rfl⟩⟩

/-- One past the array, a payload one byte over the page, the two malformed descriptors. -/
theorem witness_RejectionSendsNothing :
    Ready (idle []) [] ∧ hostOperands (.readByte 0x02000000) = some (.readByte, 0x02000000, 0, []) ∧
    valid Config.default .readByte 0x02000000 0 [] = false ∧
    valid Config.default .writeBytes 0xFF 0 [0x11, 0x22] = false ∧
    Ready (idle [.present (.host ⟨15, 0, 0, []⟩)]) [.present (.host ⟨15, 0, 0, []⟩)] ∧ malformed ⟨15, 0, 0, []⟩ = true ∧
    malformed ⟨3, 0, 0, [0x11, 0x22]⟩ = true := by decide

/-- V25 and V26. -/
theorem witness_ClosedTransportEndsOperations :
    ({ idle [] with tpOpen := false }).st = .idle ∧ ({ idle [] with tpOpen := false }).tpOpen = false ∧
    hostOperands (.readByte 0x02000000) = some (.readByte, 0x02000000, 0, []) ∧ valid Config.default .readByte 0x02000000 0 [] = false ∧
    valid Config.default .readByte 0x01FFFFFF 0 [] = true := by decide

/-- Each of the five operations with `Ok`, and a failure. -/
theorem witness_SingleTransactionFollowsItsExchange :
    Ready (idle []) [] ∧ hostOperands (.readBytes 0x01FFFFF0 16) = some (.readBytes, 0x01FFFFF0, 16, []) ∧
    pollClass .readBytes = none ∧ valid Config.default .readBytes 0x01FFFFF0 16 [] = true ∧
    (∃ t, exchange (singleFrame Config.default .readByte 0x01FFFFFF 0)
      (loadDescriptor .readByte 0x01FFFFFF 0 [] (idle [bytes [1, 2, 3, 4, 5, 6]])) = (.ok [1, 2, 3, 4, 5, 6], t)) ∧
    (∃ t, exchange (singleFrame Config.default .readBytes 0 0)
      (loadDescriptor .readBytes 0 0 [] (idle [bytes [1, 2, 3, 4, 5]])) = (.ok [1, 2, 3, 4, 5], t)) ∧
    (∃ t, exchange (singleFrame Config.default .writeEnable 0 0)
      (loadDescriptor .writeEnable 0 0 [] (idle [bytes [1]])) = (.ok [1], t)) ∧
    (∃ t, exchange (singleFrame Config.default .readStatusRegister 0 0)
      (loadDescriptor .readStatusRegister 0 0 [] (idle [bytes [1, 2]])) = (.ok [1, 2], t)) ∧
    (∃ t, exchange (singleFrame Config.default .readChipId 0 0)
      (loadDescriptor .readChipId 0 0 [] (idle [bytes [1, 2, 3, 4]])) = (.ok [1, 2, 3, 4], t)) ∧
    (∃ t, exchange (singleFrame Config.default .readChipId 0 0)
      (loadDescriptor .readChipId 0 0 [] (idle [fails true])) = (.err, t)) :=
  ⟨by decide, rfl, rfl, by decide, ⟨_, rfl⟩, ⟨_, rfl⟩, ⟨_, rfl⟩, ⟨_, rfl⟩, ⟨_, rfl⟩, ⟨_, rfl⟩⟩

theorem witness_SequencedAcceptanceSendsWriteEnable :
    Ready (idle [bytes [0]]) [bytes [0]] ∧
    hostOperands (.writeBytes 0x01FFFFFF [0x11]) = some (.writeBytes, 0x01FFFFFF, 0, [0x11]) ∧
    pollClass .writeBytes = some .program ∧ valid Config.default .writeBytes 0x01FFFFFF 0 [0x11] = true ∧
    (∃ t, exchange [Config.default.opcodes.wren]
      (loadDescriptor .writeBytes 0x01FFFFFF 0 [0x11] (idle [bytes [0]])) = (.ok [0], t)) ∧
    (∃ t, exchange [Config.default.opcodes.wren]
      (loadDescriptor .eraseDie 0x01FFFFFF 0 [] (idle [fails false])) = (.err, t)) :=
  ⟨by decide, rfl, rfl, by decide, ⟨_, rfl⟩, ⟨_, rfl⟩⟩

/-- Every clause: a write, a read, an identification, an operation without a length. -/
theorem witness_AcceptanceLoadsOperands :
    (∃ t, exec (.writeBytes 0 [1, 2]) (idle [ans]) = .next t) ∧ (∃ t, exec (.readByte 0) (idle [ans]) = .next t) ∧
    (∃ t, exec (.readBytes 0 0xFFFFFFFF) (idle [ans]) = .next t) ∧
    (∃ t, exec (.readChipId 0) (idle [ans]) = .next t) ∧ (∃ t, exec (.eraseDie 0) (idle [ans]) = .next t) :=
  ⟨⟨_, rfl⟩, ⟨_, rfl⟩, ⟨_, rfl⟩, ⟨_, rfl⟩, ⟨_, rfl⟩⟩

theorem witness_IssueStepSendsMainFrame :
    sequencedOp (flying .enableSent .writeByte 0 [7] 0 false false []).op = some (.writeByte, .program) ∧
    inOrder [bytes [1, 2, 3, 4, 5, 6]] = true ∧
    (∃ t, exchange (issueFrame Config.default .program 0 [7])
      (flying .enableSent .writeByte 0 [7] 0 false false [bytes [1, 2, 3, 4, 5, 6]]) = (.ok [1, 2, 3, 4, 5, 6], t)) ∧
    (∃ t, exchange (issueFrame Config.default (.erase .die) 0 [])
      (flying .enableSent .eraseDie 0 [] 0 false false [fails true]) = (.err, t)) :=
  ⟨by decide, by decide, ⟨_, rfl⟩, ⟨_, rfl⟩⟩

/-- `Err`; bit 0 clear; the last permitted busy reading (`MAX_POLLS` is 4); one before it. -/
theorem witness_PollStepTestsBusyBit :
    sequencedOp (flying .polling .writeByte 0 [7] 3 true false []).op = some (.writeByte, .program) ∧
    (∃ t, exchange [Config.default.opcodes.rdsr, 0x00]
      (flying .cmdIssued .writeByte 0 [7] 0 true false [fails true]) = (.err, t)) ∧
    (∃ t, exchange [Config.default.opcodes.rdsr, 0x00]
      (flying .cmdIssued .writeByte 0 [7] 0 true false [bytes [0, 0xFE]]) = (.ok [0, 0xFE], t)) ∧
    (∃ t, exchange [Config.default.opcodes.rdsr, 0x00]
      (flying .polling .writeByte 0 [7] 3 true false [bytes [0, 0x01]]) = (.ok [0, 0x01], t)) ∧
    maxPolls Config.default .program = some (3 + 1) ∧ maxPolls Config.default .program ≠ some (2 + 1) :=
  ⟨by decide, ⟨_, rfl⟩, ⟨_, rfl⟩, ⟨_, rfl⟩, by decide, by decide⟩

/-- The failure is the one entry that a step after an earlier exchange adds. -/
theorem witness_TransportFailureEndsTheOperation :
    ∃ t, step { flying .polling .writeByte 0 [7] 1 true false [fails true] with trace := [([0x06], .ok [0])] } =
      .next t ∧ ([0x05, 0x00], .err) ∈ t.trace.drop 1 := ⟨_, rfl, by decide⟩

/-- The last byte of the array, and all bytes up to its end; a frame of exactly `MAX_FRAME` bytes. -/
theorem witness_ReadsReturnTheArray :
    Ready (idle [ans]) [ans] ∧ (0x01FFFFF0 : Addr).toNat < Config.default.flashSize ∧
    (0x01FFFFF0 : Addr).toNat + (16 : BitVec 32).toNat ≤ Config.default.flashSize ∧
    tooLong { Config.default with maxFrame := some 6 } (frame 0x13 0x01FFFFFF (.fill 1)) = false ∧
    tooLong Config.default (frame 0x13 0x01FFFFF0 (.fill 16)) = false := by decide

theorem witness_WriteEnableSetsTheLatch :
    Ready (idle [ans]) [ans] := by decide

/-- A busy chip. -/
theorem witness_StatusReadReturnsTheStatusByte :
    ({ idle [ans] with chip := ⟨[], true, true, true, false⟩ }).st = .idle ∧
    ({ idle [ans] with chip := ⟨[], true, true, true, false⟩ }).tpOpen = true ∧
    ({ idle [ans] with chip := ⟨[], true, true, true, false⟩ }).chip.fault = false ∧
    tooLong { Config.default with maxFrame := some 2 } [0x05, 0x00] = false := by decide

theorem witness_ChipIdIsReturned :
    Ready { idle [ans] with cfg := { Config.default with idLen := 1, chipId := [0x20], maxFrame := some 2 } } [ans] ∧
    tooLong { Config.default with idLen := 1, chipId := [0x20], maxFrame := some 2 } (frame0 0x9F 1) = false := by decide

theorem witness_SequencedOperationsAreEnabled :
    Ready (idle [ans]) [ans] ∧ hostOperands (.writeByte 0x01FFFFFF 1) = some (.writeByte, 0x01FFFFFF, 0, [1]) ∧
    valid Config.default .writeByte 0x01FFFFFF 0 [1] = true ∧
    hostOperands (.eraseSector 0x01FFFFFF) = some (.eraseSector, 0x01FFFFFF, 0, []) ∧
    valid Config.default .eraseSector 0x01FFFFFF 0 [] = true := by decide

/-- A write at the end of the array, and an erase. -/
theorem witness_IssueStepChangesExactlyItsBytes :
    sequencedOp (flying .enableSent .writeBytes 0x01FFFFFE [1, 2] 0 false false [ans]).op = some (.writeBytes, .program) ∧
    heldOperands .writeBytes (flying .enableSent .writeBytes 0x01FFFFFE [1, 2] 0 false false [ans]) = true ∧
    heldOperands .erase4K (flying .enableSent .erase4K 0x01FFFFFF [] 0 false false [ans]) = true ∧
    (flying .enableSent .erase4K 0x01FFFFFF [] 0 false false [ans]).chip.sound Config.default = true ∧
    (flying .enableSent .erase4K 0x01FFFFFF [] 0 false false [ans]).chip.wel = true := by decide

theorem witness_WireReadAnswersTheArray :
    Ready (idle [ans]) [ans] ∧ (0x01FFFFFF : Addr).toNat + 1 ≤ Config.default.flashSize ∧
    tooLong Config.default (frame 0x13 0x01FFFFFF (.fill 1)) = false := by decide

/-- A program that wraps in the last page of the array. -/
theorem witness_WireProgramWrapsInsideThePage :
    Ready (idleChip [] true [ans]) [ans] ∧ (idleChip [] true [ans]).chip.sound Config.default = true ∧
    (idleChip [] true [ans]).chip.wel = true ∧
    Ready (idleChip [] false [ans]) [ans] ∧ (idleChip [] false [ans]).chip.wel = false ∧
    programEnd Config.default.pageSize (0x01FFFFFE : Addr).toNat 4 ≤ Config.default.flashSize := by decide

theorem witness_WireWriteEnableSetsTheLatch :
    Ready (idleChip [] false [ans]) [ans] := by decide

theorem witness_WireEraseClearsTheAlignedBlock :
    (0x01FFFFFF : Addr).toNat < Config.default.flashSize ∧ Ready (idleChip [] true [ans]) [ans] ∧
    (idleChip [] true [ans]).chip.wel = true ∧ Ready (idleChip [] false [ans]) [ans] ∧
    (idleChip [] false [ans]).chip.wel = false ∧
    tooLong Config.default (frame (eraseOpcode Config.default .die) 0x01FFFFFF (.fill 0)) = false := by decide

theorem witness_WireStatusReadAnswersTheStatus :
    ({ idle [ans] with chip := ⟨[], true, true, true, false⟩ }).chip.fault = false ∧
    tooLong Config.default [Config.default.opcodes.rdsr, 0x00] = false := by decide

theorem witness_WireIdentificationAnswersTheChipId :
    Ready (idle [ans]) [ans] ∧ tooLong Config.default (frame0 0x9F Config.default.idLen) = false := by decide

theorem witness_WireCommandsLeaveTheControllerAlone :
    hostOperands .wireRdsr = none ∧ ∃ t, exec .wireRdsr (idle [ans]) = .next t := ⟨rfl, _, rfl⟩

/-- A status read with a filler that is not 0x00, the transport open and closed. -/
theorem witness_UndecodedFramesReachTheChip :
    Ready (idle [.present (.wire [0x05, 0xFF]), ans]) [.present (.wire [0x05, 0xFF]), ans] ∧
    ({ idle [.present (.wire [0x05, 0xFF])] with tpOpen := false }).tpOpen = false ∧
    decode Config.default (.wire [0x05, 0xFF]) = .error (.fillerByte 0x05) := by decide

theorem witness_FrameAtABusyChipFaults :
    ([0x06] : List Byte).head? ≠ some Config.default.opcodes.rdsr ∧ (0x00 : Byte) ∉ Config.default.opcodes.all ∧
    ([0x13, 0, 0, 0] : List Byte).head? = some Config.default.opcodes.read ∧ ([0x13, 0, 0, 0] : List Byte).length < 5 ∧
    ([0x21, 0, 0, 0, 0, 0] : List Byte).head? = some Config.default.opcodes.erase4K ∧
    5 < ([0x21, 0, 0, 0, 0, 0] : List Byte).length ∧
    ([0x06, 0] : List Byte).head? = some Config.default.opcodes.wren ∧ 1 < ([0x06, 0] : List Byte).length ∧
    ([0x9F] : List Byte).head? = some Config.default.opcodes.rdid ∧ ([0x9F] : List Byte).length = 1 := by decide

/-- One byte over the page; the first address that does not exist; a read one byte past the end. -/
theorem witness_FramesOutOfRangeFault :
    Config.default.wf = true ∧ (idleChip [] true []).chip.wel = true ∧
    ({ Config.default with pageSize := 2 }).wf = true ∧ 2 < ([0x11, 0x22, 0x33] : List Byte).length ∧
    Config.default.flashSize ≤ (0x02000000 : Addr).toNat ∧
    Config.default.flashSize < (0x01FFFFFF : Addr).toNat + ([0x00, 0x00] : List Byte).length := by decide

theorem witness_ChipFaultIsSticky :
    ∃ t, step { idle [.chipCompletes] with chip := ⟨[], true, true, false, true⟩ } = .next t := ⟨_, rfl⟩

theorem witness_CompletionStepClearsBusyAndLatch :
    (flying .polling .erase4K 0 [] 1 true false [.chipCompletes]).chip.fault = false := by decide

theorem witness_FirstPollAfterAnEraseIsBusy :
    Ready (idleChip [] true []) [] ∧ Config.default.assumeEraseHold = true ∧
    (idleChip [] true []).chip.wel = true ∧ (0x01FFFFFF : Addr).toNat < Config.default.flashSize := by decide

theorem witness_OnlyProgramAndEraseChangeTheArray :
    ∃ t, step (flying .enableSent .writeByte 5 [7] 0 false false [ans]) = .next t ∧ t.chip.fault = false ∧
      Memory.read t.chip.mem 5 ≠ Memory.read [] 5 := ⟨_, rfl, by decide, by decide⟩

theorem witness_FailedExchangeMayHaveReachedTheChip :
    Ready (idle [fails true]) [fails true] ∧ tooLong { Config.default with maxFrame := some 1 } [0x05, 0x00] = true := by
  decide

/-- A reset, the chip's step, and a step from each state of the sequencer. -/
theorem witness_SequencerTransitions :
    (∃ t, step (flying .polling .erase4K 0 [] 1 true false [.reset]) = .next t) ∧
    (∃ t, step (flying .polling .erase4K 0 [] 1 true false [.chipCompletes]) = .next t) ∧
    (∃ t, step (idle []) = .next t) ∧
    (∃ t, step (flying .enableSent .erase4K 0 [] 0 false false [ans]) = .next t) ∧
    (∃ t, step (flying .cmdIssued .erase4K 0 [] 0 true true [ans]) = .next t) ∧
    (∃ t, step (flying .polling .erase4K 0 [] 1 true false [ans]) = .next t) :=
  ⟨⟨_, rfl⟩, ⟨_, rfl⟩, ⟨_, rfl⟩, ⟨_, rfl⟩, ⟨_, rfl⟩, ⟨_, rfl⟩⟩

theorem witness_OperandsWrittenOnlyByAcceptance :
    (∃ t, step (flying .enableSent .erase4K 0 [] 0 false false [ans]) = .next t) ∧
    (∃ t, step (idle [.present (.wire [0x06]), ans]) = .next t) ∧ noReset [ans] = true :=
  ⟨⟨_, rfl⟩, ⟨_, rfl⟩, rfl⟩

theorem witness_StatusReadsAloneWriteSrLast :
    ∃ t, step (flying .cmdIssued .erase4K 0 [] 0 true true [ans]) = .next t ∧ t.srLast ≠ none := ⟨_, rfl, by decide⟩

/-- An acceptance after a result, and a completion. -/
theorem witness_ResultStatusWrittenByAcceptanceAndCompletion :
    (∃ t, step { idle [.present (.host ⟨5, 0, 0, []⟩), ans] with resStatus := .ok } = .next t ∧
      t.resStatus = .noResult) ∧
    (∃ t, step (flying .cmdIssued .erase4K 0 [] 0 false false [ans]) = .next t ∧ t.resStatus = .ok) :=
  ⟨⟨_, rfl, by decide⟩, ⟨_, rfl, by decide⟩⟩

theorem witness_ShutdownAloneClosesTheTransport :
    (idle [.shutdown]).st = .idle ∧ (∃ t, step (idle [.shutdown]) = .next t ∧ t.tpOpen = false) ∧
    (∃ t, step { idle [.reset] with tpOpen := false } = .next t ∧ t.tpOpen = true) :=
  ⟨rfl, ⟨_, rfl, rfl⟩, ⟨_, rfl, rfl⟩⟩

theorem witness_ResetInAnyState :
    (flying .polling .erase4K 0 [] 1 true false [.reset]).events = [.reset] ∧
    (flying .polling .erase4K 0 [] 1 true false [.resetMidExchange]).events = [.resetMidExchange] ∧
    (flying .polling .erase4K 0 [] 1 true false [.resetMidExchange]).tpOpen = true ∧
    ({ idle [.resetMidExchange] with tpOpen := false }).tpOpen = false := ⟨rfl, rfl, rfl, rfl⟩

theorem witness_PowerLossKeepsTheArray :
    (flying .polling .erase4K 0 [] 1 true false [.powerLoss]).events = [.powerLoss] ∧
    (flying .polling .erase4K 0 [] 1 true false [.powerLoss]).chip.fault = false := ⟨rfl, rfl⟩

/-- Every clause: the three never rejected, an acceptance in IDLE, a sequenced one, and an end in flight. -/
theorem witness_HowOperationsCanEnd :
    (∃ t, exec (.readChipId 0) (idle [ans]) = .next t ∧ t.st = .idle) ∧
    (∃ t, exec (.eraseDie 0) (idle [ans]) = .next t) ∧ pollClass .eraseDie = some (.erase .die) ∧
    (∃ t, step (flying .polling .erase4K 0 [] 3 true false [ans]) = .next t ∧ t.st = .idle) :=
  ⟨⟨_, rfl, rfl⟩, ⟨_, rfl⟩, rfl, ⟨_, rfl, by decide⟩⟩

theorem witness_OutputsAndStatusByte :
    (flying .polling .erase4K 0 [] 1 true false []).srLast = some 0x03 ∧ (idle []).srLast = none := by decide

theorem witness_StepKeepsTheInvariant :
    Inv (idle [ans]) ∧ ∃ t, step (idle [ans]) = .next t := ⟨idle_inv _, _, rfl⟩

theorem witness_NoStopUnderTheInvariant :
    Inv (flying .polling .erase4K 0x01FFFFFF [] 3 true false [ans]) :=
  ⟨by decide, by decide, fun _ => by decide, fun _ => by decide⟩

theorem witness_ControllerKeepsTheChipCalm :
    Inv (flying .cmdIssued .erase4K 0 [] 0 true true [ans]) ∧
    ChipCalm (flying .cmdIssued .erase4K 0 [] 0 true true [ans]) ∧ chipWorld .cmdIssued [ans] = true ∧
    ∃ t, step (flying .cmdIssued .erase4K 0 [] 0 true true [ans]) = .next t ∧ t.resStatus = .noResult :=
  ⟨⟨by decide, by decide, fun _ => by decide, fun _ => by decide⟩, ⟨by decide, fun _ => .inl rfl⟩, by decide,
    ⟨_, rfl, by decide⟩⟩

theorem witness_SequencedOperationsTerminate :
    Inv (flying .enableSent .eraseDie 0 [] 0 false false [.chipCompletes]) ∧
    maxPolls Config.default (.erase .die) = some 4 ∧ Event.isReset .chipCompletes = false :=
  ⟨⟨by decide, by decide, fun _ => by decide, fun _ => by decide⟩, by decide, by decide⟩

/-- Q8: no bound, and two different busy readings to come. -/
theorem witness_UnboundedPollGoesOnForever :
    maxPolls { Config.default with pollProgram := ⟨none, 0⟩ } .program = none ∧
    sequencedOp (flying .polling .writeByte 0 [0] 1 true false [bytes [0, 3], bytes [9, 1]]).op =
      some (.writeByte, .program) ∧
    (flying .polling .writeByte 0 [0] 1 true false [bytes [0, 3], bytes [9, 1]]).events =
      [[0, 3], [9, 1]].map (fun r => .answer (.bytes true r)) ++ [] ∧
    tooLong { Config.default with maxFrame := some 2 } [0x05, 0x00] = false ∧
    (0x03 : Byte).getLsbD 0 = true ∧ (0x01 : Byte).getLsbD 0 = true := by decide

/-- Three busy readings of a budget of four, then not busy (Q2). -/
def traceStart : State :=
  idle ([.present (encode Config.default (.writeByte 0 0)), bytes [0], bytes [0, 0, 0, 0, 0, 0]] ++
    [[0, 3], [0, 3], [0, 3]].map bytes ++ [bytes [0, 0]])

/-- With a fourth busy reading in place of the last one, Q3: the budget is 4. -/
theorem witness_SequencedTrace :
    Ready traceStart traceStart.events ∧ hostOperands (.writeByte 0 0) = some (.writeByte, 0, 0, [0]) ∧
    pollClass .writeByte = some .program ∧ valid Config.default .writeByte 0 0 [0] = true ∧
    tooLong { Config.default with maxFrame := some 6 } (issueFrame Config.default .program 0 [0]) = false ∧
    (issueFrame Config.default .program 0 [0]).length = 6 ∧
    ([0x00, 0x03] : List Byte)[1]? = some 0x03 ∧ (0x03 : Byte).getLsbD 0 = true ∧ (0x00 : Byte).getLsbD 0 = false ∧
    maxPolls Config.default .program = some (3 + 1) := by decide

/-- One byte at the end of the array, erased; the poll budget used up to one. -/
def roundTripStart : State :=
  idle ([.present (encode Config.default (.writeBytes 0x01FFFFFF [0x11])), ans, ans] ++ [ans, ans, ans] ++
    [.chipCompletes, ans, .present (encode Config.default (.readBytes 0x01FFFFFF 1)), ans])

theorem witness_WriteReadRoundTrip :
    Inv roundTripStart ∧ Ready roundTripStart roundTripStart.events ∧ roundTripStart.chip.hold = false ∧
    tooLong { Config.default with maxFrame := some 6 } (frame 0x12 0x01FFFFFF (.data [0x11])) = false ∧ (∀ x, Memory.read roundTripStart.chip.mem x = 0xFF) ∧
    (0x01FFFFFF : Addr).toNat % Config.default.pageSize + [(0x11 : Byte)].length ≤ Config.default.pageSize ∧
    (0x01FFFFFF : Addr).toNat + [(0x11 : Byte)].length ≤ Config.default.flashSize ∧
    maxPolls Config.default .program = some (3 + 1) :=
  ⟨idle_inv _, by decide, rfl, by decide, fun _ => rfl, by decide, by decide, by decide⟩

/-- The last 4096-byte block of the array, all of it read back. -/
def eraseStart : State :=
  idle ([.present (encode Config.default (.erase4K 0x01FFFFFF)), ans, ans] ++ [ans] ++
    [.chipCompletes, ans, .present (encode Config.default (.readBytes 0x01FFF000 4096)), ans])

theorem witness_ErasedBlockReadsAllOnes :
    Inv eraseStart ∧ Ready eraseStart eraseStart.events ∧
    tooLong eraseStart.cfg (frame 0x13 0x01FFF000 (.fill 4096)) = false ∧ eraseStart.chip.hold = false ∧
    (0x01FFF000 : Addr).toNat + (4096 : BitVec 32).toNat ≤ Config.default.flashSize ∧
    (0x01FFFFFF : Addr).toNat / blockSize Config.default .sub4K * blockSize Config.default .sub4K =
      (0x01FFF000 : Addr).toNat ∧
    maxPolls Config.default (.erase .sub4K) = some (3 + 1) ∧
    ({ Config.default with assumeEraseHold := false }).wf = true :=
  ⟨idle_inv _, by decide, rfl, rfl, by decide, by decide, by decide, by decide⟩

theorem witness_EraseThenProgramLeavesExactBytes :
    Ready (idleChip [] true []) [] ∧ (idleChip [] true []).chip.sound Config.default = true ∧
    (idleChip [] true []).chip.wel = true ∧
    blockStart (blockSize Config.default .sub4K) (0x01FFFFFF : Addr).toNat ≤ (0x01FFFFFF : Addr).toNat ∧
    (0x01FFFFFF : Addr).toNat + 1 ≤
      min (blockStart (blockSize Config.default .sub4K) (0x01FFFFFF : Addr).toNat + 4096) Config.default.flashSize := by
  decide

theorem witness_SplitWriteChunksAreValid :
    Config.default.wf = true ∧ (0x01FFFFFE : Addr).toNat + [(1 : Byte), 2].length ≤ Config.default.flashSize ∧
    splitWrite Config.default 0x01FFFFFE [1, 2] = [.writeBytes 0x01FFFFFE [1, 2]] := by decide

end Sys2Proof.Tests
end

section
/-! The state family (10_state.md): which registers a step writes. `step_move` says once what a step that answers a next
state can be, in the terms of the controller's registers; the statements about single registers are case analyses of it. -/

namespace Sys2Proof.Machine

variable {s t : State}

/-! ## What the operations leave unchanged -/

/-- A frame on the transport port changes no register of the controller, nor does taking the move (log 14). -/
theorem sendWire_sameController (s : State) (es : List Event) (f : List Byte) :
    SameController s (sendWire f (s.withEvents es)) := by constructor <;> simp

/-- Taking a move of the outside world changes no register of the controller. -/
theorem withEvents_sameController (s : State) (es : List Event) : SameController s (s.withEvents es) := by
  constructor <;> rfl

/-- The chip's own step changes no register of the controller (20_memory.md R73). -/
theorem chipTurn_sameController (s : State) (es : List Event) : SameController s (chipTurn (s.withEvents es)) := by
  constructor <;> rfl

/-- Step ISSUE writes no operand register (10_state.md R21). -/
theorem stepIssue_sameOperands (o : HostOp) (s : State) : SameOperands s (stepIssue o s) := by
  rcases stepIssue_cases o s with ⟨_, h⟩ | ⟨_, _, h⟩ <;> rw [h] <;> constructor <;> simp

/-- Step POLL writes no operand register (10_state.md R21). -/
theorem stepPoll_sameOperands (k : PollClass) (s : State) : SameOperands s (stepPoll k s) := by
  rcases stepPoll_cases k s with ⟨_, h⟩ | ⟨_, _, _, _, ⟨_, h⟩ | ⟨_, _, h⟩ | ⟨_, _, h⟩⟩ <;> rw [h] <;>
    constructor <;> simp

/-- Acceptance writes no parameter (10_state.md R34). -/
theorem accept_cfg (o : HostOp) (a : Addr) (count : BitVec 32) (data : List Byte) (s : State) :
    (accept o a count data s).cfg = s.cfg :=
  (dispatch_operands o (valid s.cfg o a count data) (loadDescriptor o a count data s)).cfg

/-- Acceptance does not write `TP_OPEN` (10_state.md R31). -/
theorem accept_tpOpen (o : HostOp) (a : Addr) (count : BitVec 32) (data : List Byte) (s : State) :
    (accept o a count data s).tpOpen = s.tpOpen :=
  (dispatch_operands o (valid s.cfg o a count data) (loadDescriptor o a count data s)).tpOpen

/-! ## What a step can be -/

/-- What a step from `s` to `t` can be: the construction of the controller anew, a move that leaves every register of the
controller alone (the chip's, a stray answer's, a wire frame's, none at all), a shutdown, the acceptance of a descriptor,
the rejection of a malformed one, or a step of the operation in flight. -/
inductive Move (s t : State) : Prop
  | construction (hev : noReset s.events = false) (hcfg : t.cfg = s.cfg) (hopen : t.tpOpen = true)
  | quiet (same : SameController s t)
  | shutdown (es : List Event) (hs : s.st = .idle) (he : s.events = .shutdown :: es)
      (ht : t = (s.withEvents es).shutdown)
  | acceptance (d : Descriptor) (es : List Event) (o : HostOp) (a : Addr) (count : BitVec 32) (data : List Byte)
      (hs : s.st = .idle) (he : s.events = .present (.host d) :: es)
      (ht : t = accept o a count data (s.withEvents es))
  | rejection (d : Descriptor) (es : List Event) (op : BitVec 4) (a : Addr) (len : BitVec 32) (w : List Byte)
      (hs : s.st = .idle) (he : s.events = .present (.host d) :: es)
      (ht : t = ((s.withEvents es).loadOperands op a len w).raise .invalidInput)
  | issue (o : HostOp) (ht : t = stepIssue o s)
  | poll (k : PollClass) (ht : t = stepPoll k s)

/-- In IDLE a wire command is an exchange (30_encoding.md R96; log 14). -/
theorem exec_wire {i : Instr} (h : hostOperands i = none) (hs : s.st = .idle) :
    ∃ f, exec i s = .next (sendWire f s) := by
  cases i <;> cases h
  all_goals exact ⟨_, congrArg Host.Outcome.next (whenReady_idle s _ hs)⟩

/-- A frame put on the transport port in IDLE is an exchange, whether it decodes or not (log 14, log 20). -/
theorem presentCommand_wire (f : List Byte) (hs : s.st = .idle) :
    ∃ g, presentCommand (.wire f) s = .next (sendWire g s) := by
  unfold presentCommand
  split
  · rename_i i hi
    exact exec_wire (decodeFrame_wire hi) hs
  · exact ⟨f, congrArg Host.Outcome.next (whenReady_idle s _ hs)⟩

/-- What is presented to an idle controller is a wire frame, an acceptance or a rejection. -/
theorem presentCommand_move {cmd : Command} {es : List Event} (hs : s.st = .idle) (he : s.events = .present cmd :: es)
    (h : presentCommand cmd (s.withEvents es) = .next t) : Move s t := by
  cases cmd with
  | wire f =>
    obtain ⟨g, hg⟩ := presentCommand_wire (s := s.withEvents es) f hs
    rw [h] at hg
    cases hg
    exact .quiet (sendWire_sameController s es g)
  | host d =>
    obtain ⟨t', ht', hc⟩ := presentCommand_idle (.host d) (s.withEvents es) hs
    rw [h] at ht'
    cases ht'
    rcases hc with ⟨f, rfl⟩ | ⟨o, a, count, data, _, ht⟩ | ⟨d', ht⟩
    · exact .quiet (sendWire_sameController s es f)
    · exact .acceptance d es o a count data hs he ht
    · obtain ⟨op, len, w, hm⟩ := acceptMalformed_cases d' (s.withEvents es)
      exact .rejection d es op d'.addr len w hs he (ht.trans hm)

/-- Every step that answers a next state is one of the moves. -/
theorem step_move (h : step s = .next t) : Move s t := by
  rcases step_cases h with ⟨es, he, rfl⟩ | ⟨es, he, rfl⟩ | ⟨es, he, rfl⟩ | ⟨es, _, rfl⟩ | ⟨hs, cmd, es, he, hp⟩ |
    ⟨hs, es, he, ht⟩ | ⟨_, _, es, _, rfl⟩ | ⟨_, _, rfl⟩ | ⟨_, _, o, _, _, ht⟩ | ⟨_, _, _, k, _, ht⟩
  · exact .construction (by rw [he]; rfl) rfl rfl
  · exact .construction (by rw [he]; rfl) rfl rfl
  · exact .construction (by rw [he]; rfl) rfl rfl
  · exact .quiet (chipTurn_sameController s es)
  · exact presentCommand_move hs he hp
  · exact .shutdown es hs he ht
  · exact .quiet (withEvents_sameController s es)
  · exact .quiet (withEvents_sameController t t.events)
  · exact .issue o ht
  · exact .poll k ht

/-! ## Operands and parameters (10_state.md R21, R34) -/

/-- No step writes a parameter (10_state.md R34). -/
theorem step_cfg (h : step s = .next t) : t.cfg = s.cfg := by
  cases step_move h with
  | construction _ hcfg _ => exact hcfg
  | quiet same => exact same.cfg
  | shutdown es _ _ ht => rw [ht]; rfl
  | acceptance _ es o a count data _ _ ht => rw [ht]; exact accept_cfg o a count data (s.withEvents es)
  | rejection _ _ _ _ _ _ _ _ ht => rw [ht]; rfl
  | issue o ht => rw [ht]; exact (stepIssue_sameOperands o s).cfg
  | poll k ht => rw [ht]; exact (stepPoll_sameOperands k s).cfg

/-- Settles O39: of the moves, acceptance and rejection alone load the operands, and both take a descriptor in IDLE. -/
theorem operandsWrittenOnlyByAcceptance : Obligations.OperandsWrittenOnlyByAcceptance := by
  intro s t h
  refine ⟨step_cfg h, fun hn hno => ?_⟩
  have not_presented {d es} (hs : s.st = .idle) (he : s.events = .present (.host d) :: es) : False :=
    hno.elim (· hs) (· d es he)
  cases step_move h with
  | construction hev _ _ => rw [hn] at hev; cases hev
  | quiet same => exact ⟨same.op, same.addr, same.len, same.wbuf⟩
  | shutdown es _ _ ht => rw [ht]; exact ⟨rfl, rfl, rfl, rfl⟩
  | acceptance _ _ _ _ _ _ hs he _ => exact (not_presented hs he).elim
  | rejection _ _ _ _ _ _ hs he _ => exact (not_presented hs he).elim
  | issue o ht =>
    have same := stepIssue_sameOperands o s
    rw [ht]; exact ⟨same.op, same.addr, same.len, same.wbuf⟩
  | poll k ht =>
    have same := stepPoll_sameOperands k s
    rw [ht]; exact ⟨same.op, same.addr, same.len, same.wbuf⟩

/-! ## `SR_LAST` (10_state.md R28) -/

/-- From `s` to `t` one status read has succeeded, and `SR_LAST` holds the byte it read (10_state.md R28). -/
def StatusByteStored (s t : State) : Prop :=
  ∃ r b, t.trace = s.trace ++ [([s.cfg.opcodes.rdsr, 0x00], .ok r)] ∧ r[1]? = some b ∧ t.srLast = some b

/-- A successful status read is recorded with its frame `[OP_RDSR, 0x00]` (40_framer.md R126, R130). -/
theorem exchange_rdsr_trace {r : List Byte} (h : (exchange (frame0 s.cfg.opcodes.rdsr 1) s).1 = .ok r) :
    (exchange (frame0 s.cfg.opcodes.rdsr 1) s).2.trace = s.trace ++ [([s.cfg.opcodes.rdsr, 0x00], .ok r)] := by
  rw [exchange_trace (exchange_ok_open h), h]; rfl

/-- Step SINGLE stores a status byte for `readStatusRegister` alone (41_sequencer.md R141). -/
theorem stepSingle_srLast (o : HostOp) (s : State) :
    (stepSingle o s).srLast = s.srLast ∨ StatusByteStored s (stepSingle o s) := by
  rcases stepSingle_cases o s with ⟨_, h⟩ | ⟨r, hr, h⟩
  · exact .inl (by rw [h]; simp)
  · rcases storeStatus_cases o r (exchange (mainFrame o s) s).2 with hst | ⟨b, rfl, hb, hst⟩
    · exact .inl (by rw [h, hst]; simp)
    · exact .inr ⟨r, b, (stepSingle_chip _ s).2.trans (exchange_rdsr_trace hr), hb, by rw [h, hst]; rfl⟩

/-- Step ENABLE does not write `SR_LAST`. -/
theorem stepEnable_srLast (s : State) : (stepEnable s).srLast = s.srLast := by
  rcases stepEnable_cases s with ⟨_, h⟩ | ⟨_, _, h⟩ <;> rw [h] <;> simp

/-- Step ISSUE does not write `SR_LAST`. -/
theorem stepIssue_srLast (o : HostOp) (s : State) : (stepIssue o s).srLast = s.srLast := by
  rcases stepIssue_cases o s with ⟨_, h⟩ | ⟨_, _, h⟩ <;> rw [h] <;> simp

/-- Step POLL writes `SR_LAST` only with the byte of its status read (41_sequencer.md R146). -/
theorem stepPoll_srLast (k : PollClass) (s : State) :
    (stepPoll k s).srLast = s.srLast ∨ StatusByteStored s (stepPoll k s) := by
  rcases stepPoll_cases k s with ⟨_, h⟩ | ⟨r, b, hr, hb, hc⟩
  · exact .inl (by rw [h]; simp)
  · refine .inr ⟨r, b, (stepPoll_chip k s).2.trans (exchange_rdsr_trace hr), hb, ?_⟩
    rcases hc with ⟨_, h⟩ | ⟨_, _, h⟩ | ⟨_, _, h⟩ <;> rw [h] <;> rfl

/-- Acceptance writes `SR_LAST` only with the byte of a status read (10_state.md R28). -/
theorem accept_srLast (o : HostOp) (a : Addr) (count : BitVec 32) (data : List Byte) (s : State) :
    (accept o a count data s).srLast = s.srLast ∨ StatusByteStored s (accept o a count data s) := by
  rcases accept_cases o a count data s with ⟨_, h⟩ | ⟨_, _, h⟩ | ⟨_, _, _, h⟩ | ⟨_, _, _, h⟩ <;> rw [h]
  · exact .inl rfl
  · exact .inl rfl
  · exact stepSingle_srLast o (loadDescriptor o a count data s)
  · exact .inl (stepEnable_srLast (loadDescriptor o a count data s))

/-- Settles O40: only steps SINGLE and POLL write `SR_LAST`, each with the byte of the exchange it has recorded. -/
theorem statusReadsAloneWriteSrLast : Obligations.StatusReadsAloneWriteSrLast := by
  intro s t h hn hne
  suffices t.srLast = s.srLast ∨ StatusByteStored s t from this.resolve_left hne
  cases step_move h with
  | construction hev _ _ => rw [hn] at hev; cases hev
  | quiet same => exact .inl same.srLast
  | shutdown es _ _ ht => rw [ht]; exact .inl rfl
  | acceptance _ es o a count data _ _ ht => rw [ht]; exact accept_srLast o a count data (s.withEvents es)
  | rejection _ _ _ _ _ _ _ _ ht => rw [ht]; exact .inl rfl
  | issue o ht => rw [ht]; exact .inl (stepIssue_srLast o s)
  | poll k ht => rw [ht]; exact stepPoll_srLast k s

/-! ## `RES_STATUS` (10_state.md R26) -/

/-- An operation is complete: the controller is in IDLE and a result is posted (41_sequencer.md R148). -/
def Completed (t : State) : Prop := t.st = .idle ∧ t.resStatus ≠ .noResult

/-- Step SINGLE completes its operation (41_sequencer.md R141). -/
theorem stepSingle_completed (o : HostOp) (s : State) : Completed (stepSingle o s) := by
  rcases stepSingle_cases o s with ⟨_, h⟩ | ⟨_, _, h⟩ <;> rw [h] <;> exact ⟨rfl, by simp⟩

/-- Acceptance completes the operation or leaves it in ENABLE_SENT without a result (41_sequencer.md R136, R142). -/
theorem accept_completed (o : HostOp) (a : Addr) (count : BitVec 32) (data : List Byte) (s : State) :
    Completed (accept o a count data s) ∨
    ((accept o a count data s).st = .enableSent ∧ (accept o a count data s).resStatus = .noResult) := by
  rcases accept_cases o a count data s with ⟨_, h⟩ | ⟨_, _, h⟩ | ⟨_, _, _, h⟩ | ⟨_, _, _, h⟩ <;> rw [h]
  · exact .inl ⟨rfl, by simp⟩
  · exact .inl ⟨rfl, by simp⟩
  · exact .inl (stepSingle_completed o _)
  · rcases stepEnable_cases (loadDescriptor o a count data s) with ⟨_, he⟩ | ⟨_, _, he⟩ <;> rw [he]
    · exact .inl ⟨rfl, by simp⟩
    · exact .inr ⟨rfl, by simp⟩

/-- Step ISSUE completes the operation or leaves `RES_STATUS` alone (41_sequencer.md R143). -/
theorem stepIssue_completed (o : HostOp) (s : State) :
    (stepIssue o s).resStatus = s.resStatus ∨ Completed (stepIssue o s) := by
  rcases stepIssue_cases o s with ⟨_, h⟩ | ⟨_, _, h⟩ <;> rw [h]
  · exact .inr ⟨rfl, by simp⟩
  · exact .inl (by simp)

/-- Step POLL completes the operation or leaves `RES_STATUS` alone (41_sequencer.md R146). -/
theorem stepPoll_completed (k : PollClass) (s : State) :
    (stepPoll k s).resStatus = s.resStatus ∨ Completed (stepPoll k s) := by
  rcases stepPoll_cases k s with ⟨_, h⟩ | ⟨_, _, _, _, ⟨_, h⟩ | ⟨_, _, h⟩ | ⟨_, _, h⟩⟩ <;> rw [h]
  · exact .inr ⟨rfl, by simp⟩
  · exact .inr ⟨rfl, by simp⟩
  · exact .inr ⟨rfl, by simp⟩
  · exact .inl (by simp)

/-- Settles O41: a step that changes `RES_STATUS` completes an operation or is an acceptance that leads to ENABLE_SENT. -/
theorem resultStatusWrittenByAcceptanceAndCompletion : Obligations.ResultStatusWrittenByAcceptanceAndCompletion := by
  intro s t h hn hne
  have of_completed (hc : Completed t) :
      (t.resStatus = .noResult → s.st = .idle ∧ t.st = .enableSent) ∧ (t.resStatus ≠ .noResult → t.st = .idle) :=
    ⟨fun hr => absurd hr hc.2, fun _ => hc.1⟩
  cases step_move h with
  | construction hev _ _ => rw [hn] at hev; cases hev
  | quiet same => exact absurd same.resStatus hne
  | shutdown es _ _ ht => exact absurd (by rw [ht]; rfl) hne
  | acceptance _ es o a count data hs _ ht =>
    have hc := accept_completed o a count data (s.withEvents es)
    rw [← ht] at hc
    rcases hc with hc | ⟨hst, hr⟩
    · exact of_completed hc
    · exact ⟨fun _ => ⟨hs, hst⟩, absurd hr⟩
  | rejection _ _ _ _ _ _ _ _ ht => exact of_completed (by rw [ht]; exact ⟨rfl, by simp⟩)
  | issue o ht => exact of_completed (by rw [ht] at hne ⊢; exact (stepIssue_completed o s).resolve_left hne)
  | poll k ht => exact of_completed (by rw [ht] at hne ⊢; exact (stepPoll_completed k s).resolve_left hne)

/-! ## `TP_OPEN` (10_state.md R31, 70_reset_and_hazards.md R213) -/

/-- A shutdown taken in IDLE is the step (70_reset_and_hazards.md R213). -/
theorem step_shutdown {es : List Event} (hs : s.st = .idle) (he : s.events = .shutdown :: es) :
    step s = .next (s.withEvents es).shutdown := by simp [step, turn, hostTurn, he, hs]

/-- A step constructs the controller anew and opens the transport, leaves `TP_OPEN` alone, or is a shutdown taken in IDLE
and closes it (10_state.md R31). -/
theorem step_tpOpen (h : step s = .next t) :
    (noReset s.events = false ∧ t.tpOpen = true) ∨ t.tpOpen = s.tpOpen ∨
    (t.tpOpen = false ∧ s.st = .idle ∧ ∃ es, s.events = .shutdown :: es) := by
  cases step_move h with
  | construction hev _ hopen => exact .inl ⟨hev, hopen⟩
  | quiet same => exact .inr (.inl same.tpOpen)
  | shutdown es hs he ht => exact .inr (.inr ⟨by rw [ht]; rfl, hs, es, he⟩)
  | acceptance _ es o a count data _ _ ht =>
    exact .inr (.inl (by rw [ht]; exact accept_tpOpen o a count data (s.withEvents es)))
  | rejection _ _ _ _ _ _ _ _ ht => exact .inr (.inl (by rw [ht]; rfl))
  | issue o ht => exact .inr (.inl (by rw [ht]; exact (stepIssue_sameOperands o s).tpOpen))
  | poll k ht => exact .inr (.inl (by rw [ht]; exact (stepPoll_sameOperands k s).tpOpen))

/-- Settles O42: of the moves, shutdown alone closes the transport and construction alone opens it. -/
theorem shutdownAloneClosesTheTransport : Obligations.ShutdownAloneClosesTheTransport := by
  refine ⟨fun s es hs he => step_shutdown hs he, fun s t h => ?_⟩
  rcases step_tpOpen h with ⟨hev, hopen⟩ | hsame | ⟨hclosed, hshut⟩
  · exact ⟨fun _ hc => absurd hc (by simp [hopen]), fun _ _ => hev⟩
  · rw [hsame]
    exact ⟨fun ho hc => absurd hc (by simp [ho]), fun hc ho => absurd ho (by simp [hc])⟩
  · exact ⟨fun _ _ => hshut, fun _ ho => absurd ho (by simp [hclosed])⟩

/-! ## The state after reset, the outputs (10_state.md R32, R39) -/

/-- `ready` is `st = IDLE` (10_state.md R32). -/
theorem ready_iff (s : State) : s.ready = true ↔ s.st = .idle := decide_eq_true_iff

/-- The outputs `BUSY` and `WEL` are undefined while no status byte has been read (10_state.md R32). -/
theorem outputs_undefined (h : s.srLast = none) : s.busyOut = none ∧ s.welOut = none := by
  simp [State.busyOut, State.welOut, h]

/-- The outputs `BUSY` and `WEL` are bits 0 and 1 of the last status byte (10_state.md R32). -/
theorem outputs_of_srLast {b : Byte} (h : s.srLast = some b) :
    s.busyOut = some (b.getLsbD 0) ∧ s.welOut = some (b.getLsbD 1) := by
  simp [State.busyOut, State.welOut, busyBit, welBit, h]

/-- Settles O44: `State.reset` is R39's state, and its outputs are undefined since no status byte has been read. -/
theorem resetValues : Obligations.ResetValues :=
  have ⟨hbusy, hwel⟩ := outputs_undefined (s := State.reset) rfl
  ⟨rfl, rfl, rfl, rfl, rfl, (ready_iff State.reset).mpr rfl, hbusy, hwel, rfl⟩

/-- Settles O46: the outputs by their definitions, the status byte's bits by its fields. -/
theorem outputsAndStatusByte : Obligations.OutputsAndStatusByte := by
  refine ⟨fun s => ⟨ready_iff s, fun _ => outputs_of_srLast, outputs_undefined⟩, fun c chip => ?_⟩
  obtain ⟨_, hwip, hwel, _⟩ := statusByte_fields c chip
  exact ⟨rfl, hwip, hwel⟩

/-- The construction arguments of the model are a legal configuration (10_state.md R34; log 1). -/
theorem config_default_wf : Config.default.wf = true := by decide

/-- An idle chip with nothing listed in its array is sound, whatever the configuration (20_memory.md R50, R51). -/
theorem reset_chip_sound (c : Config) : State.reset.chip.sound c = true := rfl

/-- `State.reset` meets `Inv`: nothing is in flight and no data is posted (10_state.md R39). -/
theorem reset_inv : Inv State.reset where
  config := config_default_wf
  array := reset_chip_sound Config.default
  flight hst := absurd rfl hst
  noData _ := rfl

/-- The chip of `State.reset` is neither faulty nor busy (10_state.md R40; log 4). -/
theorem reset_chipCalm : ChipCalm State.reset := ⟨rfl, fun hw => by cases hw⟩

/-- Settles O47: the base case of both invariants. -/
theorem resetMeetsTheInvariant : Obligations.ResetMeetsTheInvariant := ⟨reset_inv, reset_chipCalm⟩

end Sys2Proof.Machine
end

section
/-! The memory family (20_memory.md). First what a frame, an exchange and a command presented do to the chip, each said
once; then the statements: the controller's rules keep the chip calm, the chip's own rules, the wire commands, the array,
and whole operations. -/

namespace Sys2Proof.Machine

variable {c : Config} {s t : State} {o : HostOp} {k : PollClass} {chip : Chip} {f : List Byte}

/-! ## What a frame does to the chip -/

/-- A frame that does not fault has its command's effect (20_memory.md R66 to R72). -/
theorem chipReceive_clean (n : Nat) (hf : chip.fault = false) (hff : frameFaults c chip f = false) :
    chipReceive c n chip f = commandEffect c chip (chipCommand c f) := by simp [chipReceive, hf, hff]

/-- A frame that faults leaves `CHIP_FAULT` at 1 (20_memory.md R75). -/
theorem chipReceive_faults (n : Nat) (h : frameFaults c chip f = true) : (chipReceive c n chip f).fault = true := by
  simp [chipReceive, h, faultedChip]

/-- A frame whose command faults, faults, busy or not. -/
theorem frameFaults_of_command (h : commandFaults c chip (chipCommand c f) = true) : frameFaults c chip f = true := by
  simp [frameFaults, h]

/-- No command's effect touches `CHIP_FAULT`. -/
@[simp] theorem commandEffect_fault (c : Config) (chip : Chip) (cmd : ChipCommand) :
    (commandEffect c chip cmd).fault = chip.fault := by
  cases cmd with
  | program | erase => simp only [commandEffect]; split <;> rfl
  | _ => rfl

/-- The commands that change the array: `PROGRAM` and the erases. -/
def ChipCommand.alters : ChipCommand → Bool
  | .program _ _ => true
  | .erase _ _ => true
  | _ => false

/-- A command that changes the array is a `PROGRAM` or an erase. -/
theorem alters_cases {cmd : ChipCommand} (h : cmd.alters = true) :
    (∃ a d, cmd = .program a d) ∨ ∃ k a, cmd = .erase k a := by
  cases cmd with
  | program a d => exact .inl ⟨a, d, rfl⟩
  | erase k a => exact .inr ⟨k, a, rfl⟩
  | _ => cases h

/-- Every command but `PROGRAM` and the erases leaves the array and `WIP` alone (20_memory.md R67, R69, R71, R72). -/
theorem commandEffect_frame (c : Config) (chip : Chip) {cmd : ChipCommand} (h : cmd.alters = false) :
    (commandEffect c chip cmd).mem = chip.mem ∧ (commandEffect c chip cmd).wip = chip.wip := by
  cases cmd with
  | program | erase => cases h
  | _ => exact ⟨rfl, rfl⟩

/-! ## The exchanges the chip answers -/

/-- The chip handles the frame of an exchange it answers, even one that is too long (40_framer.md R129). -/
theorem exchange_answered {junk : List Byte} {es : List Event} (f : List Byte) (ho : s.tpOpen = true)
    (he : s.events = .answer (.chip junk) :: es) :
    (exchange f s).2.chip = chipReceive s.cfg s.draws s.chip f := by
  rw [exchange_scripted ho he]; rfl

/-- A frame that neither faults nor changes the array leaves `CHIP_FAULT` at 0 and `WIP` alone. -/
theorem exchange_harmless {junk : List Byte} {es : List Event} (ho : s.tpOpen = true)
    (he : s.events = .answer (.chip junk) :: es) (hf : s.chip.fault = false)
    (hff : frameFaults s.cfg s.chip f = false) (ha : (chipCommand s.cfg f).alters = false) :
    (exchange f s).2.chip.fault = false ∧ (exchange f s).2.chip.wip = s.chip.wip := by
  rw [exchange_answered f ho he, chipReceive_clean _ hf hff]
  exact ⟨(commandEffect_fault ..).trans hf, (commandEffect_frame s.cfg s.chip ha).2⟩

/-- The status byte of the chip, at offset 1 of its response to `[OP_RDSR, 0x00]` (20_memory.md R64, R71). -/
theorem chipRespond_rdsr (hc : c.wf = true) (junk : List Byte) (n : Nat) (hf : chip.fault = false) :
    (chipRespond c junk n chip (frame0 c.opcodes.rdsr 1))[1]? = some (statusByte c chip) := by
  simp [chipRespond, hf, frameFaults_rdsr hc, chipCommand_rdsr hc, commandResponse]

/-- Bit 0 of the chip's status byte is `WIP` (20_memory.md R64). -/
theorem busyBit_statusByte (c : Config) (chip : Chip) : busyBit (statusByte c chip) = chip.wip :=
  (statusByte_fields c chip).2.1

/-- A status read the chip answers reads the chip's status byte (20_memory.md R71). -/
theorem exchange_rdsr_reads {junk r : List Byte} {es : List Event} (hc : s.cfg.wf = true)
    (he : s.events = .answer (.chip junk) :: es) (hf : s.chip.fault = false)
    (hr : (exchange (frame0 s.cfg.opcodes.rdsr 1) s).1 = .ok r) : r[1]? = some (statusByte s.cfg s.chip) := by
  rw [exchange_scripted (exchange_ok_open hr) he] at hr
  simp only [answerResult] at hr
  split at hr
  · cases hr
  · injection hr with hr
    rw [← hr, chipRespond_rdsr hc junk s.draws hf]

/-! ## The frames of a valid operation do not fault -/

/-- The one frame of a valid single-transaction operation neither faults nor changes the array (41_sequencer.md R137,
R139). -/
theorem singleFrame_harmless {a : Addr} {count : BitVec 32} {data : List Byte} (hc : c.wf = true) (chip : Chip)
    (ho : pollClass o = none) (hv : valid c o a count data = true) :
    commandFaults c chip (chipCommand c (singleFrame c o a count)) = false ∧
    (chipCommand c (singleFrame c o a count)).alters = false := by
  cases o with
  | readByte =>
    simp only [valid, decide_eq_true_eq] at hv
    simp only [singleFrame, chipCommand_read, fill_length, commandFaults, decide_eq_false_iff_not, Nat.not_lt]
    exact ⟨hv, rfl⟩
  | readBytes =>
    simp only [valid, Bool.and_eq_true, decide_eq_true_eq] at hv
    simp only [singleFrame, chipCommand_read, fill_length, commandFaults, decide_eq_false_iff_not, Nat.not_lt]
    exact ⟨hv.2, rfl⟩
  | writeEnable => exact (chipCommand_wren hc).symm ▸ ⟨rfl, rfl⟩
  | readStatusRegister => exact (chipCommand_rdsr hc).symm ▸ ⟨rfl, rfl⟩
  | readChipId => exact (chipCommand_rdid hc).symm ▸ ⟨rfl, rfl⟩
  | _ => cases ho

/-- The command of step ISSUE at the chip (40_framer.md R126). -/
def issueCommand (a : Addr) (data : List Byte) : PollClass → ChipCommand
  | .program => .program a data
  | .erase k => .erase k a

/-- The frame of step ISSUE is its command at the chip. -/
theorem chipCommand_issueFrame (hc : c.wf = true) (k : PollClass) (a : Addr) (data : List Byte) :
    chipCommand c (issueFrame c k a data) = issueCommand a data k := by
  cases k with
  | program => exact chipCommand_program hc a data
  | erase k => rw [← show _ = issueCommand a data (.erase k) from chipCommand_erase hc a k]; cases k <;> rfl

/-- The command of step ISSUE of a valid operation does not fault (20_memory.md R68, R70, 41_sequencer.md R139). -/
theorem issueCommand_clean {a : Addr} {count : BitVec 32} {data : List Byte} (hc : c.wf = true) (chip : Chip)
    (ho : pollClass o = some k) (hv : valid c o a count data = true) (hb : o = .writeByte → data.length = 1) :
    commandFaults c chip (issueCommand a data k) = false := by
  cases o <;> cases ho <;> simp only [valid, Bool.and_eq_true, decide_eq_true_eq] at hv
  case writeByte =>
    have hd := hb rfl
    have hp := Nat.mod_lt a.toNat (pageSize_pos hc)
    exact commandFaults_program (by omega) (by omega) (by omega)
  case writeBytes =>
    obtain ⟨⟨⟨h1, _⟩, h2⟩, h3⟩ := hv
    exact commandFaults_program h1 h2 h3
  all_goals exact commandFaults_erase hv

/-- The operands held by an operation in flight are valid (41_sequencer.md R136, R139). -/
theorem heldOperands_valid (h : heldOperands o s = true) :
    valid s.cfg o s.addr 0 s.wbuf = true ∧ (o = .writeByte → s.wbuf.length = 1) := by
  cases o <;> simp only [heldOperands, Bool.and_eq_true, decide_eq_true_eq] at h
  case writeByte => exact ⟨h.2, fun _ => h.1⟩
  case writeBytes => exact ⟨h, fun he => by cases he⟩
  all_goals exact ⟨h.2, fun he => by cases he⟩

/-! ## The chip stays calm (20_memory.md R75, 70_reset_and_hazards.md R220) -/

/-- A well-formed descriptor decodes to a host operation (30_encoding.md R104). -/
theorem decodeDescriptor_host {d : Descriptor} {i : Instr} (h : decodeDescriptor d = .ok i) :
    ∃ o a count data, hostOperands i = some (o, a, count, data) := by
  unfold decodeDescriptor at h
  repeat' split at h
  all_goals cases h
  all_goals exact ⟨_, _, _, _, rfl⟩

/-- A descriptor presented in IDLE is accepted, or accepted as malformed (41_sequencer.md R136). -/
theorem presentCommand_host (d : Descriptor) (hs : s.st = .idle) :
    (∃ o a count data, presentCommand (.host d) s = .next (accept o a count data s)) ∨
    presentCommand (.host d) s = .next (acceptMalformed d s) := by
  unfold presentCommand
  split
  · rename_i i hi
    obtain ⟨o, a, count, data, ho⟩ := decodeDescriptor_host hi
    exact .inl ⟨o, a, count, data, by rw [exec_host ho, whenReady_idle _ _ hs]⟩
  · exact .inr (congrArg Host.Outcome.next (whenReady_idle s _ hs))

/-- Acceptance at an idle chip that answers keeps it without `CHIP_FAULT` and idle: the one exchange it can make is that of
a valid single-transaction operation, or `WREN`. -/
theorem accept_calm {junk : List Byte} {es : List Event} (o : HostOp) (a : Addr) (count : BitVec 32) (data : List Byte)
    (hc : s.cfg.wf = true) (hf : s.chip.fault = false) (hw : s.chip.wip = false)
    (he : s.events = .answer (.chip junk) :: es) :
    (accept o a count data s).chip.fault = false ∧ (accept o a count data s).chip.wip = false := by
  have harmless {g : List Byte} (ht : s.tpOpen = true)
      (hg : commandFaults s.cfg s.chip (chipCommand s.cfg g) = false ∧ (chipCommand s.cfg g).alters = false) :
      (exchange g (loadDescriptor o a count data s)).2.chip.fault = false ∧
      (exchange g (loadDescriptor o a count data s)).2.chip.wip = false :=
    (exchange_harmless (s := loadDescriptor o a count data s) ht he hf (frameFaults_idle hw hg.1) hg.2).imp_right
      (·.trans hw)
  rcases accept_cases o a count data s with ⟨_, h⟩ | ⟨_, _, h⟩ | ⟨hv, ht, ho, h⟩ | ⟨_, ht, _, h⟩ <;> rw [h]
  · exact ⟨hf, hw⟩
  · exact ⟨hf, hw⟩
  · rw [(stepSingle_chip o _).1, mainFrame_single s a count data ho]
    exact harmless ht (singleFrame_harmless hc s.chip ho hv)
  · rw [(stepEnable_chip _).1]
    exact harmless ht ((chipCommand_wren hc).symm ▸ ⟨rfl, rfl⟩)

/-- In `chipWorld` what is presented in IDLE is a descriptor, and the chip answers the next exchange. -/
theorem chipWorld_present {cmd : Command} {es : List Event} (h : chipWorld .idle (.present cmd :: es) = true) :
    ∃ d junk es', cmd = .host d ∧ es = .answer (.chip junk) :: es' := by
  unfold chipWorld at h
  split at h <;> simp_all

/-- In `chipWorld` the chip answers the next exchange of an operation in flight. -/
theorem chipWorld_answered {st : SeqState} {es : List Event} (hst : st ≠ .idle) (hio : inOrder es = true)
    (h : chipWorld st es = true) : ∃ junk es', es = .answer (.chip junk) :: es' := by
  unfold chipWorld at h
  split at h <;> simp_all [inOrder]

/-- The chip's own step sets neither `CHIP_FAULT` nor `WIP` (20_memory.md R73). -/
theorem chipComplete_calm (n : Nat) (hf : chip.fault = false) :
    (chipComplete c n chip).fault = false ∧ ((chipComplete c n chip).wip = true → chip.wip = true) := by
  unfold chipComplete
  rw [if_neg (by simp [hf])]
  split
  · exact ⟨hf, fun h => by cases h⟩
  · exact ⟨hf, id⟩

/-- Step ISSUE at an idle chip that answers, unless it fails, leads to CMD_ISSUED without `CHIP_FAULT`. -/
theorem stepIssue_calm {junk : List Byte} {es : List Event} (hc : s.cfg.wf = true) (hf : s.chip.fault = false)
    (hw : s.chip.wip = false) (ht : s.tpOpen = true) (he : s.events = .answer (.chip junk) :: es)
    (ho : sequencedOp s.op = some (o, k)) (hh : heldOperands o s = true)
    (hr : (stepIssue o s).resStatus ≠ .transportError) : ChipCalm (stepIssue o s) := by
  obtain ⟨hv, hb⟩ := heldOperands_valid hh
  have hclean : frameFaults s.cfg s.chip (mainFrame o s) = false := by
    refine frameFaults_idle hw ?_
    rw [mainFrame_issue ho, chipCommand_issueFrame hc]
    exact issueCommand_clean hc s.chip (sequencedOp_some ho).2 hv hb
  rcases stepIssue_cases o s with ⟨_, h⟩ | ⟨_, _, h⟩
  · exact absurd (by rw [h]; rfl) hr
  · refine ⟨?_, fun _ => .inl (by rw [h]; rfl)⟩
    rw [(stepIssue_chip o s).1, exchange_answered _ ht he, chipReceive_clean _ hf hclean]
    exact (commandEffect_fault ..).trans hf

/-- Step POLL of a chip that answers, unless it fails or times out, goes on polling or finds the chip idle. -/
theorem stepPoll_calm {junk : List Byte} {es : List Event} (hc : s.cfg.wf = true) (hf : s.chip.fault = false)
    (ht : s.tpOpen = true) (he : s.events = .answer (.chip junk) :: es)
    (hr : (stepPoll k s).resStatus ≠ .transportError) (hb : (stepPoll k s).resStatus ≠ .busyTimeout) :
    ChipCalm (stepPoll k s) := by
  obtain ⟨hfault, hwip⟩ := exchange_harmless ht he hf (frameFaults_rdsr hc s.chip) ((chipCommand_rdsr hc).symm ▸ rfl)
  rw [← (stepPoll_chip k s).1] at hfault hwip
  refine ⟨hfault, fun hw => .inr ?_⟩
  rcases stepPoll_cases k s with ⟨_, h⟩ | ⟨r, b, hok, hrb, hcase⟩
  · exact absurd (by rw [h]; rfl) hr
  · have hread := exchange_rdsr_reads hc he hf hok
    rw [hrb, Option.some.injEq] at hread
    rcases hcase with ⟨hbusy, _⟩ | ⟨_, _, h⟩ | ⟨_, _, h⟩
    · rw [hread, busyBit_statusByte, ← hwip, hw] at hbusy
      cases hbusy
    · exact absurd (by rw [h]; rfl) hb
    · rw [h]; rfl

/-- Settles O50: in `chipWorld` a step is the chip's own, a move that leaves the chip alone, an acceptance, ISSUE or POLL,
and none of them makes the chip fault or busy unawaited. -/
theorem controllerKeepsTheChipCalm : Obligations.ControllerKeepsTheChipCalm := by
  intro s t hinv hcalm hworld hstep hbt hte
  obtain ⟨hf, hw⟩ := hcalm
  have hidle (hst : s.st = .idle ∨ s.st = .enableSent) : s.chip.wip = false := by
    rw [← Bool.not_eq_true]
    intro h
    rcases hst with hst | hst <;> simpa [hst] using hw h
  rcases step_cases hstep with ⟨es, he, _⟩ | ⟨es, he, _⟩ | ⟨es, he, _⟩ | ⟨es, _, rfl⟩ | ⟨hs, cmd, es, he, hp⟩ |
    ⟨hs, es, _, rfl⟩ | ⟨hs, _, es, _, rfl⟩ | ⟨_, _, rfl⟩ | ⟨hs, hio, o, k, hop, rfl⟩ | ⟨hs, hio, o, k, _, rfl⟩
  · simp [he, chipWorld] at hworld
  · simp [he, chipWorld] at hworld
  · simp [he, chipWorld] at hworld
  · obtain ⟨hfault, hwip⟩ := chipComplete_calm (c := s.cfg) s.draws hf
    exact ⟨hfault, fun h => hw (hwip h)⟩
  · rw [hs, he] at hworld
    obtain ⟨d, junk, es', rfl, rfl⟩ := chipWorld_present hworld
    rcases presentCommand_host (s := s.withEvents (.answer (.chip junk) :: es')) d hs with ⟨o, a, count, data, h⟩ | h <;>
      rw [h] at hp <;> injection hp with hp <;> rw [← hp]
    · obtain ⟨hfault, hwip⟩ := accept_calm (s := s.withEvents (.answer (.chip junk) :: es')) o a count data
        hinv.config hf (hidle (.inl hs)) rfl
      exact ⟨hfault, fun h => absurd h (by simp [hwip])⟩
    · obtain ⟨_, _, _, hm⟩ := acceptMalformed_cases d (s.withEvents (.answer (.chip junk) :: es'))
      rw [hm]
      exact ⟨hf, fun h => absurd h (by simp [hidle (.inl hs)])⟩
  · exact ⟨hf, hw⟩
  · exact ⟨hf, hw⟩
  · exact ⟨hf, hw⟩
  · have hst : s.st ≠ .idle := by simp [hs]
    obtain ⟨junk, es, he⟩ := chipWorld_answered hst hio hworld
    obtain ⟨o', k', hop', hh, _, _, ht, _⟩ := inFlightSound_parts (hinv.flight hst)
    cases hop.symm.trans hop'
    exact stepIssue_calm hinv.config hf (hidle (.inr hs)) ht he hop hh hte
  · have hst : s.st ≠ .idle := by rcases hs with hs | hs <;> simp [hs]
    obtain ⟨junk, es, he⟩ := chipWorld_answered hst hio hworld
    obtain ⟨_, _, _, _, _, _, ht, _⟩ := inFlightSound_parts (hinv.flight hst)
    exact stepPoll_calm hinv.config hf ht he hte hbt

end Sys2Proof.Machine
end

section
/-! The chip's own rules (20_memory.md R62 to R76): what faults, what a step can do to `CHIP_FAULT` and to the array, the
completion step, and the hold after an erase. -/

namespace Sys2Proof.Machine

variable {c : Config} {s t : State} {chip : Chip} {f rest : List Byte}

/-! ## Frames that fault (20_memory.md R66, R68, R69, R70, R74) -/

/-- Whatever the chip reads as none of its commands faults (20_memory.md R74). -/
theorem chipReceive_other (n : Nat) (chip : Chip) (h : chipCommand c f = .other) :
    (chipReceive c n chip f).fault = true := chipReceive_faults n (frameFaults_of_command (by rw [h]; rfl))

/-- An addressed frame shorter than its header is no command (20_memory.md R74). -/
theorem chipAddressed_short (mk : Addr → List Byte → ChipCommand) (h : rest.length < 4) :
    chipAddressed rest mk = .other := by
  unfold chipAddressed
  split
  · simp only [List.length_cons] at h; omega
  · rfl

/-- An erase frame longer than its header is no command (20_memory.md R70, R74). -/
theorem chipAddressed_erase_long (k : EraseKind) (h : 4 < rest.length) :
    chipAddressed rest (chipErase k) = .other := by
  unfold chipAddressed
  split
  · rename_i d
    cases d with
    | nil => simp at h
    | cons => rfl
  · rfl

/-- A first byte that is none of the nine opcodes is no command, nor is the empty frame (20_memory.md R74; log 20). -/
theorem chipCommand_unknown (h : ∀ op rest, f = op :: rest → op ∉ c.opcodes.all) : chipCommand c f = .other := by
  cases f with
  | nil => rfl
  | cons op rest =>
    have hop := h op rest rfl
    simp only [Opcodes.all, List.mem_cons, List.not_mem_nil, or_false, not_or] at hop
    simp [chipCommand, hop]

/-- A frame that begins with an erase opcode is read by its address bytes (20_memory.md R70). -/
theorem chipCommand_eraseOpcode (hc : c.wf = true) (k : EraseKind) (rest : List Byte) :
    chipCommand c (eraseOpcode c k :: rest) = chipAddressed rest (chipErase k) := by
  cases k <;> simp [chipCommand, eraseOpcode, opcodes_ne hc]

/-- The four erase opcodes are those of the four kinds (00_scope.md R7). -/
theorem eraseOpcode_of_mem {op : Byte}
    (h : op ∈ [c.opcodes.erase4K, c.opcodes.erase32K, c.opcodes.eraseSector, c.opcodes.eraseDie]) :
    ∃ k, op = eraseOpcode c k := by
  simp only [List.mem_cons, List.not_mem_nil, or_false] at h
  rcases h with h | h | h | h
  · exact ⟨.sub4K, h⟩
  · exact ⟨.sub32K, h⟩
  · exact ⟨.sector, h⟩
  · exact ⟨.die, h⟩

/-- A frame that begins with an addressed opcode and is shorter than 5 bytes is no command (20_memory.md R74). -/
theorem chipCommand_short {op : Byte} (hc : c.wf = true)
    (hop : op ∈ [c.opcodes.read, c.opcodes.program, c.opcodes.erase4K, c.opcodes.erase32K, c.opcodes.eraseSector,
      c.opcodes.eraseDie]) (h : rest.length < 4) : chipCommand c (op :: rest) = .other := by
  rw [List.mem_cons, List.mem_cons] at hop
  rcases hop with rfl | rfl | hop
  · simp [chipCommand, chipAddressed_short _ h]
  · simp [chipCommand, opcodes_ne hc, chipAddressed_short _ h]
  · obtain ⟨k, rfl⟩ := eraseOpcode_of_mem hop
    rw [chipCommand_eraseOpcode hc, chipAddressed_short _ h]

/-- Settles O32: a frame at a busy chip faults by R66, the others since they are no command of the chip. -/
theorem frameAtABusyChipFaults : Obligations.FrameAtABusyChipFaults := by
  intro c n chip f
  refine ⟨fun hw hop => chipReceive_faults n (by simp [frameFaults, hw, hop]),
    fun h => chipReceive_other n chip (chipCommand_unknown h), fun op hc hop h => chipReceive_other n chip ?_⟩
  obtain ⟨rest, rfl⟩ := List.head?_eq_some_iff.mp hop
  simp only [List.length_cons] at h
  rcases h with ⟨hm, hl⟩ | ⟨hm, hl⟩ | ⟨rfl, hl⟩ | ⟨hm, hl⟩
  · exact chipCommand_short hc hm (by omega)
  · obtain ⟨k, rfl⟩ := eraseOpcode_of_mem hm
    rw [chipCommand_eraseOpcode hc, chipAddressed_erase_long k (by omega)]
  · have hrest : rest ≠ [] := List.ne_nil_of_length_pos (by omega)
    simp [chipCommand, opcodes_ne hc, hrest]
  · obtain rfl : rest = [] := List.length_eq_zero_iff.mp (by omega)
    rcases hm with rfl | rfl <;> simp [chipCommand, opcodes_ne hc]

/-- Settles O59: each frame's command is one of those that fault by their operands. -/
theorem framesOutOfRangeFault : Obligations.FramesOutOfRangeFault := by
  intro c n chip a d hc
  have faults {f : List Byte} (h : commandFaults c chip (chipCommand c f) = true) :
      (chipReceive c n chip f).fault = true := chipReceive_faults n (frameFaults_of_command h)
  refine ⟨fun hw h => faults ?_, fun h => faults ?_, fun k hw h => faults ?_⟩
  · rw [chipCommand_program hc]
    rcases h with rfl | h | h <;> simp [commandFaults, *]
  · simpa [chipCommand_read, commandFaults] using h
  · rw [chipCommand_erase hc]
    simp [commandFaults, hw, h]

/-! ## `CHIP_FAULT` and the array over a step (20_memory.md R62, R75) -/

/-- Settles O33: what a step can do to the chip sets `CHIP_FAULT` or keeps it. -/
theorem chipFaultIsSticky : Obligations.ChipFaultIsSticky := by
  intro s t h hf
  rcases step_chip h with ⟨hc, _⟩ | hc | ⟨hc, _⟩ | hc | ⟨u, f, hu, _, _, hc, _⟩ <;> rw [hc]
  · exact hf
  · rfl
  · exact (chipPowerLoss_keeps s.cfg s.draws s.chip).1.trans hf
  · simp [chipComplete, hf, faultedChip]
  · exact exchange_fault f (hu ▸ hf)

/-- The completion step leaves the array alone outside `CHIP_FAULT` (20_memory.md R73). -/
theorem chipComplete_mem {n : Nat} : (chipComplete c n chip).fault = false → (chipComplete c n chip).mem = chip.mem := by
  unfold chipComplete
  split
  · exact fun h => by cases h
  · split <;> exact fun _ => rfl

/-- The answer to an exchange, before which the chip may have completed, leaves the array alone outside `CHIP_FAULT`. -/
theorem takeAnswer_mem : (takeAnswer s).2.chip.fault = false → (takeAnswer s).2.chip.mem = s.chip.mem := by
  unfold takeAnswer
  split
  · exact fun _ => rfl
  · dsimp only
    split
    · exact chipComplete_mem
    · exact fun _ => rfl

/-- A frame that is neither a `PROGRAM` nor an erase leaves the array alone outside `CHIP_FAULT` (20_memory.md R62). -/
theorem chipReceive_mem {n : Nat} (ha : (chipCommand c f).alters = false) :
    (chipReceive c n chip f).fault = false → chip.fault = false ∧ (chipReceive c n chip f).mem = chip.mem := by
  unfold chipReceive
  split
  · exact fun h => by cases h
  · exact fun h => ⟨(commandEffect_fault ..).symm.trans h, (commandEffect_frame c chip ha).1⟩

/-- An exchange that changes the array outside `CHIP_FAULT` is made, with a `PROGRAM` or an erase frame. -/
theorem exchange_mem (h : (exchange f s).2.chip.fault = false) :
    (exchange f s).2.chip.mem = s.chip.mem ∨ (s.tpOpen = true ∧ (chipCommand s.cfg f).alters = true) := by
  cases ho : s.tpOpen with
  | false => exact .inl (by rw [exchange_closed ho])
  | true =>
    cases ha : (chipCommand s.cfg f).alters with
    | true => exact .inr ⟨rfl, rfl⟩
    | false =>
      refine .inl ?_
      revert h
      simp only [exchange, ho, if_true, takeAnswer_cfg]
      split
      · intro h
        obtain ⟨hf, hm⟩ := chipReceive_mem ha h
        exact hm.trans (takeAnswer_mem hf)
      · exact takeAnswer_mem

/-- Settles O36: of what a step can do to the chip, the exchange alone changes the array outside `CHIP_FAULT`. -/
theorem onlyProgramAndEraseChangeTheArray : Obligations.OnlyProgramAndEraseChangeTheArray := by
  intro s t h hf ⟨x, hx⟩
  have unchanged (hm : t.chip.mem = s.chip.mem) : False := hx (by rw [hm])
  rcases step_chip h with ⟨hc, _⟩ | hc | ⟨hc, _⟩ | hc | ⟨u, f, hchip, htrace, hcfg, hc, ht⟩
  · exact (unchanged (by rw [hc])).elim
  · rw [hc] at hf; cases hf
  · obtain ⟨hfault, hmem⟩ := chipPowerLoss_keeps s.cfg s.draws s.chip
    rw [hc, hfault] at hf
    exact (unchanged (by rw [hc, hmem hf])).elim
  · rw [hc] at hf
    exact (unchanged (by rw [hc, chipComplete_mem hf])).elim
  · rw [hc] at hf
    rcases exchange_mem hf with hm | ⟨ho, ha⟩
    · exact (unchanged (by rw [hc, hm, hchip])).elim
    · exact ⟨f, (exchange f u).1, by rw [ht, exchange_trace ho, htrace], alters_cases (hcfg ▸ ha)⟩

/-! ## The completion step and the hold (20_memory.md R73, R76) -/

/-- The chip's own step comes first, whatever the controller's state (00_scope.md R13). -/
theorem step_chipCompletes {es : List Event} (he : s.events = .chipCompletes :: es) :
    step s = .next (chipTurn (s.withEvents es)) := by simp [step, turn, he]

/-- Outside `CHIP_FAULT` the completion step clears `WIP` and the latch when it is enabled (20_memory.md R73). -/
theorem chipComplete_eq (c : Config) (n : Nat) (hf : chip.fault = false) :
    chipComplete c n chip =
      if chip.wip = true ∧ chip.hold = false then { chip with wip := false, wel := false } else chip := by
  simp [chipComplete, hf]

/-- Settles O34: the step is the chip's, and it changes the chip alone. -/
theorem completionStepClearsBusyAndLatch : Obligations.CompletionStepClearsBusyAndLatch := fun s es he hf =>
  ⟨chipTurn (s.withEvents es), step_chipCompletes he, chipTurn_sameController s es, rfl, rfl,
    chipComplete_eq s.cfg s.draws hf⟩

/-- On hold no number of attempts completes (20_memory.md R73, R76). -/
theorem repeat_chipComplete_held (c : Config) (n tries : Nat) (hf : chip.fault = false) (hh : chip.hold = true) :
    Nat.repeat (chipComplete c n) tries chip = chip := by
  induction tries with
  | zero => rfl
  | succ k ih => rw [Nat.repeat, ih, chipComplete_eq c n hf, if_neg (by simp [hh])]

/-- An erase inside the array at an idle chip has its command's effect (20_memory.md R70). -/
theorem chipReceive_erase {a : Addr} (n : Nat) (k : EraseKind) (hc : c.wf = true) (hf : chip.fault = false)
    (hw : chip.wip = false) (ha : a.toNat < c.flashSize) :
    chipReceive c n chip (frame (eraseOpcode c k) a (.fill 0)) = commandEffect c chip (.erase k a) := by
  have hcmd := chipCommand_erase hc a k
  rw [← hcmd]
  exact chipReceive_clean n hf (frameFaults_idle hw (hcmd ▸ commandFaults_erase ha))

/-- Settles O35: the erase leaves `WIP` and `HOLD` at 1, no attempt completes it, and the status byte shows `WIP`. -/
theorem firstPollAfterAnEraseIsBusy : Obligations.FirstPollAfterAnEraseIsBusy := by
  intro c n m m' chip k a junk tries hc hassume hf hw hwel ha
  rw [chipReceive_erase n k hc hf hw ha]
  generalize herased : commandEffect c chip (.erase k a) = erased
  have hfault : erased.fault = false := herased ▸ (commandEffect_fault ..).trans hf
  have hbusy : erased.wip = true ∧ erased.hold = true := by simp [← herased, commandEffect, hwel, hassume]
  rw [repeat_chipComplete_held c m tries hfault hbusy.2]
  exact ⟨_, chipRespond_rdsr hc junk m' hfault, (busyBit_statusByte c erased).trans hbusy.1⟩

end Sys2Proof.Machine
end

section
/-! The wire commands (20_memory.md R67 to R72, R83; log 14): each is one exchange of its own frame, and what the chip
answers and does is its command's response and effect. -/

namespace Sys2Proof.Machine

variable {c : Config} {s : State} {f : List Byte}

/-! ## Frames on the transport port -/

/-- A wire command is its own frame put on the transport port (30_encoding.md R96; log 14). -/
theorem exec_wire_frame {i : Instr} (h : hostOperands i = none) (s : State) :
    ∃ f, encode s.cfg i = .wire f ∧ exec i s = .next (s.whenReady (sendWire f)) := by
  cases i <;> cases h
  all_goals exact ⟨_, rfl, rfl⟩

/-- Settles O31: while busy the frame is held; in IDLE it is one exchange, or none with the transport closed. -/
theorem wireCommandsLeaveTheControllerAlone : Obligations.WireCommandsLeaveTheControllerAlone := by
  intro i s t h hexec
  obtain ⟨f, hf, hx⟩ := exec_wire_frame h s
  rw [hx] at hexec
  injection hexec with ht
  by_cases hs : s.st = .idle
  · rw [whenReady_idle _ _ hs] at ht
    subst ht
    refine ⟨sendWire_sameController s s.events f, exchange_events, ?_⟩
    cases ho : s.tpOpen with
    | false => exact .inl (by rw [sendWire, exchange_closed ho])
    | true => exact .inr ⟨f, (exchange f s).1, hf, exchange_trace ho⟩
  · rw [whenReady_busy _ _ hs] at ht
    subst ht
    exact ⟨withEvents_sameController s s.events, .inl rfl, .inl rfl⟩

/-- What is presented to an idle controller is the step (41_sequencer.md R149). -/
theorem step_present {cmd : Command} {es : List Event} (hs : s.st = .idle) (he : s.events = .present cmd :: es) :
    step s = presentCommand cmd (s.withEvents es) := by simp [step, turn, hostTurn, he, hs]

/-- A frame that decodes to no instruction is put on the transport port all the same (20_memory.md R74; log 20). -/
theorem presentCommand_undecoded {e : DecodeError} (hs : s.st = .idle) (hd : decode s.cfg (.wire f) = .error e) :
    presentCommand (.wire f) s = .next (sendWire f s) := by
  simp [presentCommand, hd, undecoded, whenReady_idle s _ hs]

/-- Settles O58: the step is one exchange of the frame, or none with the transport closed. -/
theorem undecodedFramesReachTheChip : Obligations.UndecodedFramesReachTheChip := by
  intro s f e es hs he hd
  have hstep : step s = .next (sendWire f (s.withEvents es)) :=
    (step_present hs he).trans (presentCommand_undecoded hs hd)
  refine ⟨fun ho => ?_, fun ho => ?_⟩
  · rw [hstep, sendWire, exchange_closed (s := s.withEvents es) ho]
  · refine ⟨_, (exchange f (s.withEvents es)).1, hstep, sendWire_sameController s es f, exchange_trace ho,
      exchange_events, fun junk es' hes => ⟨?_, exchange_answered (s := s.withEvents es) f ho hes⟩⟩
    rw [sendWire, exchange_scripted (s := s.withEvents es) ho hes]

/-! ## READ, WREN, RDSR, RDID (20_memory.md R67, R69, R71, R72) -/

/-- Settles O25: the array's bytes stand after the five undriven bytes of the response. -/
theorem wireReadAnswersTheArray : Obligations.WireReadAnswersTheArray := by
  intro s a n junk es hs ho hf hw he ha hl
  have hcmd := chipCommand_read s.cfg a (.fill n)
  rw [fill_length] at hcmd
  have hff : frameFaults s.cfg s.chip (frame s.cfg.opcodes.read a (.fill n)) = false :=
    frameFaults_idle hw (by rw [hcmd]; exact decide_eq_false (Nat.not_lt.mpr ha))
  obtain ⟨hdone, hchip⟩ := sendWire_clean ho he hl hf hff hcmd
  refine ⟨_, _, congrArg Host.Outcome.next (whenReady_idle s _ hs), hdone, fun i hi => ?_, hchip⟩
  rw [commandResponse, List.getElem?_append_right (by simp), drawBytes_length, Nat.add_sub_cancel_left,
    readRange_getElem? _ _ _ _ hi]

/-- Settles O27: `WREN` does not fault, and its effect is the latch. -/
theorem wireWriteEnableSetsTheLatch : Obligations.WireWriteEnableSetsTheLatch := by
  intro s junk es hc hs ho hf hw he
  have hcmd := chipCommand_wren hc
  have hff : frameFaults s.cfg s.chip (frame0 s.cfg.opcodes.wren 0) = false := frameFaults_idle hw (by rw [hcmd]; rfl)
  obtain ⟨hdone, hchip⟩ := sendWire_clean ho he (tooLong_single hc _) hf hff hcmd
  exact ⟨_, _, congrArg Host.Outcome.next (whenReady_idle s _ hs), hdone, hchip⟩

/-- Settles O29: `RDSR` faults at no chip, its response repeats the status byte, its effect ends the hold. -/
theorem wireStatusReadAnswersTheStatus : Obligations.WireStatusReadAnswersTheStatus := by
  intro s junk es hc hs ho hf he hl
  obtain ⟨hdone, hchip⟩ := sendWire_clean ho he hl hf (frameFaults_rdsr hc s.chip) (chipCommand_rdsr hc)
  exact ⟨_, _, congrArg Host.Outcome.next (whenReady_idle s _ hs), hdone,
    congrArg some (statusByte_fields s.cfg s.chip).1, hchip⟩

/-- `ID_LEN` fillers are answered with exactly `CHIP_ID` (20_memory.md R72). -/
theorem idBytes_chipId (hc : c.wf = true) (junk : List Byte) (n : Nat) : idBytes c junk n c.idLen = c.chipId := by
  have hl := (idLen_facts hc).2
  simp [idBytes, ← hl, drawBytes]

/-- Settles O30: `RDID` does not fault, and its response is `CHIP_ID` after the undriven byte. -/
theorem wireIdentificationAnswersTheChipId : Obligations.WireIdentificationAnswersTheChipId := by
  intro s junk es hc hs ho hf hw he hl
  have hcmd := chipCommand_rdid hc
  have hff : frameFaults s.cfg s.chip (frame0 s.cfg.opcodes.rdid s.cfg.idLen) = false :=
    frameFaults_idle hw (by rw [hcmd]; rfl)
  obtain ⟨hdone, hchip⟩ := sendWire_clean ho he hl hf hff hcmd
  exact ⟨_, _, congrArg Host.Outcome.next (whenReady_idle s _ hs), hdone, idBytes_chipId hc junk s.draws, hchip⟩

/-! ## The erases (20_memory.md R70) -/

/-- With the latch clear a program or an erase has no effect and does not fault (20_memory.md R68, R70; log 10). -/
theorem command_latch_clear (c : Config) {chip : Chip} {cmd : ChipCommand} (h : cmd.alters = true)
    (hwel : chip.wel = false) : commandFaults c chip cmd = false ∧ commandEffect c chip cmd = chip := by
  rcases alters_cases h with ⟨a, d, rfl⟩ | ⟨k, a, rfl⟩ <;> simp [commandFaults, commandEffect, hwel]

/-- What an erase with the latch set leaves at each address: the aligned block at 0xFF, cut at the end of the array
(20_memory.md R70). -/
theorem read_erase (c : Config) {chip : Chip} (k : EraseKind) (a : Addr) (hwel : chip.wel = true) (x : Nat) :
    Memory.read (commandEffect c chip (.erase k a)).mem x =
      if blockStart (blockSize c k) a.toNat ≤ x ∧
          x < min (blockStart (blockSize c k) a.toNat + blockSize c k) c.flashSize then erasedByte
      else Memory.read chip.mem x := by
  simp only [commandEffect, hwel, if_true]
  exact read_eraseRange _ _ _ _

/-- Settles O28: the four commands are one exchange each, and the chip erases the aligned block. -/
theorem wireEraseClearsTheAlignedBlock : Obligations.WireEraseClearsTheAlignedBlock := by
  intro s k a junk es hc hs ho hf hw he ha hl
  have hcmd := chipCommand_erase hc a k
  have hff : frameFaults s.cfg s.chip (frame (eraseOpcode s.cfg k) a (.fill 0)) = false :=
    frameFaults_idle hw (by rw [hcmd]; exact commandFaults_erase ha)
  obtain ⟨hdone, hchip⟩ := sendWire_clean ho he hl hf hff hcmd
  refine ⟨_, _, ?_, hdone, fun hwel => ?_, fun hwel => ⟨?_, ?_, ?_, ?_, fun g hg x => ?_⟩⟩
  · cases k <;> exact congrArg Host.Outcome.next (whenReady_idle s _ hs)
  · exact hchip.trans (command_latch_clear s.cfg rfl hwel).2
  · simp [hchip, commandEffect, hwel]
  · simp [hchip, commandEffect, hwel]
  · simp [hchip, hf]
  · simp [hchip, commandEffect, hwel]
  · obtain rfl : g = blockSize s.cfg k := by cases k <;> exact hg
    rw [hchip]
    exact read_erase s.cfg k a hwel x

/-! ## PROGRAM (20_memory.md R68) -/

/-- No two bytes of a payload of at most a page land on one address. -/
theorem programTarget_injective {page a i j : Nat} (hi : i < page) (hj : j < page)
    (h : programTarget page a i = programTarget page a j) : i = j := by
  have hmod : (a % page + i) % page = (a % page + j) % page := Nat.add_left_cancel h
  exact (Nat.ModEq.add_left_cancel' (a % page) hmod).eq_of_lt_of_lt hi hj

/-- A program of at most a page leaves `PROGRAM_CELL(MEM[t], d[j])` at the target `t` of payload byte `j`, wrap or not. -/
theorem read_programBytes_target (rule : CellRule) (page a : Nat) (d : List Byte) (i : Nat) {m : Memory}
    (hm : Memory.wf m = true) (hp : i + d.length ≤ page) (j : Nat) (hj : j < d.length) :
    Memory.read (programBytes rule page a d i m) (programTarget page a (i + j)) =
      programCell rule (Memory.read m (programTarget page a (i + j))) d[j] := by
  induction d generalizing i m j with
  | nil => exact absurd hj (Nat.not_lt_zero j)
  | cons b d ih =>
    rw [List.length_cons] at hp hj
    have hm' := wf_write (programTarget page a i) (programCell rule (Memory.read m (programTarget page a i)) b) hm
    cases j with
    | zero =>
      have later : ∀ l, l < d.length → programTarget page a (i + 0) ≠ programTarget page a (i + 1 + l) := fun l hl h => by
        have := programTarget_injective (by omega) (by omega) h
        omega
      rw [programBytes, read_programBytes_other rule page a d (i + 1) hm' _ later, read_write hm]
      simp
    | succ j =>
      have hne : programTarget page a (i + 1 + j) ≠ programTarget page a i := fun h => by
        have := programTarget_injective (by omega) (by omega) h
        omega
      rw [show i + (j + 1) = i + 1 + j by omega, programBytes, ih (i + 1) hm' (by omega) j (by omega), read_write hm,
        if_neg hne, List.getElem_cons_succ]

/-- A program of one byte up to a page at an address of the array, its page not cut by the array's end, does not fault
(20_memory.md R68; log 11). -/
theorem commandFaults_program_page {chip : Chip} {a : Addr} {d : List Byte} (h1 : 1 ≤ d.length)
    (h2 : d.length ≤ c.pageSize) (h3 : a.toNat < c.flashSize)
    (h4 : programEnd c.pageSize a.toNat d.length ≤ c.flashSize) : commandFaults c chip (.program a d) = false := by
  have hd : d ≠ [] := List.ne_nil_of_length_pos h1
  simp [commandFaults, hd, Nat.not_lt.mpr h2, Nat.not_le.mpr h3, Nat.not_lt.mpr h4]

/-- Settles O26: with the latch clear the frame is ignored; with it set its bytes land on distinct addresses of the
page. -/
theorem wireProgramWrapsInsideThePage : Obligations.WireProgramWrapsInsideThePage := by
  intro s a d junk es hc hs ho hsound hf hw he hl
  have hcmd := chipCommand_program hc a d
  have sent (h : commandFaults s.cfg s.chip (.program a d) = false) :=
    sendWire_clean ho he hl hf (frameFaults_idle hw (hcmd.symm ▸ h)) hcmd
  refine ⟨fun hwel => ?_, fun hwel h1 h2 h3 h4 => ?_⟩
  · obtain ⟨hfault, heffect⟩ := command_latch_clear s.cfg (cmd := .program a d) rfl hwel
    obtain ⟨hdone, hchip⟩ := sent hfault
    exact ⟨_, _, congrArg Host.Outcome.next (whenReady_idle s _ hs), hdone, hchip.trans heffect⟩
  · obtain ⟨hdone, hchip⟩ := sent (commandFaults_program_page h1 h2 h3 h4)
    have hm : Memory.wf s.chip.mem = true := (Bool.and_eq_true_iff.mp hsound).1
    simp only [commandEffect, hwel, if_true] at hchip
    refine ⟨_, _, congrArg Host.Outcome.next (whenReady_idle s _ hs), hdone, ?_⟩
    rw [hchip]
    refine ⟨fun i hi => ?_, fun x hx => ?_, rfl, rfl, rfl, hf⟩
    · simpa only [programTarget, Nat.zero_add] using
        read_programBytes_target s.cfg.programCell s.cfg.pageSize a.toNat d 0 hm (by omega) i hi
    · refine read_programBytes_other s.cfg.programCell s.cfg.pageSize a.toNat d 0 hm x fun i hi => ?_
      rw [Nat.zero_add]
      exact hx i hi

end Sys2Proof.Machine
end

section
/-! Whole operations against the chip (20_memory.md R84 to R86): a sequenced operation from its acceptance to its `OK`, one
step of the system at a time, a read after it, and what both leave in the array. -/

namespace Sys2Proof.Machine

variable {c : Config} {s t : State} {o : HostOp} {k : PollClass} {chip : Chip} {i : Instr} {a : Addr}
  {count : BitVec 32} {data w : List Byte} {n : Nat} {es : List Event}

/-! ## Where a run stands -/

/-- The controller is ready, its transport open to `chip`, and the outside world's moves are `es`. -/
structure AtRest (s : State) (c : Config) (chip : Chip) (es : List Event) : Prop where
  st : s.st = .idle
  tpOpen : s.tpOpen = true
  cfg : s.cfg = c
  chip : s.chip = chip
  events : s.events = es

/-- The operation `o` at `a` stands in ENABLE_SENT (10_state.md R29). -/
structure Enabled (s : State) (c : Config) (o : HostOp) (k : PollClass) (a : Addr) (data : List Byte) (chip : Chip)
    (es : List Event) : Prop where
  st : s.st = .enableSent
  op : sequencedOp s.op = some (o, k)
  addr : s.addr = a
  wbuf : s.wbuf = data
  tpOpen : s.tpOpen = true
  cfg : s.cfg = c
  chip : s.chip = chip
  events : s.events = es

/-- An operation of poll class `k` awaits the chip after `n` busy readings (10_state.md R29, R30). -/
structure Awaiting (s : State) (c : Config) (k : PollClass) (n : Nat) (chip : Chip) (es : List Event) : Prop where
  st : s.st = .cmdIssued ∨ s.st = .polling
  op : ∃ o, sequencedOp s.op = some (o, k)
  pollCnt : s.pollCnt = n
  tpOpen : s.tpOpen = true
  cfg : s.cfg = c
  chip : s.chip = chip
  events : s.events = es

/-! ## One step each -/

/-- A host operation's descriptor decodes to it (30_encoding.md R101, R104). -/
theorem decode_encode_host {x : HostOp × Addr × BitVec 32 × List Byte} (c : Config) (h : hostOperands i = some x) :
    decode c (encode c i) = .ok i := by
  cases i <;> cases h <;> rfl

/-- A host operation presented to an idle controller runs (41_sequencer.md R135). -/
theorem step_encoded {x : HostOp × Addr × BitVec 32 × List Byte} (hs : s.st = .idle)
    (he : s.events = .present (encode s.cfg i) :: es) (hi : hostOperands i = some x) :
    step s = exec i (s.withEvents es) := by
  rw [step_present hs he, presentCommand, withEvents_cfg, decode_encode_host s.cfg hi]

/-- An exchange that the chip answers and that does not fault: the command's response and effect, and no register of the
controller changed (20_memory.md R67 to R72). -/
theorem exchange_done {junk f : List Byte} {cmd : ChipCommand} (ho : s.tpOpen = true)
    (he : s.events = .answer (.chip junk) :: es) (hl : tooLong s.cfg f = false) (hf : s.chip.fault = false)
    (hff : frameFaults s.cfg s.chip f = false) (hcmd : chipCommand s.cfg f = cmd) :
    ∃ t, exchange f s = (.ok (commandResponse s.cfg junk s.draws s.chip f.length cmd), t) ∧ SameController s t ∧
      t.chip = commandEffect s.cfg s.chip cmd ∧ t.events = es := by
  subst hcmd
  exact ⟨_, exchange_clean ho he hl hf hff, by constructor <;> rfl, rfl, rfl⟩

/-- `WBUF` is the payload, empty where there is none (30_encoding.md R102). -/
theorem operandBuf_operands (hi : hostOperands i = some (o, a, count, data)) : operandBuf o data = data := by
  cases i <;> cases hi <;> rfl

/-- Acceptance of a valid sequenced operation sets the latch and leads to ENABLE_SENT (41_sequencer.md R136, R142). -/
theorem AtRest.accepted (h : AtRest s c chip (.present (encode c i) :: .answer (.chip w) :: es)) (hc : c.wf = true)
    (hf : chip.fault = false) (hw : chip.wip = false) (hi : hostOperands i = some (o, a, count, data))
    (hk : pollClass o = some k) (hv : valid c o a count data = true) :
    ∃ t, step s = .next t ∧ Enabled t c o k a data { chip with wel := true } es := by
  obtain ⟨hs, ho, rfl, rfl, he⟩ := h
  have hcmd := chipCommand_wren hc
  have hff : frameFaults s.cfg s.chip (frame0 s.cfg.opcodes.wren 0) = false := frameFaults_idle hw (by rw [hcmd]; rfl)
  have hstep := exec_host_valid (s := s.withEvents (.answer (.chip w) :: es)) hs ho hi hv
  obtain ⟨t, hx, same, hchip, hev⟩ :=
    exchange_done (s := loadDescriptor o a count data (s.withEvents (.answer (.chip w) :: es))) ho rfl
      (tooLong_single hc _) hf hff hcmd
  rw [← step_encoded hs he hi, hk, stepEnable_ok (s := loadDescriptor o a count data _) hx] at hstep
  exact ⟨_, hstep, rfl, (congrArg sequencedOp same.op).trans (sequencedOp_code hk), same.addr,
    same.wbuf.trans (operandBuf_operands hi), same.tpOpen.trans ho, same.cfg, hchip, hev⟩

/-- The controller's step in ENABLE_SENT (41_sequencer.md R143). -/
theorem step_issue (hs : s.st = .enableSent) (hop : sequencedOp s.op = some (o, k)) (hio : inOrder s.events = true) :
    step s = .next (stepIssue o s) := by
  rw [step_controller hio (by simp [hs]), controllerTurn, hop]
  exact if_pos hs

/-- The controller's step in CMD_ISSUED and POLLING (41_sequencer.md R146). -/
theorem step_poll (hs : s.st = .cmdIssued ∨ s.st = .polling) (hop : sequencedOp s.op = some (o, k))
    (hio : inOrder s.events = true) : step s = .next (stepPoll k s) := by
  rw [step_controller hio (by rcases hs with hs | hs <;> simp [hs]), controllerTurn, hop]
  exact if_neg (by rcases hs with hs | hs <;> simp [hs])

/-- Step ISSUE at an idle chip has the effect of the operation's command (20_memory.md R68, R70). -/
theorem Enabled.issued (h : Enabled s c o k a data chip (.answer (.chip w) :: es)) (hc : c.wf = true)
    (hf : chip.fault = false) (hw : chip.wip = false) (hclean : commandFaults c chip (issueCommand a data k) = false)
    (hl : tooLong c (issueFrame c k a data) = false) :
    ∃ t, step s = .next t ∧ Awaiting t c k 0 (commandEffect c chip (issueCommand a data k)) es := by
  obtain ⟨hs, hop, rfl, rfl, ho, rfl, rfl, he⟩ := h
  have hcmd := chipCommand_issueFrame hc k s.addr s.wbuf
  obtain ⟨t, hx, same, hchip, hev⟩ := exchange_done ho he hl hf (frameFaults_idle hw (hcmd.symm ▸ hclean)) hcmd
  rw [← mainFrame_issue hop] at hx
  have hstep := step_issue hs hop (by rw [he]; rfl)
  rw [stepIssue_ok hx] at hstep
  exact ⟨_, hstep, .inl rfl, ⟨o, (congrArg sequencedOp same.op).trans hop⟩, rfl, same.tpOpen.trans ho, same.cfg, hchip,
    hev⟩

/-- The chip completes while the operation awaits it (20_memory.md R73). -/
theorem Awaiting.completed (h : Awaiting s c k n chip (.chipCompletes :: es)) (hf : chip.fault = false)
    (hw : chip.wip = true) (hh : chip.hold = false) :
    ∃ t, step s = .next t ∧ Awaiting t c k n { chip with wip := false, wel := false } es := by
  obtain ⟨hs, hop, hn, ho, rfl, rfl, he⟩ := h
  refine ⟨_, step_chipCompletes he, hs, hop, hn, ho, rfl, ?_, rfl⟩
  exact (chipComplete_eq s.cfg s.draws hf).trans (if_pos ⟨hw, hh⟩)

/-- The status read of step POLL at a chip that answers reads the chip's status byte and ends the hold (20_memory.md
R71). -/
theorem Awaiting.reads (h : Awaiting s c k n chip (.answer (.chip w) :: es)) (hc : c.wf = true)
    (hf : chip.fault = false) (hl : tooLong c (frame0 c.opcodes.rdsr 1) = false) :
    ∃ t, step s = .next (pollReading (maxPolls c k) (statusByte c chip) t) ∧ SameController s t ∧
      t.chip = { chip with hold := false } ∧ t.events = es := by
  obtain ⟨hs, ⟨o, hop⟩, _, ho, rfl, rfl, he⟩ := h
  obtain ⟨t, hx, same, hchip, hev⟩ := exchange_done ho he hl hf (frameFaults_rdsr hc s.chip) (chipCommand_rdsr hc)
  obtain ⟨b, hb, hpoll⟩ := stepPoll_ok (k := k) hx
  obtain rfl : statusByte s.cfg s.chip = b := Option.some.inj hb
  exact ⟨t, hpoll ▸ step_poll hs hop (by rw [he]; rfl), same, hchip, hev⟩

/-- A busy reading below the poll budget: the operation goes on waiting, the hold is over (41_sequencer.md R146). -/
theorem Awaiting.polled_busy (h : Awaiting s c k n chip (.answer (.chip w) :: es)) (hc : c.wf = true)
    (hf : chip.fault = false) (hl : tooLong c (frame0 c.opcodes.rdsr 1) = false) (hw : chip.wip = true)
    (hn : maxPolls c k ≠ some (n + 1)) :
    ∃ t, step s = .next t ∧ Awaiting t c k (n + 1) { chip with hold := false } es := by
  obtain ⟨t, hstep, same, hchip, hev⟩ := h.reads hc hf hl
  have hcnt : t.pollCnt = n := same.pollCnt.trans h.pollCnt
  obtain ⟨o, hop⟩ := h.op
  rw [pollReading, if_pos ((busyBit_statusByte c chip).trans hw), hcnt, if_neg hn] at hstep
  exact ⟨_, hstep, .inr rfl, ⟨o, (congrArg sequencedOp same.op).trans hop⟩, rfl, same.tpOpen.trans h.tpOpen,
    same.cfg.trans h.cfg, hchip, hev⟩

/-- A reading with bit 0 = 0 completes the operation with `OK` (41_sequencer.md R146). -/
theorem Awaiting.polled_idle (h : Awaiting s c k n chip (.answer (.chip w) :: es)) (hc : c.wf = true)
    (hf : chip.fault = false) (hl : tooLong c (frame0 c.opcodes.rdsr 1) = false) (hw : chip.wip = false) :
    ∃ t, step s = .next t ∧ AtRest t c { chip with hold := false } es ∧ t.resStatus = .ok ∧ t.resData = [] := by
  obtain ⟨t, hstep, same, hchip, hev⟩ := h.reads hc hf hl
  rw [pollReading, if_neg (by simp [busyBit_statusByte, hw])] at hstep
  exact ⟨_, hstep, ⟨rfl, same.tpOpen.trans h.tpOpen, same.cfg.trans h.cfg, hchip, hev⟩, rfl, rfl⟩

/-- A `readBytes` inside the array of an idle chip returns its bytes and changes nothing on the chip (42_read.md R161). -/
theorem AtRest.read {count : BitVec 32}
    (h : AtRest s c chip (.present (encode c (.readBytes a count)) :: .answer (.chip w) :: es))
    (hf : chip.fault = false) (hw : chip.wip = false) (ha : a.toNat < c.flashSize)
    (hn : a.toNat + count.toNat ≤ c.flashSize) (hl : tooLong c (frame c.opcodes.read a (.fill count.toNat)) = false) :
    ∃ t, step s = .next t ∧ AtRest t c chip es ∧ t.resStatus = .ok ∧
      t.resData = Memory.readRange chip.mem a.toNat count.toNat := by
  obtain ⟨hs, ho, rfl, rfl, he⟩ := h
  have hcmd := chipCommand_read s.cfg a (.fill count.toNat)
  rw [fill_length] at hcmd
  have hff : frameFaults s.cfg s.chip (frame s.cfg.opcodes.read a (.fill count.toNat)) = false :=
    frameFaults_idle hw (by rw [hcmd]; exact decide_eq_false (Nat.not_lt.mpr hn))
  have hstep := exec_host_valid (i := .readBytes a count) (s := s.withEvents (.answer (.chip w) :: es)) hs ho rfl
    (by simp [valid, ha, hn])
  obtain ⟨t, hx, same, hchip, hev⟩ :=
    exchange_done (s := loadDescriptor .readBytes a count [] (s.withEvents (.answer (.chip w) :: es))) ho rfl hl hf hff
      hcmd
  have hlen : t.len = count := same.len
  rw [← step_encoded hs he rfl] at hstep
  simp only [pollClass] at hstep
  rw [stepSingle_ok (o := .readBytes) (s := loadDescriptor .readBytes a count [] _) hx] at hstep
  refine ⟨_, hstep, ⟨rfl, same.tpOpen.trans ho, same.cfg, hchip, hev⟩, rfl, ?_⟩
  simp [resultSlice, hlen, commandResponse]

/-! ## A sequenced operation from acceptance to `OK` -/

/-- Busy readings below the poll budget: the operation still awaits the chip, whose hold the first of them ends. -/
theorem Awaiting.polled_busy_list (busy : List (List Byte))
    (h : Awaiting s c k n chip (busy.map (fun w => .answer (.chip w)) ++ es)) (hc : c.wf = true)
    (hf : chip.fault = false) (hl : tooLong c (frame0 c.opcodes.rdsr 1) = false) (hw : chip.wip = true)
    (hn : ∀ m, maxPolls c k = some m → n + busy.length < m) :
    ∃ t, runs busy.length s t ∧
      Awaiting t c k (n + busy.length) { chip with hold := chip.hold && busy.isEmpty } es := by
  induction busy generalizing s n chip with
  | nil => exact ⟨s, rfl, by simpa using h⟩
  | cons w busy ih =>
    have hn' : ∀ m, maxPolls c k = some m → n + 1 + busy.length < m := fun m hm => by
      have := hn m hm
      rw [List.length_cons] at this
      omega
    obtain ⟨u, hstep, hu⟩ := h.polled_busy hc hf hl hw fun hm => by have := hn' _ hm; omega
    obtain ⟨t, hruns, ht⟩ := ih hu hf hw hn'
    refine ⟨t, ⟨u, hstep, hruns⟩, ?_⟩
    rw [List.length_cons, Nat.add_comm busy.length, ← Nat.add_assoc]
    simpa using ht

/-- The effect of a program or erase with the latch set makes the chip busy (20_memory.md R68, R70). -/
theorem issueCommand_busy (c : Config) (a : Addr) (data : List Byte) (k : PollClass) (hwel : chip.wel = true) :
    (commandEffect c chip (issueCommand a data k)).wip = true := by
  cases k <;> simp [issueCommand, commandEffect, hwel]

/-- The chip once a program or erase command has been issued, with the latch set before it. -/
def issuedChip (c : Config) (chip : Chip) (k : PollClass) (a : Addr) (data : List Byte) : Chip :=
  commandEffect c { chip with wel := true } (issueCommand a data k)

/-- A chip after its completion and a status read: neither busy nor enabled nor on hold (20_memory.md R71, R73). -/
def Chip.settled (chip : Chip) : Chip := { chip with wip := false, wel := false, hold := false }

/-- A valid sequenced operation whose chip completes after busy readings below the poll budget, at least one where the
chip is on hold, ends in `OK` with the effect of its command in the array (41_sequencer.md R154, 20_memory.md R73). -/
theorem AtRest.sequenced {w0 w1 w2 : List Byte} (busy : List (List Byte))
    (h : AtRest s c chip (.present (encode c i) :: .answer (.chip w0) :: .answer (.chip w1) ::
      (busy.map (fun w => .answer (.chip w)) ++ .chipCompletes :: .answer (.chip w2) :: es)))
    (hc : c.wf = true) (hf : chip.fault = false) (hw : chip.wip = false)
    (hi : hostOperands i = some (o, a, count, data)) (hk : pollClass o = some k) (hv : valid c o a count data = true)
    (hb : o = .writeByte → data.length = 1) (hl : tooLong c (issueFrame c k a data) = false)
    (hn : ∀ m, maxPolls c k = some m → busy.length < m) (hh : busy = [] → (issuedChip c chip k a data).hold = false) :
    ∃ t, runs (busy.length + 4) s t ∧ AtRest t c (issuedChip c chip k a data).settled es ∧ t.resStatus = .ok := by
  have hfault : (issuedChip c chip k a data).fault = false := (commandEffect_fault ..).trans hf
  have hbusy : (issuedChip c chip k a data).wip = true := issueCommand_busy c a data k rfl
  have hrdsr : tooLong c (frame0 c.opcodes.rdsr 1) = false :=
    tooLong_mono hl (by rw [frame0_length, issueFrame_length]; omega)
  have hhold : ((issuedChip c chip k a data).hold && busy.isEmpty) = false := by
    cases busy with
    | nil => simp [hh rfl]
    | cons => simp
  obtain ⟨u1, h1, hu1⟩ := h.accepted hc hf hw hi hk hv
  obtain ⟨u2, h2, hu2⟩ := hu1.issued hc hf hw (issueCommand_clean hc _ hk hv hb) hl
  obtain ⟨u3, h3, hu3⟩ := Awaiting.polled_busy_list busy hu2 hc hfault hrdsr hbusy (by simpa using hn)
  obtain ⟨u4, h4, hu4⟩ := hu3.completed hfault hbusy hhold
  obtain ⟨t, h5, ht, hok, _⟩ := hu4.polled_idle hc hfault hrdsr rfl
  exact ⟨t, ⟨u1, h1, u2, h2, runs_trans h3 ⟨u4, h4, t, h5, rfl⟩⟩, ht, hok⟩

/-! ## What the array holds (20_memory.md R84 to R86) -/

/-- `PROGRAM_CELL(0xFF, d) = d` (20_memory.md R68). -/
@[simp] theorem programCell_erased (rule : CellRule) (d : Byte) : programCell rule erasedByte d = d := if_pos rfl

/-- What a program inside its page with the latch set leaves at each address, its target being erased: the payload, and
every other byte as it was (20_memory.md R68). -/
theorem read_program_erased {d : List Byte} (hm : Memory.wf chip.mem = true) (hwel : chip.wel = true)
    (hp : a.toNat % c.pageSize + d.length ≤ c.pageSize)
    (herased : ∀ x, a.toNat ≤ x → x < a.toNat + d.length → Memory.read chip.mem x = erasedByte) (x : Nat) :
    Memory.read (commandEffect c chip (.program a d)).mem x =
      if a.toNat ≤ x ∧ x < a.toNat + d.length then d.getD (x - a.toNat) 0 else Memory.read chip.mem x := by
  simp only [commandEffect, hwel, if_true]
  rw [read_programBytes c.programCell c.pageSize a.toNat d 0 hm (by omega), Nat.add_zero]
  split
  · rename_i hx
    rw [herased x hx.1 hx.2, programCell_erased]
  · rfl

/-- A range that reads as a list byte by byte is that list (20_memory.md R52). -/
theorem readRange_eq {m : Memory} {l : List Byte} {b : Nat}
    (h : ∀ j (hj : j < l.length), Memory.read m (b + j) = l[j]) : Memory.readRange m b l.length = l := by
  refine List.ext_getElem (readRange_length m b l.length) fun j h1 h2 => ?_
  rw [← h j h2, List.getElem_eq_iff]
  exact readRange_getElem? m b l.length j h2

/-- Settles O54: the write leaves the payload in its erased target, and the read returns the target. -/
theorem writeReadRoundTrip : Obligations.WriteReadRoundTrip := by
  intro s a p j w0 w1 w2 w3 busy es hinv hs ho hf hw hh hl h1 h2 hp hfl herased hj hn he
  subst hj
  have hm : Memory.wf s.chip.mem = true := (Bool.and_eq_true_iff.mp hinv.array).1
  have hv : valid s.cfg .writeBytes a 0 p = true := by
    simp only [valid, Bool.and_eq_true, decide_eq_true_eq]
    omega
  have hcount : (BitVec.ofNat 32 p.length).toNat = p.length := by
    rw [BitVec.toNat_ofNat, Nat.mod_eq_of_lt h2]
  obtain ⟨u, hruns, hu, _⟩ := AtRest.sequenced (c := s.cfg) (chip := s.chip) busy ⟨hs, ho, rfl, rfl, he⟩ hinv.config hf
    hw rfl rfl hv (fun h => by cases h) hl hn fun _ => by simpa [issuedChip, issueCommand, commandEffect] using hh
  have hread := read_program_erased (c := s.cfg) (chip := { s.chip with wel := true }) hm rfl hp herased
  have hfault : (issuedChip s.cfg s.chip .program a p).settled.fault = false := (commandEffect_fault ..).trans hf
  obtain ⟨t, hstep, ht, hok, hdata⟩ := hu.read hfault rfl (by omega) (by rw [hcount]; exact hfl)
    (tooLong_mono hl (by simp [hcount]))
  refine ⟨t, runs_trans (b := 1) hruns ⟨t, hstep, rfl⟩, ht.st, hok, ?_, ht.events, ?_⟩
  · rw [hdata, hcount]
    refine readRange_eq fun j hj => (hread _).trans ?_
    rw [if_pos (by omega), Nat.add_sub_cancel_left, List.getD_eq_getElem _ _ hj]
  · rw [ht.chip]
    exact ⟨hfault, rfl, rfl, fun x hx => (hread x).trans (if_neg (by omega))⟩

/-- The host operation of an erase command (44_erase.md R170). -/
def eraseOp : EraseKind → HostOp
  | .sub4K => .erase4K
  | .sub32K => .erase32K
  | .sector => .eraseSector
  | .die => .eraseDie

/-- The row of an erase in the dispatch table (41_sequencer.md R137, R139). -/
theorem eraseOp_row (c : Config) (k : EraseKind) {a : Addr} (ha : a.toNat < c.flashSize) :
    pollClass (eraseOp k) = some (.erase k) ∧ valid c (eraseOp k) a 0 [] = true ∧ eraseOp k ≠ .writeByte := by
  cases k <;> simp [eraseOp, pollClass, valid, ha]

/-- Settles O55: the erase leaves 0xFF in its block, and a read inside the block returns nothing else. -/
theorem erasedBlockReadsAllOnes : Obligations.ErasedBlockReadsAllOnes := by
  intro s k a b n w0 w1 w2 w3 busy es hinv hs ho hf hw hl ha hb hfl hlo hhi hhold hn he
  obtain ⟨hk, hv, hne⟩ := eraseOp_row s.cfg k ha
  obtain ⟨u, hruns, hu, _⟩ := AtRest.sequenced (c := s.cfg) (chip := s.chip) (o := eraseOp k) (a := a) (count := 0)
    (data := []) busy ⟨hs, ho, rfl, rfl, he⟩ hinv.config hf hw (by cases k <;> rfl) hk hv (fun h => absurd h hne)
    (tooLong_mono hl (by simp [issueFrame_length])) hn fun hempty => by
      obtain ⟨hassume, hh⟩ := hhold hempty
      simp [issuedChip, issueCommand, commandEffect, hassume, hh]
  have hread := read_erase s.cfg (chip := { s.chip with wel := true }) k a rfl
  have hfault : (issuedChip s.cfg s.chip (.erase k) a []).settled.fault = false := (commandEffect_fault ..).trans hf
  obtain ⟨t, hstep, ht, hok, hdata⟩ := hu.read hfault rfl hb hfl hl
  refine ⟨t, runs_trans (b := 1) hruns ⟨t, hstep, rfl⟩, ht.st, hok, ?_, ht.events, ?_⟩
  · rw [hdata, ← List.length_replicate (n := n.toNat) (a := erasedByte)]
    refine (readRange_eq fun j hj => (hread _).trans ?_).trans (by rw [List.length_replicate]; rfl)
    rw [List.length_replicate] at hj
    rw [List.getElem_replicate]
    exact if_pos (by unfold blockStart; omega)
  · rw [ht.chip]
    exact ⟨hfault, rfl, rfl, fun x hx => (hread x).trans (if_neg (by unfold blockStart; omega))⟩

/-- `RDSR` at the chip ends the hold (20_memory.md R71). -/
theorem chipReceive_rdsr (n : Nat) (hc : c.wf = true) (hf : chip.fault = false) :
    chipReceive c n chip (frame0 c.opcodes.rdsr 1) = { chip with hold := false } := by
  rw [chipReceive_clean n hf (frameFaults_rdsr hc chip), chipCommand_rdsr hc]; rfl

/-- `WREN` at an idle chip sets the latch (20_memory.md R67). -/
theorem chipReceive_wren (n : Nat) (hc : c.wf = true) (hf : chip.fault = false) (hw : chip.wip = false) :
    chipReceive c n chip (frame0 c.opcodes.wren 0) = { chip with wel := true } := by
  have hcmd := chipCommand_wren hc
  rw [chipReceive_clean n hf (frameFaults_idle hw (by rw [hcmd]; rfl)), hcmd]; rfl

/-- A program inside its page and the array at an idle chip has its command's effect (20_memory.md R68). -/
theorem chipReceive_program {d : List Byte} (n : Nat) (hc : c.wf = true) (hf : chip.fault = false)
    (hw : chip.wip = false) (h1 : 1 ≤ d.length) (h2 : a.toNat % c.pageSize + d.length ≤ c.pageSize)
    (h3 : a.toNat + d.length ≤ c.flashSize) :
    chipReceive c n chip (frame c.opcodes.program a (.data d)) = commandEffect c chip (.program a d) := by
  have hcmd := chipCommand_program hc a d
  rw [chipReceive_clean n hf (frameFaults_idle hw (hcmd.symm ▸ commandFaults_program h1 h2 h3)), hcmd]

/-- Settles O56: the erase leaves the block at 0xFF and busy, the status read and the completion step make the chip idle,
`WREN` enables it, and the program then writes erased bytes only. -/
theorem eraseThenProgramLeavesExactBytes : Obligations.EraseThenProgramLeavesExactBytes := by
  intro c n0 n1 n2 n3 chip k a b p hc hsound hf hw hwel ha h1 hp hlo hhi after hafter
  have hread := read_erase c k a hwel
  have herased := commandEffect_sound hc (.erase k a) hsound (commandFaults_erase ha)
  have hfault := (commandEffect_fault c chip (.erase k a)).trans hf
  have hbusy : (commandEffect c chip (.erase k a)).wip = true := issueCommand_busy c a [] (.erase k) hwel
  rw [chipReceive_erase n0 k hc hf hw ha] at hafter
  generalize commandEffect c chip (.erase k a) = erased at hread herased hfault hbusy hafter
  have hsettled : chipComplete c n1 (chipReceive c n1 erased (frame0 c.opcodes.rdsr 1)) = erased.settled := by
    rw [chipReceive_rdsr n1 hc hfault]
    exact (chipComplete_eq (chip := { erased with hold := false }) c n1 hfault).trans (if_pos ⟨hbusy, rfl⟩)
  have henabled : chipReceive c n2 erased.settled (frame0 c.opcodes.wren 0) = { erased.settled with wel := true } :=
    chipReceive_wren n2 hc hfault rfl
  rw [hsettled, henabled, chipReceive_program (chip := { erased.settled with wel := true }) n3 hc hfault rfl h1 hp
    (by omega)] at hafter
  subst hafter
  refine ⟨(commandEffect_fault ..).trans hfault, fun x hx1 hx2 => ?_⟩
  have hprogram := read_program_erased (chip := { erased.settled with wel := true })
    (Bool.and_eq_true_iff.mp herased).1 rfl hp fun y hy1 hy2 => (hread y).trans (if_pos (by omega))
  exact (hprogram x).trans (if_congr Iff.rfl rfl ((hread x).trans (if_pos ⟨hx1, hx2⟩)))

end Sys2Proof.Machine
end

section
/-! The encoding family (30_encoding.md), frames: for each format, which bytes its decoder accepts and as what, in both
directions; the two round trips are read off these. -/

namespace Sys2Proof

variable {c : Config} {op : Byte} {rest : List Byte} {i j : Instr}

/-! ## What each format's decoder accepts (30_encoding.md R90, R91, R94) -/

/-- Four bytes are the address bytes of the address they spell (30_encoding.md R93). -/
theorem addrBytes_addrOfBytes (a3 a2 a1 a0 : Byte) : addrBytes (addrOfBytes a3 a2 a1 a0) = [a3, a2, a1, a0] := by
  have h3 : (addrOfBytes a3 a2 a1 a0).extractLsb' 24 8 = a3 :=
    (BitVec.extractLsb'_append_eq_of_le (by decide)).trans <|
      (BitVec.extractLsb'_append_eq_of_le (by decide)).trans BitVec.extractLsb'_append_eq_left
  have h2 : (addrOfBytes a3 a2 a1 a0).extractLsb' 16 8 = a2 :=
    (BitVec.extractLsb'_append_eq_of_le (by decide)).trans <|
      (BitVec.extractLsb'_append_eq_of_le (by decide)).trans BitVec.extractLsb'_append_eq_right
  have h1 : (addrOfBytes a3 a2 a1 a0).extractLsb' 8 8 = a1 :=
    (BitVec.extractLsb'_append_eq_of_le (by decide)).trans BitVec.extractLsb'_append_eq_right
  have h0 : (addrOfBytes a3 a2 a1 a0).extractLsb' 0 8 = a0 := BitVec.extractLsb'_append_eq_right
  rw [addrBytes, h3, h2, h1, h0]

/-- An opcode and four bytes more are the head of an addressed frame (30_encoding.md R91). -/
theorem frame_addrOfBytes (op a3 a2 a1 a0 : Byte) (pl : Payload) :
    frame op (addrOfBytes a3 a2 a1 a0) pl = op :: a3 :: a2 :: a1 :: a0 :: pl.bytes := by
  rw [frame, addrBytes_addrOfBytes]; rfl

/-- Bytes that are all fillers (30_encoding.md R94). -/
theorem all_fillers_iff (l : List Byte) : l.all (· == 0x00) = true ↔ l = List.replicate l.length 0x00 := by
  simp [List.eq_replicate_iff]

/-- Formats N and S: the frames of the opcode and its `n` fillers (40_framer.md R123). -/
theorem decodeFillers_eq_ok {n : Nat} : decodeFillers op n rest j = .ok i ↔ op :: rest = frame0 op n ∧ i = j := by
  constructor
  · intro h
    unfold decodeFillers at h
    split_ifs at h with hlen hfill
    cases h
    exact ⟨congrArg _ (not_not.mp hlen ▸ (all_fillers_iff rest).mp hfill), rfl⟩
  · rintro ⟨hf, rfl⟩
    cases hf
    simp [decodeFillers]

/-- Format A: the five-byte frames of an address (40_framer.md R120). -/
theorem decodeAddress_eq_ok {mk : Addr → Instr} :
    decodeAddress op rest mk = .ok i ↔ ∃ a, op :: rest = frame op a (.fill 0) ∧ i = mk a := by
  constructor
  · intro h
    unfold decodeAddress at h
    split at h
    · cases h
      exact ⟨_, (frame_addrOfBytes _ _ _ _ _ (.fill 0)).symm, rfl⟩
    · cases h
  · rintro ⟨a, hf, rfl⟩
    cases hf
    exact congrArg (Except.ok ∘ mk) (addrOfBytes_extract a)

/-- Format AR: the frames of an address and as many fillers as `LEN` can count (40_framer.md R120). -/
theorem decodeRead_eq_ok : decodeRead op rest = .ok i ↔
    ∃ a n, op :: rest = frame op a (.fill n) ∧ n < 2 ^ 32 ∧ i = .wireRead a n := by
  constructor
  · intro h
    unfold decodeRead at h
    split at h
    · rename_i a3 a2 a1 a0 fill
      split_ifs at h with hlen hfill
      cases h
      refine ⟨_, _, ?_, not_le.mp hlen, rfl⟩
      rw [frame_addrOfBytes, Payload.bytes, ← (all_fillers_iff fill).mp hfill]
    · cases h
  · rintro ⟨a, n, hf, hn, rfl⟩
    cases hf
    have hlen : ¬ 2 ^ 32 ≤ (Payload.fill n).bytes.length := by rw [fill_length]; exact not_le.mpr hn
    have hfill : (Payload.fill n).bytes.all (· == 0x00) = true := by simp [Payload.bytes]
    exact (if_neg hlen).trans <| (if_pos hfill).trans (by rw [addrOfBytes_extract]; simp)

/-- Format AW: the frames of an address and a payload of one byte to a page (40_framer.md R120). -/
theorem decodeProgram_eq_ok : decodeProgram c op rest = .ok i ↔
    ∃ a d, op :: rest = frame op a (.data d) ∧ (1 ≤ d.length ∧ d.length ≤ c.pageSize) ∧ i = .wireProgram a d := by
  constructor
  · intro h
    unfold decodeProgram at h
    split at h
    · rename_i a3 a2 a1 a0 d
      split_ifs at h with hlen
      cases h
      exact ⟨_, d, (frame_addrOfBytes _ _ _ _ _ (.data d)).symm, hlen, rfl⟩
    · cases h
  · rintro ⟨a, d, hf, hlen, rfl⟩
    cases hf
    exact (if_pos hlen).trans (congrArg (fun a => Except.ok (Instr.wireProgram a d)) (addrOfBytes_extract a))

/-! ## Which format each opcode selects (30_encoding.md R96) -/

theorem decodeFrame_read (c : Config) (rest : List Byte) :
    decodeFrame c (c.opcodes.read :: rest) = decodeRead c.opcodes.read rest := by simp [decodeFrame]

section Opcode
variable (h : c.wf = true) (rest : List Byte)
include h

theorem decodeFrame_program :
    decodeFrame c (c.opcodes.program :: rest) = decodeProgram c c.opcodes.program rest := by
  simp [decodeFrame, opcodes_ne h]

theorem decodeFrame_wren :
    decodeFrame c (c.opcodes.wren :: rest) = decodeFillers c.opcodes.wren 0 rest .wireWren := by
  simp [decodeFrame, opcodes_ne h]

theorem decodeFrame_erase4K :
    decodeFrame c (c.opcodes.erase4K :: rest) = decodeAddress c.opcodes.erase4K rest .wireErase4K := by
  simp [decodeFrame, opcodes_ne h]

theorem decodeFrame_erase32K :
    decodeFrame c (c.opcodes.erase32K :: rest) = decodeAddress c.opcodes.erase32K rest .wireErase32K := by
  simp [decodeFrame, opcodes_ne h]

theorem decodeFrame_eraseSector :
    decodeFrame c (c.opcodes.eraseSector :: rest) = decodeAddress c.opcodes.eraseSector rest .wireEraseSector := by
  simp [decodeFrame, opcodes_ne h]

theorem decodeFrame_eraseDie :
    decodeFrame c (c.opcodes.eraseDie :: rest) = decodeAddress c.opcodes.eraseDie rest .wireEraseDie := by
  simp [decodeFrame, opcodes_ne h]

theorem decodeFrame_rdsr :
    decodeFrame c (c.opcodes.rdsr :: rest) = decodeFillers c.opcodes.rdsr 1 rest .wireRdsr := by
  simp [decodeFrame, opcodes_ne h]

theorem decodeFrame_rdid :
    decodeFrame c (c.opcodes.rdid :: rest) = decodeFillers c.opcodes.rdid c.idLen rest .wireRdid := by
  simp [decodeFrame, opcodes_ne h]

end Opcode

/-! ## The two round trips -/

/-- Settles O3: each opcode selects its own format, since the nine are distinct, and the format's decoder accepts the
frames of its well-formed operands; a host operation goes by its code. -/
theorem decodeOfEncodeIsTheInstruction : Obligations.DecodeOfEncodeIsTheInstruction := by
  intro c i hc hi
  cases i with
  | wireRead a n => exact (decodeFrame_read c _).trans (decodeRead_eq_ok.mpr ⟨a, n, rfl, of_decide_eq_true hi, rfl⟩)
  | wireProgram a d =>
    have hlen : 1 ≤ d.length ∧ d.length ≤ c.pageSize := by simpa [Instr.wf] using hi
    exact (decodeFrame_program hc _).trans (decodeProgram_eq_ok.mpr ⟨a, d, rfl, hlen, rfl⟩)
  | wireWren => exact (decodeFrame_wren hc _).trans (decodeFillers_eq_ok.mpr ⟨rfl, rfl⟩)
  | wireErase4K a => exact (decodeFrame_erase4K hc _).trans (decodeAddress_eq_ok.mpr ⟨a, rfl, rfl⟩)
  | wireErase32K a => exact (decodeFrame_erase32K hc _).trans (decodeAddress_eq_ok.mpr ⟨a, rfl, rfl⟩)
  | wireEraseSector a => exact (decodeFrame_eraseSector hc _).trans (decodeAddress_eq_ok.mpr ⟨a, rfl, rfl⟩)
  | wireEraseDie a => exact (decodeFrame_eraseDie hc _).trans (decodeAddress_eq_ok.mpr ⟨a, rfl, rfl⟩)
  | wireRdsr => exact (decodeFrame_rdsr hc _).trans (decodeFillers_eq_ok.mpr ⟨rfl, rfl⟩)
  | wireRdid => exact (decodeFrame_rdid hc _).trans (decodeFillers_eq_ok.mpr ⟨rfl, rfl⟩)
  | _ => exact Machine.decode_encode_host c rfl

/-- What formats N and S decode is well formed and encodes back to the frame. -/
theorem encode_of_decodeFillers {n : Nat} (hj : encode c j = .wire (frame0 op n)) (hw : j.wf c = true)
    (h : decodeFillers op n rest j = .ok i) : encode c i = .wire (op :: rest) ∧ i.wf c = true := by
  obtain ⟨hf, rfl⟩ := decodeFillers_eq_ok.mp h
  exact ⟨hf ▸ hj, hw⟩

/-- What format A decodes is well formed and encodes back to the frame. -/
theorem encode_of_decodeAddress {mk : Addr → Instr} (hm : ∀ a, encode c (mk a) = .wire (frame op a (.fill 0)))
    (hw : ∀ a, (mk a).wf c = true) (h : decodeAddress op rest mk = .ok i) :
    encode c i = .wire (op :: rest) ∧ i.wf c = true := by
  obtain ⟨a, hf, rfl⟩ := decodeAddress_eq_ok.mp h
  exact ⟨hf ▸ hm a, hw a⟩

/-- Settles O4: byte 0 is one of the nine opcodes, and what the format's decoder accepts is the frame of its operands. -/
theorem encodeOfDecodedFrameIsTheFrame : Obligations.EncodeOfDecodedFrameIsTheFrame := by
  intro c f i h
  cases f with
  | nil => cases h
  | cons op rest =>
    simp only [decodeFrame] at h
    split_ifs at h with hop hop hop hop hop hop hop hop hop
    all_goals subst hop
    · obtain ⟨a, n, hf, hn, rfl⟩ := decodeRead_eq_ok.mp h
      exact ⟨hf ▸ rfl, decide_eq_true hn⟩
    · obtain ⟨a, d, hf, hlen, rfl⟩ := decodeProgram_eq_ok.mp h
      exact ⟨hf ▸ rfl, by simpa [Instr.wf] using hlen⟩
    · exact encode_of_decodeFillers rfl rfl h
    · exact encode_of_decodeAddress (fun _ => rfl) (fun _ => rfl) h
    · exact encode_of_decodeAddress (fun _ => rfl) (fun _ => rfl) h
    · exact encode_of_decodeAddress (fun _ => rfl) (fun _ => rfl) h
    · exact encode_of_decodeAddress (fun _ => rfl) (fun _ => rfl) h
    · exact encode_of_decodeFillers rfl rfl h
    · exact encode_of_decodeFillers rfl rfl h

end Sys2Proof
end

section
/-! The encoding family (30_encoding.md), descriptors: when one is malformed, what one decodes to, and what acceptance loads
from it (30_encoding.md R101 to R105). -/

namespace Sys2Proof.Machine

variable {o : HostOp} {d : Descriptor}

/-! ## Descriptors (30_encoding.md R101, R104, R105) -/

/-- Codes 11 to 15 are the reserved ones (30_encoding.md R104). -/
theorem ofCode_eq_none_iff (b : BitVec 4) : HostOp.ofCode b = none ↔ 10 < b.toNat := by revert b; decide

/-- A code that is not reserved is malformed only as a `writeByte` without exactly one data byte (30_encoding.md R105). -/
theorem malformed_iff_of_code (h : HostOp.ofCode d.op = some o) :
    malformed d = true ↔ o = .writeByte ∧ d.data.length ≠ 1 := by
  have hr : ¬ 10 < d.op.toNat := by rw [← ofCode_eq_none_iff, h]; exact Option.some_ne_none o
  have hw : (d.op == 3) = true ↔ o = .writeByte := by rw [code_of_ofCode h]; cases o <;> decide
  simp only [malformed, Bool.or_eq_true, Bool.and_eq_true, decide_eq_true_eq, hr, hw, false_or]

/-- A malformed descriptor is refused (30_encoding.md R105). -/
theorem decodeDescriptor_malformed (hm : malformed d = true) : ∃ e, decodeDescriptor d = .error e := by
  unfold decodeDescriptor
  cases h : HostOp.ofCode d.op with
  | none => exact ⟨_, rfl⟩
  | some o =>
    obtain ⟨rfl, hlen⟩ := (malformed_iff_of_code h).mp hm
    cases hd : d.data with
    | nil => exact ⟨_, rfl⟩
    | cons v l => cases l with
      | nil => exact absurd (congrArg List.length hd) hlen
      | cons w l => exact ⟨_, rfl⟩

/-- A descriptor that is not malformed gives the operation of its code, with the fields that operation uses
(30_encoding.md R101, R104). -/
theorem decodeDescriptor_wellFormed (hm : malformed d = false) :
    ∃ o count data i, HostOp.ofCode d.op = some o ∧ decodeDescriptor d = .ok i ∧
      hostOperands i = some (o, d.addr, count, data) ∧ (o = .readBytes → count = d.count) ∧
      (o = .writeByte ∨ o = .writeBytes → data = d.data) := by
  unfold decodeDescriptor
  cases h : HostOp.ofCode d.op with
  | none => simp [malformed, (ofCode_eq_none_iff d.op).mp h] at hm
  | some o =>
    cases o
    case writeByte =>
      have hlen : d.data.length = 1 := by simpa [hm] using malformed_iff_of_code h
      obtain ⟨v, hv⟩ := List.length_eq_one_iff.mp hlen
      rw [hv]
      exact ⟨_, _, _, _, rfl, rfl, rfl, nofun, fun _ => rfl⟩
    case readBytes => exact ⟨_, _, _, _, rfl, rfl, rfl, fun _ => rfl, nofun⟩
    case writeBytes => exact ⟨_, _, _, _, rfl, rfl, rfl, nofun, fun _ => rfl⟩
    all_goals exact ⟨_, _, _, _, rfl, rfl, rfl, nofun, nofun⟩

/-- Settles O5: a malformed descriptor is refused, and one that is not decodes by its code. -/
theorem descriptorDecodesByItsCode : Obligations.DescriptorDecodesByItsCode := by
  intro c d
  cases hm : malformed d with
  | true =>
    obtain ⟨e, he⟩ := decodeDescriptor_malformed hm
    exact ⟨iff_of_true ⟨e, he⟩ rfl, fun i hi => nomatch he.symm.trans hi⟩
  | false =>
    obtain ⟨o, count, data, j, ho, hj, hrow, hcount, hdata⟩ := decodeDescriptor_wellFormed hm
    refine ⟨iff_of_false (fun ⟨e, he⟩ => nomatch he.symm.trans hj) nofun, fun i hi => ?_⟩
    obtain rfl : j = i := Except.ok.inj (hj.symm.trans hi)
    refine ⟨o, count, data, hrow, (code_of_ofCode ho).symm, fun h1 => hcount ?_, fun hw => hdata ?_⟩
    · rw [h1] at ho
      exact (Option.some.inj ho).symm
    · exact hw.imp (fun h3 => by rw [h3] at ho; exact (Option.some.inj ho).symm)
        (fun h4 => by rw [h4] at ho; exact (Option.some.inj ho).symm)

/-! ## What acceptance loads (30_encoding.md R102, 41_sequencer.md R136) -/

/-- After acceptance the operand registers hold what its first step loaded, whatever the outcome (41_sequencer.md R136). -/
theorem accept_operands (o : HostOp) (a : Addr) (count : BitVec 32) (data : List Byte) (s : State) :
    SameOperands (loadDescriptor o a count data s) (accept o a count data s) :=
  dispatch_operands o (valid s.cfg o a count data) (loadDescriptor o a count data s)

/-- A length that fits 32 bits is what `LEN` holds (10_state.md R24). -/
theorem lenReg_toNat {draws n : Nat} (h : n < 2 ^ 32) : (lenReg draws n).toNat = n := by
  rw [lenReg, if_pos h, BitVec.toNat_ofNat, Nat.mod_eq_of_lt h]

/-- `WBUF` is empty where there is no payload to write (30_encoding.md R102). -/
theorem operandBuf_of_not_write (h : ¬(o = .writeByte ∨ o = .writeBytes)) (data : List Byte) :
    operandBuf o data = [] := by
  cases o
  case writeByte => exact absurd (.inl rfl) h
  case writeBytes => exact absurd (.inr rfl) h
  all_goals rfl

/-- Settles O14: a host operation presented in IDLE is accepted, and acceptance leaves the operand registers as loaded. -/
theorem acceptanceLoadsOperands : Obligations.AcceptanceLoadsOperands := by
  intro s t i o a count data hs hi ht
  obtain rfl : accept o a count data s = t := by
    rw [exec_host hi, whenReady_idle _ _ hs] at ht
    exact Host.Outcome.next.inj ht
  obtain ⟨hop, haddr, hlen, hwbuf, -, -⟩ := accept_operands o a count data s
  rw [loadDescriptor_len] at hlen
  rw [loadDescriptor_wbuf] at hwbuf
  refine ⟨hop, haddr, ?_, fun hn => hwbuf.trans (operandBuf_of_not_write hn data), ?_, ?_, ?_, ?_⟩ <;> rw [hlen]
  · rintro (rfl | rfl) <;> exact ⟨hwbuf, lenReg_toNat⟩
  · rintro (rfl | rfl) <;> rfl
  · rintro rfl; rfl
  · rintro rfl; exact lenReg_toNat
  · rintro (rfl | rfl | rfl | rfl | rfl) <;> rfl

/-! ## Words written out (30_encoding.md R91, R96, R104) -/

/-- Settles O6: the decoder, run on the eight words. -/
theorem writtenWordsDecode : Obligations.WrittenWordsDecode := by
  and_intros <;> decide

end Sys2Proof.Machine
end

section
/-! The host-side split of a span into page writes (30_encoding.md R108 (a)): what every chunk is, and that the chunks are
the span. -/

namespace Sys2Proof.Machine

variable {page a : Nat} {p : List Byte} {chunk : Nat × List Byte}

/-- A chunk is a part of the span `(a, p)`: at least one byte, inside one page, the span's bytes from its address on. -/
structure ChunkOf (page a : Nat) (p : List Byte) (chunk : Nat × List Byte) : Prop where
  nonempty : 1 ≤ chunk.2.length
  inPage : chunk.1 % page + chunk.2.length ≤ page
  start : a ≤ chunk.1
  stop : chunk.1 + chunk.2.length ≤ a + p.length
  bytes : chunk.2 = (p.drop (chunk.1 - a)).take chunk.2.length

/-- The first bytes of a span, as many as there are up to the end of the page, are a chunk of it. -/
theorem ChunkOf.first (hpage : 1 ≤ page) (hp : p ≠ []) :
    ChunkOf page a p (a, p.take (min p.length (page - a % page))) := by
  have hmod := Nat.mod_lt a hpage
  have hp := List.length_pos_iff.mpr hp
  have hlen := List.length_take_of_le (Nat.min_le_left p.length (page - a % page))
  constructor
  case bytes => rw [Nat.sub_self, List.drop_zero, hlen]
  all_goals simp only [hlen]; omega

/-- A chunk of what is left of a span is a chunk of the span. -/
theorem ChunkOf.of_drop {k : Nat} (hk : k ≤ p.length) (h : ChunkOf page (a + k) (p.drop k) chunk) :
    ChunkOf page a p chunk := by
  obtain ⟨hne, hpage, hstart, hstop, hbytes⟩ := h
  rw [List.length_drop] at hstop
  rw [List.drop_drop, show k + (chunk.1 - (a + k)) = chunk.1 - a by omega] at hbytes
  exact ⟨hne, hpage, by omega, by omega, hbytes⟩

/-- The split of a span gives chunks of it only (30_encoding.md R108 (a)). -/
theorem writeChunks_chunkOf (hpage : 1 ≤ page) {fuel : Nat} (h : chunk ∈ writeChunks page fuel a p) :
    ChunkOf page a p chunk := by
  induction fuel generalizing a p with
  | zero => cases h
  | succ fuel ih =>
    rw [writeChunks] at h
    split at h
    · cases h
    · rename_i hp
      rcases List.mem_cons.mp h with rfl | h
      · exact .first hpage (by simpa using hp)
      · exact .of_drop (Nat.min_le_left ..) (ih h)

/-- The chunks joined are the span, given fuel for one byte a chunk (30_encoding.md R108 (a)). -/
theorem writeChunks_flatten (hpage : 1 ≤ page) {fuel : Nat} (hfuel : p.length ≤ fuel) :
    ((writeChunks page fuel a p).map Prod.snd).flatten = p := by
  induction fuel generalizing a p with
  | zero => exact (List.eq_nil_of_length_eq_zero (Nat.le_zero.mp hfuel)).symm
  | succ fuel ih =>
    rw [writeChunks]
    split
    · rename_i hp
      exact (List.isEmpty_iff.mp hp).symm
    · rename_i hp
      have hlen : 1 ≤ p.length := List.length_pos_iff.mpr (by simpa using hp)
      have hmod := Nat.mod_lt a hpage
      simp only [List.map_cons, List.flatten_cons]
      rw [ih (by rw [List.length_drop]; omega), List.take_append_drop]

/-- A chunk of a span within the array is a valid `writeBytes` at its address (41_sequencer.md R139). -/
theorem ChunkOf.valid_writeBytes {c : Config} (hc : c.wf = true) (h : ChunkOf c.pageSize a p chunk)
    (hspan : a + p.length ≤ c.flashSize) : valid c .writeBytes (BitVec.ofNat 32 chunk.1) 0 chunk.2 = true := by
  obtain ⟨hne, hpage, -, hstop, -⟩ := h
  have haddr : (BitVec.ofNat 32 chunk.1).toNat = chunk.1 :=
    Nat.mod_eq_of_lt (by have := (flashSize_bounds hc).2; omega)
  simp only [valid, haddr, Bool.and_eq_true, decide_eq_true_eq]
  omega

/-- Settles O57: every chunk is a part of the span inside one page, hence a valid write, and the chunks joined are the
span. -/
theorem splitWriteChunksAreValid : Obligations.SplitWriteChunksAreValid := by
  intro c a p hc hspan
  have hpage := pageSize_pos hc
  refine ⟨fun i hi => ?_, writeChunks_flatten hpage le_rfl, fun x d hx => ?_⟩
  · obtain ⟨chunk, hchunk, rfl⟩ := List.mem_map.mp hi
    exact ⟨_, _, rfl, (writeChunks_chunkOf hpage hchunk).valid_writeBytes hc hspan⟩
  · obtain ⟨-, -, hstart, hstop, hbytes⟩ := writeChunks_chunkOf hpage hx
    exact ⟨hstart, hstop, hbytes⟩

end Sys2Proof.Machine
end

section
/-! The framer family (40_framer.md): the bytes of a frame as R120's shifts and masks, the operands read off its head, and
what a failed exchange does. -/

namespace Sys2Proof

/-! ## The frame encoder (40_framer.md R120, R123, R125) -/

/-- The byte of an address at bit `k`, by shift and mask (40_framer.md R120). -/
theorem extractLsb'_eq_shift_mask (a : Addr) (k : Nat) : a.extractLsb' k 8 = ((a >>> k) &&& 0xFF).setWidth 8 := by
  have hmask (n : Nat) : n &&& 255 = n % 256 := Nat.and_two_pow_sub_one_eq_mod n 8
  apply BitVec.eq_of_toNat_eq
  simp [hmask]

/-- The address four bytes spell, by shift and or (40_framer.md R125): bit `i` is that of the byte `i` falls in, and the
other three shifted bytes have 0 there. -/
theorem addrOfBytes_eq_shift_or (b3 b2 b1 b0 : Byte) :
    addrOfBytes b3 b2 b1 b0 =
      (b3.setWidth 32 <<< 24) ||| (b2.setWidth 32 <<< 16) ||| (b1.setWidth 32 <<< 8) ||| b0.setWidth 32 := by
  refine BitVec.eq_of_getLsbD_eq fun i hi => ?_
  simp only [addrOfBytes, BitVec.getLsbD_append, BitVec.getLsbD_or, BitVec.getLsbD_shiftLeft, BitVec.getLsbD_setWidth]
  grind

/-- The address bytes, high byte first, by shift and mask (40_framer.md R120). -/
theorem addrBytes_eq_shift_mask (a : Addr) :
    addrBytes a =
      [((a >>> 24) &&& 0xFF).setWidth 8, ((a >>> 16) &&& 0xFF).setWidth 8, ((a >>> 8) &&& 0xFF).setWidth 8,
        (a &&& 0xFF).setWidth 8] := by
  simp only [addrBytes, extractLsb'_eq_shift_mask, BitVec.ushiftRight_zero]

/-- Settles O1: a frame is its opcode, its address bytes and its payload bytes, and the address bytes are R120's. -/
theorem frameIsOpcodeAddressPayload : Obligations.FrameIsOpcodeAddressPayload := by
  intro op a n d
  refine ⟨?_, ?_, rfl⟩ <;> rw [frame, addrBytes_eq_shift_mask] <;> rfl

/-- An address is determined by its four bytes (40_framer.md R125). -/
theorem addrBytes_injective : Function.Injective addrBytes := by
  intro a a' h
  simp only [addrBytes, List.cons.injEq, and_true] at h
  obtain ⟨h3, h2, h1, h0⟩ := h
  rw [← addrOfBytes_extract a, h3, h2, h1, h0, addrOfBytes_extract]

/-- A frame determines its opcode, its address and its payload bytes (40_framer.md R125). -/
theorem frame_inj {op op' : Byte} {a a' : Addr} {pl pl' : Payload} (h : frame op a pl = frame op' a' pl') :
    op = op' ∧ a = a' ∧ pl.bytes = pl'.bytes := by
  obtain ⟨hop, hrest⟩ := List.cons.inj h
  obtain ⟨ha, hpl⟩ := List.append_inj hrest rfl
  exact ⟨hop, addrBytes_injective ha, hpl⟩

/-- Settles O2: the four address bytes spell the address, so the head of a frame determines its operands. -/
theorem frameHeadDeterminesOperands : Obligations.FrameHeadDeterminesOperands := by
  refine ⟨fun op a pl => ⟨_, _, _, _, frame_eq op a pl, ?_⟩, fun _ _ _ _ _ _ => frame_inj, fun _ _ _ => rfl⟩
  rw [← addrOfBytes_eq_shift_or, addrOfBytes_extract]

end Sys2Proof

namespace Sys2Proof.Machine

/-! ## Failed exchanges (40_framer.md R129, R130) -/

/-- A failure of the environment's is `Err`, too long a frame or not (40_framer.md R129). -/
theorem answerResult_err (c : Config) (n : Nat) (chip : Chip) (f : List Byte) (reached : Bool) :
    answerResult c n chip f (.err reached) = .err :=
  ite_self _

/-- Settles O37: the exchange takes the failure off `events`, records it, and hands the chip the frame or not. -/
theorem failedExchangeMayHaveReachedTheChip : Obligations.FailedExchangeMayHaveReachedTheChip := by
  intro s f reached es ho he
  have hx := exchange_scripted (f := f) ho he
  rw [answerResult_err] at hx
  exact ⟨_, hx, by constructor <;> rfl, rfl, rfl, rfl, fun _ => exchange_tooLong⟩

end Sys2Proof.Machine
end

section
/-! The sequencer family (41_sequencer.md), the invariant of the system: what rests in IDLE or is soundly in flight stays so
over every step, and the array stays sound; under the invariant no step stops. -/

namespace Sys2Proof.Machine

variable {s t : State} {o : HostOp} {k : PollClass} {a : Addr} {count : BitVec 32} {data : List Byte}

/-! ## What the invariant says of the controller -/

/-- The controller is in IDLE with no data but after `OK` (30_encoding.md R103), or a sound operation is in flight. -/
def ControllerSound (t : State) : Prop :=
  (t.st = .idle ∧ (t.resStatus ≠ .ok → t.resData = [])) ∨ inFlightSound t = true

/-- The invariant holds of a legal configuration, a sound array and a sound controller. -/
theorem ControllerSound.inv (h : ControllerSound t) (hc : t.cfg.wf = true) (ha : t.chip.sound t.cfg = true) : Inv t := by
  rcases h with ⟨hst, hd⟩ | hfl
  · exact ⟨hc, ha, fun hne => absurd hst hne, hd⟩
  · obtain ⟨_, _, _, _, _, hd, _⟩ := inFlightSound_parts hfl
    exact ⟨hc, ha, fun _ => hfl, fun _ => hd⟩

/-- The invariant makes the controller sound. -/
theorem Inv.controllerSound (h : Inv s) : ControllerSound s := by
  by_cases hs : s.st = .idle
  · exact .inl ⟨hs, h.noData⟩
  · exact .inr (h.flight hs)

/-- The controller stays sound when none of its registers changes. -/
theorem ControllerSound.of_same (h : ControllerSound s) (hsame : SameController s t) : ControllerSound t := by
  obtain ⟨hst, hop, haddr, -, hwbuf, hres, hdata, hsr, hcnt, hopen, hcfg⟩ := hsame
  have hfl : inFlightSound t = inFlightSound s := by
    simp only [inFlightSound, heldOperands, pollSound, hst, hop, haddr, hwbuf, hres, hdata, hsr, hcnt, hopen, hcfg]
  rw [ControllerSound, hst, hres, hdata, hfl]
  exact h

/-- An operation that ends in an error posts no data (60_exceptions.md R191). -/
theorem raise_controllerSound (e : ResStatus) (s : State) : ControllerSound (s.raise e) := .inl ⟨rfl, fun _ => rfl⟩

/-! ## The steps keep the controller sound -/

/-- The operands of a sequenced operation that passed validation are the ones held in flight (41_sequencer.md R136,
R139). -/
theorem heldOperands_of_valid (hk : pollClass o = some k) (hv : valid s.cfg o s.addr count data = true)
    (hb : o = .writeByte → data.length = 1) (hw : s.wbuf = operandBuf o data) : heldOperands o s = true := by
  cases o
  case writeByte =>
    simp only [heldOperands, hw, Bool.and_eq_true, decide_eq_true_eq]
    exact ⟨hb rfl, hv⟩
  case writeBytes =>
    simp only [heldOperands, hw]
    exact hv
  case erase4K | erase32K | eraseSector | eraseDie =>
    simp only [heldOperands, hw, Bool.and_eq_true]
    exact ⟨rfl, hv⟩
  all_goals cases hk

/-- An operation in ENABLE_SENT is sound once its operands are (10_state.md R29). -/
theorem inFlightSound_enableSent (hst : s.st = .enableSent) (hop : sequencedOp s.op = some (o, k))
    (hh : heldOperands o s = true) (hr : s.resStatus = .noResult) (hd : s.resData = []) (ho : s.tpOpen = true) :
    inFlightSound s = true := by
  simp [inFlightSound, pollSound, hst, hop, hh, hr, hd, ho]

/-- Acceptance rejects, completes, or leaves a sound operation in ENABLE_SENT (41_sequencer.md R136, R142). -/
theorem accept_controllerSound (hb : o = .writeByte → data.length = 1) :
    ControllerSound (accept o a count data s) := by
  rcases accept_cases o a count data s with ⟨_, h⟩ | ⟨_, _, h⟩ | ⟨_, _, _, h⟩ | ⟨hv, ht, ⟨k, hk⟩, h⟩ <;> rw [h]
  · exact raise_controllerSound _ _
  · exact raise_controllerSound _ _
  · rcases stepSingle_cases o (loadDescriptor o a count data s) with ⟨_, h⟩ | ⟨r, _, h⟩ <;> rw [h]
    · exact raise_controllerSound _ _
    · exact .inl ⟨rfl, fun hne => absurd rfl hne⟩
  · rcases stepEnable_cases (loadDescriptor o a count data s) with ⟨_, h⟩ | ⟨r, _, h⟩ <;> rw [h]
    · exact raise_controllerSound _ _
    · refine .inr (inFlightSound_enableSent (o := o) (k := k) rfl (by simp [sequencedOp_code hk]) ?_ (by simp) (by simp)
        (by simp [ht]))
      exact heldOperands_of_valid (count := count) (data := data) hk (by simpa using hv) hb (by simp)

/-- Step ISSUE fails or begins the poll at 0, which is below every bound (41_sequencer.md R143). -/
theorem stepIssue_controllerSound (hc : s.cfg.wf = true) (hop : sequencedOp s.op = some (o, k))
    (hfl : inFlightSound s = true) : ControllerSound (stepIssue o s) := by
  have same := stepIssue_sameOperands o s
  rcases stepIssue_cases o s with ⟨_, h⟩ | ⟨_, _, h⟩ <;> rw [h] at same ⊢
  · exact raise_controllerSound _ _
  · exact .inr (inFlightSound_of_same hfl hop same (by simp) (by simp) rfl (.inr (maxPolls_pos hc k)))

/-- Step POLL ends the operation or counts a busy reading, the count still below the bound (41_sequencer.md R146). -/
theorem stepPoll_controllerSound (hs : s.st = .cmdIssued ∨ s.st = .polling) (hop : sequencedOp s.op = some (o, k))
    (hfl : inFlightSound s = true) : ControllerSound (stepPoll k s) := by
  have same := stepPoll_sameOperands k s
  rcases stepPoll_cases k s with ⟨_, h⟩ | ⟨_, b, _, _, ⟨_, h⟩ | ⟨_, _, h⟩ | ⟨hbusy, hm, h⟩⟩ <;> rw [h] at same ⊢
  · exact raise_controllerSound _ _
  · exact .inl ⟨rfl, fun _ => rfl⟩
  · exact raise_controllerSound _ _
  · obtain ⟨o', k', hop', _, _, _, _, _, hbound⟩ := inFlightSound_parts hfl
    cases hop.symm.trans hop'
    refine .inr (inFlightSound_of_same hfl hop same (by simp) (by simp) (by simp [pollSound, hbusy])
      (.inr fun m hm' => ?_))
    have hlt := hbound.resolve_left (by rcases hs with hs | hs <;> simp [hs]) m hm'
    have hne : m ≠ s.pollCnt + 1 := fun he => hm (he ▸ hm')
    simp only [enter_pollCnt, setPollCnt_pollCnt]
    omega

/-- Every step leaves the controller sound. -/
theorem step_controllerSound (hinv : Inv s) (h : step s = .next t) : ControllerSound t := by
  have hsound := hinv.controllerSound
  rcases step_cases h with ⟨es, _, rfl⟩ | ⟨es, _, rfl⟩ | ⟨es, _, rfl⟩ | ⟨es, _, rfl⟩ | ⟨hs, cmd, es, _, hp⟩ |
    ⟨hs, es, _, rfl⟩ | ⟨_, _, es, _, rfl⟩ | ⟨_, _, rfl⟩ | ⟨hs, _, o, k, hop, rfl⟩ | ⟨hs, _, o, k, hop, rfl⟩
  · exact .inl ⟨rfl, fun _ => rfl⟩
  · exact .inl ⟨rfl, fun _ => rfl⟩
  · exact .inl ⟨rfl, fun _ => rfl⟩
  · exact hsound.of_same (chipTurn_sameController s es)
  · obtain ⟨t', ht', hc⟩ := presentCommand_idle cmd (s.withEvents es) hs
    obtain rfl : t = t' := Host.Outcome.next.inj (hp.symm.trans ht')
    rcases hc with ⟨f, rfl⟩ | ⟨o, a, count, data, hb, rfl⟩ | ⟨d, rfl⟩
    · exact hsound.of_same (sendWire_sameController s es f)
    · exact accept_controllerSound hb
    · obtain ⟨_, _, _, hm⟩ := acceptMalformed_cases d (s.withEvents es)
      rw [hm]
      exact raise_controllerSound _ _
  · exact .inl ⟨hs, hinv.noData⟩
  · exact hsound.of_same (withEvents_sameController s es)
  · exact hsound
  · exact stepIssue_controllerSound hinv.config hop (hinv.flight (by simp [hs]))
  · exact stepPoll_controllerSound hs hop (hinv.flight (by rcases hs with hs | hs <;> simp [hs]))

/-- Every step keeps the array sound (20_memory.md R50, R51). -/
theorem step_array (hc : s.cfg.wf = true) (ha : s.chip.sound s.cfg = true) (h : step s = .next t) :
    t.chip.sound s.cfg = true := by
  rcases step_chip h with ⟨hchip, _⟩ | hchip | ⟨hchip, _⟩ | hchip | ⟨u, f, hu, _, hcfg, hchip, _⟩ <;> rw [hchip]
  · exact ha
  · exact faultedChip_sound s.draws
  · exact chipPowerLoss_sound s.draws ha
  · exact chipComplete_sound s.draws ha
  · rw [← hcfg] at hc ⊢
    exact exchange_sound hc (by rw [hu, hcfg]; exact ha)

/-- Settles O48: no step writes the configuration, every step keeps the array sound, and every step leaves the controller
at rest or in sound flight. -/
theorem stepKeepsTheInvariant : Obligations.StepKeepsTheInvariant := by
  intro s t hinv h
  have hcfg := step_cfg h
  exact (step_controllerSound hinv h).inv (hcfg ▸ hinv.config) (hcfg ▸ step_array hinv.config hinv.array h)

/-! ## No stop -/

/-- The controller's step answers a next state while `OP` is a sequenced operation (41_sequencer.md R149). -/
theorem controllerTurn_next (hop : sequencedOp s.op = some (o, k)) : ∃ t, controllerTurn s = .next t := by
  rw [controllerTurn, hop]
  by_cases hs : s.st = .enableSent
  · exact ⟨_, if_pos hs⟩
  · exact ⟨_, if_neg hs⟩

/-- In IDLE the step answers a next state, whatever is presented (41_sequencer.md R149). -/
theorem hostTurn_next (hs : s.st = .idle) : ∃ t, hostTurn s = .next t := by
  unfold hostTurn
  split
  · rename_i cmd es _
    obtain ⟨t, ht, _⟩ := presentCommand_idle cmd (s.withEvents es) hs
    exact ⟨t, ht⟩
  · exact ⟨_, rfl⟩
  · exact ⟨_, rfl⟩
  · exact ⟨_, rfl⟩

/-- Settles O49: only an operation in flight that is no sequenced one stops the machine, and the invariant excludes it. -/
theorem noStopUnderTheInvariant : Obligations.NoStopUnderTheInvariant := by
  intro s hinv
  unfold step turn
  split
  case h_5 =>
    split
    case isTrue hs => exact hostTurn_next hs
    case isFalse hs =>
      obtain ⟨o, k, hop, _⟩ := inFlightSound_parts (hinv.flight hs)
      exact controllerTurn_next hop
  all_goals exact ⟨_, rfl⟩

end Sys2Proof.Machine
end

section
/-! The sequencer family (41_sequencer.md), acceptance and the single steps: which operands are valid, what acceptance and
rejection do, what ISSUE and POLL do by the result of their one exchange, and where each step leads. -/

namespace Sys2Proof.Machine

variable {c : Config} {s t : State} {o : HostOp} {k : PollClass} {a : Addr} {count : BitVec 32} {data f r : List Byte}
  {es : List Event}

/-! ## Acceptance (41_sequencer.md R135, R136, R139, R140, R142) -/

/-- Settles O7: the presented command is decoded in the configuration it was presented in, and runs. -/
theorem stepRunsTheDecodedInstruction : Obligations.StepRunsTheDecodedInstruction := by
  intro s cmd i es hs he hd
  rw [step_present hs he, presentCommand, withEvents_cfg, hd]

/-- Settles O9: the table, row by row. -/
theorem validityTable : Obligations.ValidityTable := by
  intro c a count p
  simp [valid, and_assoc]

/-- A malformed descriptor is accepted with its operation and address loaded, and rejected (30_encoding.md R105). -/
theorem acceptMalformed_loads (d : Descriptor) (s : State) :
    ∃ len w, acceptMalformed d s = (s.loadOperands d.op d.addr len w).raise .invalidInput := by
  unfold acceptMalformed
  split
  · rename_i o ho
    rw [code_of_ofCode ho]
    exact ⟨_, _, rfl⟩
  · exact ⟨_, _, rfl⟩

/-- A malformed descriptor presented in IDLE is rejected (41_sequencer.md R136). -/
theorem step_malformed {d : Descriptor} (hs : s.st = .idle) (he : s.events = .present (.host d) :: es)
    (hm : malformed d = true) : step s = .next (acceptMalformed d (s.withEvents es)) := by
  obtain ⟨e, hd⟩ := decodeDescriptor_malformed hm
  rw [step_present hs he, presentCommand, decode, hd]
  exact congrArg Host.Outcome.next (whenReady_idle (s.withEvents es) _ hs)

/-- Settles O10: both are accepted in their first step and rejected before any exchange. -/
theorem rejectionSendsNothing : Obligations.RejectionSendsNothing := by
  refine ⟨fun s i o a count data hs hi hv => ?_, fun s d es hs he hm => ?_⟩
  · refine ⟨(loadDescriptor o a count data s).raise .invalidInput, ?_, ?_⟩
    · rw [exec_host hi, whenReady_idle _ _ hs, accept, hv]
      rfl
    · and_intros <;> rfl
  · obtain ⟨len, w, hload⟩ := acceptMalformed_loads d (s.withEvents es)
    refine ⟨_, step_malformed hs he hm, ?_⟩
    rw [hload]
    and_intros <;> rfl

/-- Settles O13: past validation a sequenced operation is step ENABLE, which goes by the result of its exchange. -/
theorem sequencedAcceptanceSendsWriteEnable : Obligations.SequencedAcceptanceSendsWriteEnable := by
  intro s t i o a count data k res hs ho hi hk hv hx
  rw [exec_host_valid hs ho hi hv, hk]
  constructor
  · rintro rfl
    exact congrArg Host.Outcome.next (stepEnable_err (s := loadDescriptor o a count data s) hx)
  · rintro r rfl
    exact congrArg Host.Outcome.next (stepEnable_ok (s := loadDescriptor o a count data s) hx)

/-! ## ISSUE and POLL (41_sequencer.md R143, R146, R147) -/

/-- Settles O15: the controller's step is ISSUE, which goes by the result of its exchange. -/
theorem issueStepSendsMainFrame : Obligations.IssueStepSendsMainFrame := by
  intro s t o k res hs hop hio hx
  rw [step_issue hs hop hio]
  rw [← mainFrame_issue hop] at hx
  constructor
  · rintro rfl
    exact congrArg Host.Outcome.next (stepIssue_err hx)
  · rintro r rfl
    exact congrArg Host.Outcome.next (stepIssue_ok hx)

/-- Settles O16: the controller's step is POLL, which reads bit 0 of the status byte it got. -/
theorem pollStepTestsBusyBit : Obligations.PollStepTestsBusyBit := by
  intro s t o k res hs hop hio hx
  rw [step_poll hs hop hio]
  constructor
  · rintro rfl
    exact congrArg Host.Outcome.next (stepPoll_err hx)
  · rintro r rfl
    obtain ⟨b, hb, hp⟩ := stepPoll_ok (k := k) hx
    have hcnt : t.pollCnt = s.pollCnt := by
      obtain rfl : (exchange (frame0 s.cfg.opcodes.rdsr 1) s).2 = t := congrArg Prod.snd hx
      exact exchange_pollCnt s _
    rw [hp, pollReading]
    refine ⟨b, hb, fun (hbit : busyBit b = false) => ?_, fun (hbit : busyBit b = true) hm => ?_,
      fun (hbit : busyBit b = true) hm => ?_⟩
    · rw [if_neg (by simp [hbit])]
      rfl
    · rw [if_pos hbit, hcnt, if_pos hm]
      rfl
    · rw [if_pos hbit, hcnt, if_neg hm]
      rfl

/-- While an operation is in flight a step that is no reset and no loss of power is the chip's own, ISSUE or POLL
(41_sequencer.md R149). -/
theorem step_inFlight (hs : s.st ≠ .idle) (hn : noReset s.events = true) (h : step s = .next t) :
    (∃ es, s.events = .chipCompletes :: es ∧ t = chipTurn (s.withEvents es)) ∨
    (s.st = .enableSent ∧ inOrder s.events = true ∧ ∃ o k, sequencedOp s.op = some (o, k) ∧ t = stepIssue o s) ∨
    ((s.st = .cmdIssued ∨ s.st = .polling) ∧ inOrder s.events = true ∧
      ∃ o k, sequencedOp s.op = some (o, k) ∧ t = stepPoll k s) := by
  rcases step_cases h with ⟨es, he, _⟩ | ⟨es, he, _⟩ | ⟨es, he, _⟩ | hchip | ⟨hidle, _⟩ | ⟨hidle, _⟩ | ⟨hidle, _⟩ |
    ⟨hidle, _⟩ | hissue | hpoll
  · rw [he] at hn; cases hn
  · rw [he] at hn; cases hn
  · rw [he] at hn; cases hn
  · exact .inl hchip
  · exact absurd hidle hs
  · exact absurd hidle hs
  · exact absurd hidle hs
  · exact absurd hidle hs
  · exact .inr (.inl hissue)
  · exact .inr (.inr hpoll)

/-- What a failed exchange leaves of an operation in flight (41_sequencer.md R147, 60_exceptions.md R192). -/
theorem raise_exchange_keeps (f : List Byte) (s : State) (e : ResStatus) :
    ((exchange f s).2.raise e).pollCnt = s.pollCnt ∧ ((exchange f s).2.raise e).srLast = s.srLast ∧
    SameOperands s ((exchange f s).2.raise e) := by
  refine ⟨?_, ?_, ?_, ?_, ?_, ?_, ?_, ?_⟩ <;> simp

/-- Settles O17: the step is the chip's own, which records nothing, or ISSUE or POLL, whose one exchange failed. -/
theorem transportFailureEndsTheOperation : Obligations.TransportFailureEndsTheOperation := by
  intro s t f hs hn h hf
  rcases step_inFlight hs hn h with ⟨es, _, rfl⟩ | ⟨_, _, o, k, _, rfl⟩ | ⟨_, _, o, k, _, rfl⟩
  · simp at hf
  · obtain ⟨herr, htrace⟩ := exchange_failure_recorded (stepIssue_chip o s).2 hf
    refine ⟨htrace, ?_⟩
    rw [stepIssue_err (Prod.ext herr rfl)]
    exact ⟨rfl, rfl, rfl, raise_exchange_keeps _ s _⟩
  · obtain ⟨herr, htrace⟩ := exchange_failure_recorded (stepPoll_chip k s).2 hf
    refine ⟨htrace, ?_⟩
    rw [stepPoll_err (Prod.ext herr rfl)]
    exact ⟨rfl, rfl, rfl, raise_exchange_keeps _ s _⟩

/-! ## Requests are held (41_sequencer.md R135, 70_reset_and_hazards.md R213) -/

/-- An exchange takes off `events` nothing but an answer (40_framer.md R127). -/
theorem exchange_events_held (f : List Byte) (h : ∀ x es, s.events ≠ .answer x :: es) :
    (exchange f s).2.events = s.events := by
  rcases exchange_events (f := f) (s := s) with he | ⟨x, he⟩
  · exact he
  · exact absurd he (h x _)

/-- Step ISSUE takes off `events` what its exchange takes. -/
theorem stepIssue_events (o : HostOp) (s : State) :
    (stepIssue o s).events = (exchange (mainFrame o s) s).2.events := by
  rcases stepIssue_cases o s with ⟨_, h⟩ | ⟨_, _, h⟩ <;> rw [h] <;> rfl

/-- Step POLL takes off `events` what its exchange takes. -/
theorem stepPoll_events (k : PollClass) (s : State) :
    (stepPoll k s).events = (exchange (frame0 s.cfg.opcodes.rdsr 1) s).2.events := by
  rcases stepPoll_cases k s with ⟨_, h⟩ | ⟨_, _, _, _, ⟨_, h⟩ | ⟨_, _, h⟩ | ⟨_, _, h⟩⟩ <;> rw [h] <;> rfl

/-- Settles O8: an instruction is held by its ready check, a request by the exchange, which takes answers only. -/
theorem busyControllerHoldsRequests : Obligations.BusyControllerHoldsRequests := by
  refine ⟨exec_busy, fun s t cmd es hs he h => ?_⟩
  have hn : noReset s.events = true := by rcases he with he | he <;> rw [he] <;> rfl
  have held (f : List Byte) : (exchange f s).2.events = s.events :=
    exchange_events_held f fun x es' hx => by rcases he with he | he <;> rw [he] at hx <;> cases hx
  rcases step_inFlight hs hn h with ⟨es', hx, _⟩ | ⟨_, _, o, k, _, rfl⟩ | ⟨_, _, o, k, _, rfl⟩
  · rcases he with he | he <;> rw [he] at hx <;> cases hx
  · exact ⟨(stepIssue_events o s).trans (held _), stepIssue_sameOperands o s⟩
  · exact ⟨(stepPoll_events k s).trans (held _), stepPoll_sameOperands k s⟩

/-! ## The transitions of `st` (41_sequencer.md R149) -/

/-- The controller's or the host's move is neither a reset nor a loss of power. -/
theorem noReset_of_inOrder (h : inOrder es = true) : noReset es = true := by
  revert h
  unfold inOrder noReset
  split <;> simp_all

/-- Step ISSUE fails, or leads to CMD_ISSUED with no busy reading counted (41_sequencer.md R143). -/
theorem stepIssue_leads (o : HostOp) (s : State) :
    ((stepIssue o s).st = .idle ∧ (stepIssue o s).resStatus = .transportError) ∨
    ((stepIssue o s).st = .cmdIssued ∧ (stepIssue o s).pollCnt = 0) := by
  rcases stepIssue_cases o s with ⟨_, h⟩ | ⟨_, _, h⟩ <;> rw [h]
  · exact .inl ⟨rfl, rfl⟩
  · exact .inr ⟨rfl, rfl⟩

/-- Step POLL ends the operation, or leads to POLLING with one more busy reading counted (41_sequencer.md R146). -/
theorem stepPoll_leads (k : PollClass) (s : State) :
    ((stepPoll k s).st = .idle ∧ ((stepPoll k s).resStatus = .ok ∨ (stepPoll k s).resStatus = .transportError ∨
      (stepPoll k s).resStatus = .busyTimeout)) ∨
    ((stepPoll k s).st = .polling ∧ (stepPoll k s).pollCnt = s.pollCnt + 1) := by
  rcases stepPoll_cases k s with ⟨_, h⟩ | ⟨_, _, _, _, ⟨_, h⟩ | ⟨_, _, h⟩ | ⟨_, _, h⟩⟩ <;> rw [h]
  · exact .inl ⟨rfl, .inr (.inl rfl)⟩
  · exact .inl ⟨rfl, .inl rfl⟩
  · exact .inl ⟨rfl, .inr (.inr rfl)⟩
  · exact .inr ⟨rfl, rfl⟩

/-- What is presented in IDLE leads to IDLE or ENABLE_SENT (41_sequencer.md R149). -/
theorem presentCommand_leads {cmd : Command} (hs : s.st = .idle) (h : presentCommand cmd s = .next t) :
    t.st = .idle ∨ t.st = .enableSent := by
  obtain ⟨t', ht', hc⟩ := presentCommand_idle cmd s hs
  obtain rfl : t = t' := Host.Outcome.next.inj (h.symm.trans ht')
  rcases hc with ⟨f, rfl⟩ | ⟨o, a, count, data, _, rfl⟩ | ⟨d, rfl⟩
  · exact .inl (by simp [hs])
  · exact (accept_completed o a count data s).imp And.left And.left
  · obtain ⟨_, _, _, hm⟩ := acceptMalformed_cases d s
    exact .inl (by rw [hm]; rfl)

/-- Settles O38: each kind of step leads where R149 says. -/
theorem sequencerTransitions : Obligations.SequencerTransitions := by
  intro s t h
  rcases step_cases h with ⟨es, he, rfl⟩ | ⟨es, he, rfl⟩ | ⟨es, he, rfl⟩ | ⟨es, he, rfl⟩ | ⟨hs, cmd, es, he, hp⟩ |
    ⟨hs, es, he, rfl⟩ | ⟨hs, _, es, he, rfl⟩ | ⟨hs, he, rfl⟩ | ⟨hs, hio, o, k, _, rfl⟩ | ⟨hs, hio, o, k, _, rfl⟩
  · simp [he, noReset, inOrder]
  · simp [he, noReset, inOrder]
  · simp [he, noReset, inOrder]
  · simp [he, noReset, inOrder]
  · simpa [he, hs, noReset, inOrder] using presentCommand_leads (s := s.withEvents es) hs hp
  · simp [he, hs, noReset, inOrder]
  · simp [he, hs, noReset, inOrder]
  · simp [he, hs, noReset, inOrder]
  · simpa [noReset_of_inOrder hio, hio, hs] using (stepIssue_leads o s).symm.imp And.left And.left
  · have hleads := (stepPoll_leads k s).symm.imp And.left And.left
    rcases hs with hs | hs <;> simpa [noReset_of_inOrder hio, hio, hs] using hleads

end Sys2Proof.Machine
end

section
/-! The sequencer family (41_sequencer.md), step ISSUE against the chip, and whole operations: with a finite poll budget every
operation ends, without one busy readings keep it going, and the bus trace of an operation from its acceptance on. -/

namespace Sys2Proof.Machine

variable {c : Config} {s t : State} {o : HostOp} {k : PollClass} {chip : Chip} {i : Instr} {a : Addr}
  {count : BitVec 32} {data f r : List Byte} {b : Bool} {m n : Nat} {es : List Event}

/-! ## Step ISSUE against the chip (41_sequencer.md R143, 20_memory.md R68, R70) -/

/-- The payload of a valid program lies inside one page (41_sequencer.md R139). -/
theorem program_inside_page (hc : c.wf = true) (hk : pollClass o = some .program)
    (hv : valid c o a count data = true) (hb : o = .writeByte → data.length = 1) :
    a.toNat % c.pageSize + data.length ≤ c.pageSize := by
  cases o <;> cases hk <;> simp only [valid, Bool.and_eq_true, decide_eq_true_eq] at hv
  case writeByte =>
    have hd := hb rfl
    have hp := Nat.mod_lt a.toNat (pageSize_pos hc)
    omega
  case writeBytes =>
    obtain ⟨⟨_, hpage⟩, _⟩ := hv
    exact hpage

/-- What a program inside its page with the latch set leaves at each address (20_memory.md R68). -/
theorem read_program (hm : Memory.wf chip.mem = true) (hwel : chip.wel = true)
    (hp : a.toNat % c.pageSize + data.length ≤ c.pageSize) (x : Nat) :
    Memory.read (commandEffect c chip (.program a data)).mem x =
      if a.toNat ≤ x ∧ x < a.toNat + data.length then
        programCell c.programCell (Memory.read chip.mem x) (data.getD (x - a.toNat) 0)
      else Memory.read chip.mem x := by
  simp only [commandEffect, hwel, if_true]
  exact read_programBytes c.programCell c.pageSize a.toNat data 0 hm (by omega) x

/-- A program or an erase leaves the latch as it is (20_memory.md R68, R70). -/
theorem issueCommand_wel (c : Config) (chip : Chip) (a : Addr) (data : List Byte) (k : PollClass) :
    (commandEffect c chip (issueCommand a data k)).wel = chip.wel := by
  cases k <;> simp only [issueCommand, commandEffect] <;> split <;> rfl

/-- Settles O24: the exchange has the effect of the operation's command, which the valid operands keep from faulting. -/
theorem issueStepChangesExactlyItsBytes : Obligations.IssueStepChangesExactlyItsBytes := by
  intro s o k junk es hc hs hop hh ho hsound hf hw hwel he hl
  obtain ⟨hv, hb⟩ := heldOperands_valid hh
  obtain ⟨_, hk⟩ := sequencedOp_some hop
  have hcmd : chipCommand s.cfg (mainFrame o s) = issueCommand s.addr s.wbuf k := by
    rw [mainFrame_issue hop, chipCommand_issueFrame hc]
  have hx := exchange_clean ho he hl hf
    (frameFaults_idle hw (hcmd.symm ▸ issueCommand_clean hc s.chip hk hv hb))
  rw [hcmd] at hx
  have hstep := step_issue hs hop (by rw [he]; rfl)
  rw [stepIssue_ok hx] at hstep
  refine ⟨_, _, hstep, rfl, rfl, by constructor <;> rfl, rfl, rfl, rfl, rfl, rfl, issueCommand_busy s.cfg _ _ k hwel,
    (issueCommand_wel s.cfg s.chip _ _ k).trans hwel, (commandEffect_fault ..).trans hf, ?_, ?_⟩
  · rintro rfl
    refine ⟨?_, read_program (Bool.and_eq_true_iff.mp hsound).1 hwel (program_inside_page hc hk hv hb)⟩
    simp [issueCommand, commandEffect, hwel]
  · rintro e rfl
    refine ⟨?_, fun x => (read_erase s.cfg e s.addr hwel x).trans (if_congr ?_ rfl rfl)⟩
    · simp [issueCommand, commandEffect, hwel]
    · rw [blockStart, lt_min_iff]

/-! ## Every operation ends (41_sequencer.md R151) -/

/-- How many exchanges an operation with poll budget `m` can still make: ISSUE and the status reads left of the budget. -/
def exchangesLeft (m : Nat) (s : State) : Nat :=
  match s.st with
  | .idle => 0
  | .enableSent => 1 + m
  | .cmdIssued => m - s.pollCnt
  | .polling => m - s.pollCnt

theorem exchangesLeft_idle (m : Nat) (h : s.st = .idle) : exchangesLeft m s = 0 := by simp [exchangesLeft, h]

theorem exchangesLeft_enableSent (m : Nat) (h : s.st = .enableSent) : exchangesLeft m s = 1 + m := by
  simp [exchangesLeft, h]

theorem exchangesLeft_awaiting (m : Nat) (h : s.st = .cmdIssued ∨ s.st = .polling) :
    exchangesLeft m s = m - s.pollCnt := by rcases h with h | h <;> simp [exchangesLeft, h]

theorem exchangesLeft_le (m : Nat) (s : State) : exchangesLeft m s ≤ 1 + m := by
  unfold exchangesLeft
  split <;> omega

/-- An exchange takes moves off the front of `events` only (40_framer.md R127). -/
theorem exchange_events_suffix (f : List Byte) (s : State) : (exchange f s).2.events <:+ s.events := by
  rcases exchange_events (f := f) (s := s) with h | ⟨x, h⟩
  · rw [h]
  · exact ⟨[.answer x], h.symm⟩

/-- An exchange records at most one transaction (40_framer.md R130). -/
theorem exchange_trace_length_le (f : List Byte) (s : State) :
    (exchange f s).2.trace.length ≤ s.trace.length + 1 := by
  cases ho : s.tpOpen with
  | false => simp [exchange_closed ho]
  | true => simp [exchange_trace ho]

/-- The outside world brings neither a reset nor a loss of power next when none is to come at all. -/
theorem noReset_of_forall (h : ∀ e ∈ es, e.isReset = false) : noReset es = true := by
  unfold noReset
  split <;> simp_all [Event.isReset]

/-- What one step of an operation with poll budget `m` leaves: the operation itself, moves to come that were to come before,
and either a result or strictly less to do, every exchange made being one of those that were left. -/
structure Progress (m : Nat) (s t : State) : Prop where
  op : t.op = s.op
  events : t.events <:+ s.events
  exchanges : t.trace.length + exchangesLeft m t ≤ s.trace.length + exchangesLeft m s
  ended : t.st = .idle → t.resStatus = .ok ∨ t.resStatus = .transportError ∨ t.resStatus = .busyTimeout
  less : t.st ≠ .idle → exchangesLeft m t + t.events.length < exchangesLeft m s + s.events.length

/-- The chip's own step takes its move off `events` and leaves the operation as it is (20_memory.md R73). -/
theorem chipTurn_progress (m : Nat) (hs : s.st ≠ .idle) (he : s.events = .chipCompletes :: es) :
    Progress m s (chipTurn (s.withEvents es)) where
  op := rfl
  events := he ▸ List.suffix_cons _ es
  exchanges := le_rfl
  ended hidle := absurd hidle hs
  less _ := by
    rw [he]
    exact Nat.add_lt_add_left (Nat.lt_succ_self es.length) (exchangesLeft m s)

/-- Step ISSUE makes the first of the exchanges left, and leaves the status reads (41_sequencer.md R143). -/
theorem stepIssue_progress (m : Nat) (o : HostOp) (hs : s.st = .enableSent) : Progress m s (stepIssue o s) := by
  have hev := exchange_events_suffix (mainFrame o s) s
  have hlen := exchange_trace_length_le (mainFrame o s) s
  rw [← stepIssue_events] at hev
  rw [← (stepIssue_chip o s).2] at hlen
  have hsub := hev.length_le
  have hleft := exchangesLeft_enableSent m hs
  rcases stepIssue_leads o s with ⟨hst, hres⟩ | ⟨hst, hcnt⟩
  · have hleft' := exchangesLeft_idle m hst
    exact ⟨(stepIssue_sameOperands o s).op, hev, by omega, fun _ => .inr (.inl hres), fun hne => absurd hst hne⟩
  · have hleft' := exchangesLeft_awaiting m (.inl hst)
    exact ⟨(stepIssue_sameOperands o s).op, hev, by omega, fun hidle => (nomatch hst.symm.trans hidle),
      fun _ => by omega⟩

/-- Step POLL with a count below the budget makes one of the status reads left (41_sequencer.md R146). -/
theorem stepPoll_progress (k : PollClass) (hs : s.st = .cmdIssued ∨ s.st = .polling) (hm : s.pollCnt < m) :
    Progress m s (stepPoll k s) := by
  have hev := exchange_events_suffix (frame0 s.cfg.opcodes.rdsr 1) s
  have hlen := exchange_trace_length_le (frame0 s.cfg.opcodes.rdsr 1) s
  rw [← stepPoll_events k] at hev
  rw [← (stepPoll_chip k s).2] at hlen
  have hsub := hev.length_le
  have hleft := exchangesLeft_awaiting m hs
  rcases stepPoll_leads k s with ⟨hst, hres⟩ | ⟨hst, hcnt⟩
  · have hleft' := exchangesLeft_idle m hst
    exact ⟨(stepPoll_sameOperands k s).op, hev, by omega, fun _ => hres, fun hne => absurd hst hne⟩
  · have hleft' := exchangesLeft_awaiting m (.inr hst)
    exact ⟨(stepPoll_sameOperands k s).op, hev, by omega, fun hidle => (nomatch hst.symm.trans hidle),
      fun _ => by omega⟩

/-- Every step of an operation in flight with a finite poll budget makes progress, unless it is a reset or a loss of power
(41_sequencer.md R151). -/
theorem step_progress (hinv : Inv s) (hs : s.st ≠ .idle) (hop : sequencedOp s.op = some (o, k))
    (hm : maxPolls s.cfg k = some m) (hn : noReset s.events = true) (h : step s = .next t) : Progress m s t := by
  rcases step_inFlight hs hn h with ⟨es, he, rfl⟩ | ⟨hst, _, o', _, _, rfl⟩ | ⟨hst, _, _, k', _, rfl⟩
  · exact chipTurn_progress m hs he
  · exact stepIssue_progress m o' hst
  · obtain ⟨_, _, hop', _, _, _, _, _, hbound⟩ := inFlightSound_parts (hinv.flight hs)
    cases hop.symm.trans hop'
    exact stepPoll_progress k' hst (hbound.resolve_left (by rcases hst with hst | hst <;> simp [hst]) m hm)

/-- Settles O51: by induction on what is left to do, exchanges and moves to come together. -/
theorem sequencedOperationsTerminate : Obligations.SequencedOperationsTerminate := by
  intro s o k m hinv hs hop hm hev
  suffices ∃ n t, runs n s t ∧ t.st = .idle ∧
      (t.resStatus = .ok ∨ t.resStatus = .transportError ∨ t.resStatus = .busyTimeout) ∧
      t.trace.length ≤ s.trace.length + exchangesLeft m s by
    obtain ⟨n, t, hruns, hst, hres, hlen⟩ := this
    have := exchangesLeft_le m s
    exact ⟨n, t, hruns, hst, hres, by omega⟩
  induction hleft : exchangesLeft m s + s.events.length using Nat.strong_induction_on generalizing s with
  | _ left ih =>
    subst hleft
    obtain ⟨u, hstep⟩ := noStopUnderTheInvariant s hinv
    obtain ⟨huop, hsuffix, hexchanges, hended, hless⟩ :=
      step_progress hinv hs hop hm (noReset_of_forall hev) hstep
    by_cases hu : u.st = .idle
    · exact ⟨1, u, ⟨u, hstep, rfl⟩, hu, hended hu, by omega⟩
    · obtain ⟨n, t, hruns, hst, hres, hlen⟩ := ih _ (hless hu) u (stepKeepsTheInvariant s u hinv hstep) hu
        (huop ▸ hop) (step_cfg hstep ▸ hm) (fun e he => hev e (hsuffix.subset he)) rfl
      exact ⟨n + 1, t, ⟨u, hstep, hruns⟩, hst, hres, by omega⟩

/-! ## The bus trace, for any environment that answers with responses of the right length (41_sequencer.md R154) -/

/-- The trace of status reads with the responses `rs` (40_framer.md R126, R130). -/
def statusReads (c : Config) (rs : List (List Byte)) : List (List Byte × ExchangeResult) :=
  rs.map fun r => ([c.opcodes.rdsr, 0x00], .ok r)

/-- A response to a status read whose status byte has bit 0 = `busy` (41_sequencer.md R146). -/
def Reading (busy : Bool) (r : List Byte) : Prop := r.length = 2 ∧ ∃ v, r[1]? = some v ∧ busyBit v = busy

/-- Acceptance of a valid sequenced operation exchanges `WREN` and leads to ENABLE_SENT (41_sequencer.md R142). -/
theorem step_accepted (hs : s.st = .idle) (ho : s.tpOpen = true) (hi : hostOperands i = some (o, a, count, data))
    (hk : pollClass o = some k) (hv : valid s.cfg o a count data = true) (hl : tooLong s.cfg [s.cfg.opcodes.wren] = false)
    (hr : r.length = 1) (he : s.events = .present (encode s.cfg i) :: .answer (.bytes b r) :: es) :
    ∃ t, step s = .next t ∧ Enabled t s.cfg o k a data t.chip es ∧
      t.trace = s.trace ++ [([s.cfg.opcodes.wren], .ok r)] := by
  obtain ⟨chip, hx⟩ := exchange_bytes (f := [s.cfg.opcodes.wren])
    (s := loadDescriptor o a count data (s.withEvents (.answer (.bytes b r) :: es))) ho rfl hl hr
  obtain ⟨_, hok⟩ := sequencedAcceptanceSendsWriteEnable (s.withEvents (.answer (.bytes b r) :: es)) _ i o a count data k
    _ hs ho hi hk hv hx
  exact ⟨_, (step_encoded hs he hi).trans (hok r rfl),
    ⟨rfl, sequencedOp_code hk, rfl, operandBuf_operands hi, ho, rfl, rfl, rfl⟩, rfl⟩

/-- Step ISSUE exchanges the main frame and leads to CMD_ISSUED (41_sequencer.md R143). -/
theorem Enabled.step_issued (h : Enabled s c o k a data chip (.answer (.bytes b r) :: es))
    (hl : tooLong c (issueFrame c k a data) = false) (hr : r.length = (issueFrame c k a data).length) :
    ∃ t, step s = .next t ∧ Awaiting t c k 0 t.chip es ∧ t.trace = s.trace ++ [(issueFrame c k a data, .ok r)] := by
  obtain ⟨hs, hop, rfl, rfl, ho, rfl, _, he⟩ := h
  obtain ⟨chip', hx⟩ := exchange_bytes ho he hl hr
  obtain ⟨_, hok⟩ := issueStepSendsMainFrame s _ o k _ hs hop (by rw [he]; rfl) hx
  exact ⟨_, hok r rfl, ⟨.inl rfl, ⟨o, hop⟩, rfl, ho, rfl, rfl, rfl⟩, rfl⟩

/-- A response of two bytes to the status read of step POLL is a reading of its byte 1 (41_sequencer.md R146). -/
theorem Awaiting.reading {v : Byte} (h : Awaiting s c k n chip (.answer (.bytes b r) :: es))
    (hl : tooLong c [c.opcodes.rdsr, 0x00] = false) (hlen : r.length = 2) (hv : r[1]? = some v) :
    ∃ u, step s = .next (pollReading (maxPolls c k) v u) ∧ SameController s u ∧ u.events = es ∧
      u.trace = s.trace ++ statusReads c [r] := by
  obtain ⟨hs, ⟨o, hop⟩, _, ho, rfl, _, he⟩ := h
  obtain ⟨chip', hx⟩ := exchange_bytes ho he hl hlen
  obtain ⟨v', hv', hpoll⟩ := stepPoll_ok (k := k) hx
  obtain rfl := Option.some.inj (hv.symm.trans hv')
  exact ⟨_, hpoll ▸ step_poll hs hop (by rw [he]; rfl), by constructor <;> rfl, rfl, rfl⟩

/-- A busy reading that does not use up the budget: the operation goes on, without a result (41_sequencer.md R146). -/
theorem Awaiting.step_busy (h : Awaiting s c k n chip (.answer (.bytes b r) :: es))
    (hl : tooLong c [c.opcodes.rdsr, 0x00] = false) (hr : Reading true r) (hn : maxPolls c k ≠ some (n + 1)) :
    ∃ t, step s = .next t ∧ Awaiting t c k (n + 1) t.chip es ∧ t.resStatus = s.resStatus ∧
      t.trace = s.trace ++ statusReads c [r] := by
  obtain ⟨hlen, v, hv, hbusy⟩ := hr
  obtain ⟨u, hstep, same, hev, htrace⟩ := h.reading hl hlen hv
  obtain ⟨o, hop⟩ := h.op
  rw [pollReading, if_pos hbusy, same.pollCnt, h.pollCnt, if_neg hn] at hstep
  exact ⟨_, hstep, ⟨.inr rfl, ⟨o, (congrArg sequencedOp same.op).trans hop⟩, rfl, same.tpOpen.trans h.tpOpen,
    same.cfg.trans h.cfg, rfl, hev⟩, same.resStatus, htrace⟩

/-- The busy reading that uses up the budget ends the operation with `BUSY_TIMEOUT` (41_sequencer.md R146). -/
theorem Awaiting.step_timeout (h : Awaiting s c k n chip (.answer (.bytes b r) :: es))
    (hl : tooLong c [c.opcodes.rdsr, 0x00] = false) (hr : Reading true r) (hn : maxPolls c k = some (n + 1)) :
    ∃ t, step s = .next t ∧ t.st = .idle ∧ t.resStatus = .busyTimeout ∧ t.resData = [] ∧ t.pollCnt = n + 1 ∧
      t.events = es ∧ t.trace = s.trace ++ statusReads c [r] := by
  obtain ⟨hlen, v, hv, hbusy⟩ := hr
  obtain ⟨u, hstep, same, hev, htrace⟩ := h.reading hl hlen hv
  rw [pollReading, if_pos hbusy, same.pollCnt, h.pollCnt, if_pos hn] at hstep
  exact ⟨_, hstep, rfl, rfl, rfl, rfl, hev, htrace⟩

/-- A reading that is not busy ends the operation with `OK` and its status byte in `SR_LAST` (41_sequencer.md R146). -/
theorem Awaiting.step_done (h : Awaiting s c k n chip (.answer (.bytes b r) :: es))
    (hl : tooLong c [c.opcodes.rdsr, 0x00] = false) (hr : Reading false r) :
    ∃ t, step s = .next t ∧ t.st = .idle ∧ t.resStatus = .ok ∧ t.resData = [] ∧ t.pollCnt = n ∧ t.srLast = r[1]? ∧
      t.events = es ∧ t.trace = s.trace ++ statusReads c [r] := by
  obtain ⟨hlen, v, hv, hidle⟩ := hr
  obtain ⟨u, hstep, same, hev, htrace⟩ := h.reading hl hlen hv
  rw [pollReading, if_neg (by simp [hidle])] at hstep
  exact ⟨_, hstep, rfl, rfl, rfl, same.pollCnt.trans h.pollCnt, hv.symm, hev, htrace⟩

/-- Busy readings below the budget: as many status reads, and the operation goes on (41_sequencer.md R146, R151). -/
theorem Awaiting.runs_busy (busy : List (List Byte))
    (h : Awaiting s c k n chip (busy.map (fun r => .answer (.bytes true r)) ++ es))
    (hl : tooLong c [c.opcodes.rdsr, 0x00] = false) (hr : ∀ r ∈ busy, Reading true r)
    (hn : ∀ m, maxPolls c k = some m → n + busy.length < m) :
    ∃ t, runs busy.length s t ∧ Awaiting t c k (n + busy.length) t.chip es ∧ t.resStatus = s.resStatus ∧
      t.trace = s.trace ++ statusReads c busy := by
  induction busy generalizing s n chip with
  | nil => exact ⟨s, rfl, h.chip.symm ▸ h, rfl, (List.append_nil _).symm⟩
  | cons r busy ih =>
    rw [List.length_cons] at hn
    rw [List.forall_mem_cons] at hr
    obtain ⟨u, hstep, hu, hures, hutrace⟩ := h.step_busy hl hr.1 fun hm => by have := hn _ hm; omega
    obtain ⟨t, hruns, ht, htres, httrace⟩ := ih hu hr.2 fun m hm => by have := hn m hm; omega
    refine ⟨t, ⟨u, hstep, hruns⟩, ?_, htres.trans hures, ?_⟩
    · rwa [List.length_cons, Nat.add_comm busy.length, ← Nat.add_assoc]
    · rw [httrace, hutrace, List.append_assoc]
      rfl

/-- Settles O52: no budget is ever used up, so every busy reading leads to the next. -/
theorem unboundedPollGoesOnForever : Obligations.UnboundedPollGoesOnForever := by
  intro s o k busy es hs hop hm ho hl hr he
  obtain ⟨t, hruns, ht, hres, htrace⟩ := Awaiting.runs_busy busy ⟨hs, ⟨o, hop⟩, rfl, ho, rfl, rfl, he⟩ hl hr
    fun m hm' => nomatch hm.symm.trans hm'
  exact ⟨t, hruns, ht.st, hres, ht.pollCnt, ht.events, htrace⟩

/-- Settles O53: acceptance, ISSUE, the busy readings but for the one that uses up the budget, and the last reading, each
with its one exchange. -/
theorem sequencedTrace : Obligations.SequencedTrace := by
  intro s i o a count data k r0 r1 last busy b0 b1 bl es hs ho hi hk hv hl hr0 hr1 hbusy
  have hshort {f : List Byte} (hf : f.length ≤ 5) : tooLong s.cfg f = false :=
    tooLong_mono hl (by rw [issueFrame_length]; omega)
  have hrdsr : tooLong s.cfg [s.cfg.opcodes.rdsr, 0x00] = false := hshort (by simp)
  have issued {es' : List Event} (he : s.events = .present (encode s.cfg i) :: .answer (.bytes b0 r0) ::
      .answer (.bytes b1 r1) :: es') : ∃ u, runs 2 s u ∧ Awaiting u s.cfg k 0 u.chip es' ∧
        u.trace = s.trace ++ [([s.cfg.opcodes.wren], .ok r0), (issueFrame s.cfg k a data, .ok r1)] := by
    obtain ⟨u1, h1, hu1, htrace1⟩ := step_accepted hs ho hi hk hv (hshort (by simp)) hr0 he
    obtain ⟨u2, h2, hu2, htrace2⟩ := hu1.step_issued hl hr1
    exact ⟨u2, ⟨u1, h1, u2, h2, rfl⟩, hu2, by rw [htrace2, htrace1, List.append_assoc]; rfl⟩
  constructor
  · intro hlast hbit hm he
    obtain ⟨u, hruns, hu, htrace⟩ := issued he
    obtain ⟨v, hruns', hv', _, htrace'⟩ := hu.runs_busy busy hrdsr hbusy (by simpa using hm)
    obtain ⟨t, hstep, hst, hres, hdata, hcnt, hsr, hev, htrace''⟩ := hv'.step_done hrdsr ⟨hlast, hbit⟩
    refine ⟨t, ?_, hst, hres, hdata, hcnt.trans (Nat.zero_add _), hsr, hev, ?_⟩
    · rw [show busy.length + 3 = 2 + (busy.length + 1) by omega]
      exact runs_trans hruns (runs_trans hruns' ⟨t, hstep, rfl⟩)
    · rw [htrace'', htrace', htrace]
      simp [statusReads]
  · intro hpos hm he
    obtain ⟨init, r, rfl⟩ := List.eq_nil_or_concat' busy |>.resolve_left (List.ne_nil_of_length_pos hpos)
    simp only [List.map_append, List.append_assoc, List.length_append, List.length_cons,
      List.length_nil] at hm he ⊢
    obtain ⟨u, hruns, hu, htrace⟩ := issued he
    obtain ⟨v, hruns', hv', _, htrace'⟩ := hu.runs_busy init hrdsr (fun x hx => hbusy x (by simp [hx]))
      (fun m hm' => by cases hm.symm.trans hm'; omega)
    obtain ⟨t, hstep, hst, hres, hdata, hcnt, hev, htrace''⟩ := hv'.step_timeout hrdsr (hbusy r (by simp))
      (by simpa using hm)
    refine ⟨t, ?_, hst, hres, hdata, hcnt.trans (by omega), hev, ?_⟩
    · rw [show init.length + (0 + 1) + 2 = 2 + (init.length + 1) by omega]
      exact runs_trans hruns (runs_trans hruns' ⟨t, hstep, rfl⟩)
    · rw [htrace'', htrace', htrace]
      simp [statusReads]

end Sys2Proof.Machine
end

section
/-! The read family (42_read.md), with the other single-transaction operations (43_write.md R165, 45_status_id.md R180,
R181): each is its one exchange, for every answer, and where the response carries the data; then what the chip's own
answer makes of it, and the two reads. -/

namespace Sys2Proof.Machine

variable {c : Config} {s t : State} {o : HostOp} {i : Instr} {a : Addr} {count : BitVec 32} {data r : List Byte}

/-! ## One exchange, for every answer (41_sequencer.md R137, R141) -/

/-- Completion of an operation that never left IDLE writes the result alone (41_sequencer.md R148). -/
theorem complete_of_idle (h : s.st = .idle) (e : ResStatus) (d : List Byte) :
    s.complete e d = { s with resStatus := e, resData := d } := by
  rw [State.complete, h]

/-- A valid single-transaction operation, the transport open, is its step SINGLE (41_sequencer.md R136). -/
theorem exec_single (hs : s.st = .idle) (ho : s.tpOpen = true) (hi : hostOperands i = some (o, a, count, data))
    (hk : pollClass o = none) (hv : valid s.cfg o a count data = true) :
    exec i s = .next (stepSingle o (loadDescriptor o a count data s)) := by
  rw [exec_host_valid hs ho hi hv, hk]

/-- Where a response carries data depends on `LEN` and the parameters alone (30_encoding.md R95). -/
theorem resultSlice_congr (hl : t.len = s.len) (hc : t.cfg = s.cfg) (o : HostOp) (r : List Byte) :
    resultSlice o t r = resultSlice o s r := by
  unfold resultSlice
  rw [hl, hc]

/-- A valid single-transaction operation whose exchange succeeds: its data is the slice its own operands give
(41_sequencer.md R141, 30_encoding.md R95). -/
theorem exec_single_ok (hs : s.st = .idle) (ho : s.tpOpen = true) (hi : hostOperands i = some (o, a, count, data))
    (hk : pollClass o = none) (hv : valid s.cfg o a count data = true)
    (hx : exchange (singleFrame s.cfg o a count) (loadDescriptor o a count data s) = (.ok r, t)) :
    exec i s = .next ((storeStatus o r t).complete .ok (resultSlice o (loadDescriptor o a count data s) r)) := by
  have hlen := exchange_len (loadDescriptor o a count data s) (singleFrame s.cfg o a count)
  have hcfg := exchange_cfg (loadDescriptor o a count data s) (singleFrame s.cfg o a count)
  rw [hx] at hlen hcfg
  rw [← mainFrame_single s a count data hk] at hx
  rw [exec_single hs ho hi hk hv, stepSingle_ok hx, resultSlice_congr hlen hcfg]

/-- A slice of one byte is the byte at its offset. -/
theorem take_one_drop_of_lt {n : Nat} (h : n < r.length) : ∃ b, r[n]? = some b ∧ (r.drop n).take 1 = [b] :=
  ⟨r[n], List.getElem?_eq_getElem h, List.take_one_drop_eq_of_lt_length h⟩

/-- `readStatusRegister` stores the byte at offset 1 (41_sequencer.md R141). -/
theorem storeStatus_readStatusRegister {b : Byte} (h : r[1]? = some b) :
    storeStatus .readStatusRegister r s = s.setSrLast b := by simp only [storeStatus, h]

/-- Settles O12: a response is as long as its frame (40_framer.md R127), which is what the slice of each operation
needs. -/
theorem singleTransactionFollowsItsExchange : Obligations.SingleTransactionFollowsItsExchange := by
  intro s t i o a count data res hs ho hi hk hv hx
  have hidle : t.st = .idle := by
    have := exchange_st (loadDescriptor o a count data s) (singleFrame s.cfg o a count)
    rwa [hx, loadDescriptor_st, hs] at this
  constructor
  · rintro rfl
    rw [← mainFrame_single s a count data hk] at hx
    rw [exec_single hs ho hi hk hv, stepSingle_err hx, State.raise, complete_of_idle hidle]
  · rintro r rfl
    have hlen : r.length = (singleFrame s.cfg o a count).length := exchange_ok_length (congrArg Prod.fst hx)
    have hexec := exec_single_ok hs ho hi hk hv hx
    have hplain {d : List Byte} (hne : o ≠ .readStatusRegister)
        (hd : resultSlice o (loadDescriptor o a count data s) r = d) :
        exec i s = .next { t with resStatus := .ok, resData := d } := by
      rw [hexec, storeStatus_other hne, hd, complete_of_idle hidle]
    refine ⟨?_, ?_, ?_, ?_, ?_⟩ <;> rintro rfl
    · rw [singleFrame, frame_length, fill_length] at hlen
      obtain ⟨b, hb, hslice⟩ := take_one_drop_of_lt (r := r) (n := 5) (by omega)
      exact ⟨b, hb, hplain nofun hslice⟩
    · rw [singleFrame, frame_length, fill_length] at hlen
      have hdrop : (r.drop 5).length = count.toNat := by rw [List.length_drop]; omega
      exact ⟨hdrop, hplain nofun (List.take_of_length_le hdrop.le)⟩
    · exact hplain nofun rfl
    · obtain ⟨b, hb, hslice⟩ := take_one_drop_of_lt (r := r) (n := 1) (by rw [hlen]; exact Nat.lt_add_one 1)
      rw [storeStatus_readStatusRegister hb, resultSlice, hslice, complete_of_idle (s := t.setSrLast b) hidle] at hexec
      exact ⟨b, hb, hexec⟩
    · have hdrop : (r.drop 1).length = s.cfg.idLen := by simp [hlen, singleFrame]
      exact ⟨hdrop, hplain nofun (List.take_of_length_le hdrop.le)⟩

/-! ## One exchange that the chip answers (20_memory.md R65 to R72) -/

/-- Storing the status byte writes `SR_LAST` and nothing else (41_sequencer.md R141). -/
theorem storeStatus_eq (h : t.srLast = s.srLast) :
    storeStatus o r t = { t with srLast := (storeStatus o r s).srLast } := by
  unfold storeStatus
  split
  · rfl
  · rw [← h]

/-- A valid single-transaction operation whose frame the chip answers and that does not fault completes with `OK` and the
slice of its command's response, and the chip has its command's effect. -/
theorem exec_single_chip {junk : List Byte} {es : List Event} {cmd : ChipCommand} (hs : s.st = .idle)
    (ho : s.tpOpen = true) (hi : hostOperands i = some (o, a, count, data)) (hk : pollClass o = none)
    (hv : valid s.cfg o a count data = true) (he : s.events = .answer (.chip junk) :: es)
    (hl : tooLong s.cfg (singleFrame s.cfg o a count) = false) (hf : s.chip.fault = false)
    (hff : frameFaults s.cfg s.chip (singleFrame s.cfg o a count) = false)
    (hcmd : chipCommand s.cfg (singleFrame s.cfg o a count) = cmd)
    (hr : commandResponse s.cfg junk (s.draws + 1) s.chip (singleFrame s.cfg o a count).length cmd = r) :
    ∃ t, exec i s = .next t ∧
      SingleDone s t o a (resultSlice o (loadDescriptor o a count data s) r) (singleFrame s.cfg o a count) r es ∧
      t.len = operandLen s.cfg s.draws o count data ∧ t.srLast = (storeStatus o r s).srLast ∧
      t.chip = commandEffect s.cfg s.chip cmd := by
  subst hcmd hr
  have hwbuf : operandBuf o data = [] := operandBuf_of_not_write (by rintro (rfl | rfl) <;> cases hk) data
  have hexec := exec_single_ok hs ho hi hk hv
    (exchange_clean (s := loadDescriptor o a count data s) ho he hl hf hff)
  rw [storeStatus_eq (s := s)] at hexec
  · exact ⟨_, hexec, ⟨rfl, rfl, rfl, hwbuf, rfl, rfl, rfl, rfl, rfl, rfl, rfl⟩, rfl, rfl, rfl⟩
  · rfl

/-! ## The two reads (42_read.md R160, R161, 20_memory.md R69) -/

/-- A `READ` frame inside the array does not fault at an idle chip (20_memory.md R66, R69). -/
theorem frameFaults_read {chip : Chip} {n : Nat} (hw : chip.wip = false) (ha : a.toNat + n ≤ c.flashSize) :
    frameFaults c chip (frame c.opcodes.read a (.fill n)) = false := by
  refine frameFaults_idle hw ?_
  rw [chipCommand_read, fill_length]
  exact decide_eq_false (Nat.not_lt.mpr ha)

/-- The data of a read's response stands after the five undriven bytes (20_memory.md R69). -/
theorem drop_readResponse (c : Config) (junk : List Byte) (draws : Nat) (chip : Chip) (a : Addr) (len n : Nat) :
    (commandResponse c junk draws chip len (.read a n)).drop 5 = Memory.readRange chip.mem a.toNat n := by
  rw [commandResponse, List.drop_left' (drawBytes_length junk draws 0 5)]

/-- Settles O19: both are the chip's answer to one `READ` frame that does not fault. -/
theorem readsReturnTheArray : Obligations.ReadsReturnTheArray := by
  intro s a count junk es hs ho hf hw he ha
  have hcmd (n : Nat) : chipCommand s.cfg (frame s.cfg.opcodes.read a (.fill n)) = .read a n := by
    rw [chipCommand_read, fill_length]
  constructor
  · intro hl
    obtain ⟨t, ht, hdone, hlen, hsr, hchip⟩ := exec_single_chip hs ho (i := .readByte a) rfl rfl
      (decide_eq_true ha) he hl hf (frameFaults_read hw ha) (hcmd 1) rfl
    rw [resultSlice, drop_readResponse] at hdone
    exact ⟨t, _, ht, hdone, hlen, hsr, hchip⟩
  · intro hn hl
    obtain ⟨t, ht, hdone, hlen, hsr, hchip⟩ := exec_single_chip hs ho (i := .readBytes a count) rfl rfl
      (by simp [valid, ha, hn]) he hl hf (frameFaults_read hw hn) (hcmd count.toNat) rfl
    rw [resultSlice, drop_readResponse, loadDescriptor_len, operandLen,
      List.take_of_length_le (readRange_length _ _ _).le] at hdone
    exact ⟨t, _, ht, hdone, hlen, hsr, hchip⟩

end Sys2Proof.Machine
end

section
/-! The write family (43_write.md R165 to R167, 44_erase.md R170): the `WREN` exchange at an idle chip, alone as the whole
of `writeEnable` and as step ENABLE of the six sequenced operations. -/

namespace Sys2Proof.Machine

variable {c : Config} {s : State}

/-- `WREN` does not fault at an idle chip (20_memory.md R66, R67). -/
theorem frameFaults_wren {chip : Chip} (hc : c.wf = true) (hw : chip.wip = false) :
    frameFaults c chip (frame0 c.opcodes.wren 0) = false :=
  frameFaults_idle hw (by rw [chipCommand_wren hc]; rfl)

/-- The exchange of `[OP_WREN]` with an idle chip that answers sets the latch and nothing else of the chip (20_memory.md
R67). -/
theorem exchange_wren {junk : List Byte} {es : List Event} (hc : s.cfg.wf = true) (ho : s.tpOpen = true)
    (hf : s.chip.fault = false) (hw : s.chip.wip = false) (he : s.events = .answer (.chip junk) :: es) :
    ∃ r, exchange [s.cfg.opcodes.wren] s =
      (.ok r, { s with
        events := es
        draws := s.draws + 1
        chip := { s.chip with wel := true }
        trace := s.trace ++ [([s.cfg.opcodes.wren], .ok r)] }) := by
  have hx := exchange_clean (f := frame0 s.cfg.opcodes.wren 0) ho he (tooLong_single hc _) hf (frameFaults_wren hc hw)
  rw [chipCommand_wren hc] at hx
  exact ⟨_, hx⟩

/-- Settles O20: the operation is the chip's answer to one `WREN` frame, whose effect is the latch. -/
theorem writeEnableSetsTheLatch : Obligations.WriteEnableSetsTheLatch := by
  intro s a junk es hc hs ho hf hw he
  obtain ⟨t, ht, hdone, hlen, hsr, hchip⟩ := exec_single_chip hs ho (i := .writeEnable a) rfl rfl rfl he
    (tooLong_single hc _) hf (frameFaults_wren hc hw) (chipCommand_wren hc) rfl
  exact ⟨t, _, ht, hdone, hlen, hsr, hchip⟩

/-- Settles O23: step ENABLE is the `WREN` exchange, made after the operands are loaded, and it succeeds. -/
theorem sequencedOperationsAreEnabled : Obligations.SequencedOperationsAreEnabled := by
  intro s i o a count data k junk es hc hs ho hf hw he hi hk hv
  obtain ⟨r, hx⟩ := exchange_wren (s := loadDescriptor o a count data s) hc ho hf hw he
  obtain ⟨_, hok⟩ := sequencedAcceptanceSendsWriteEnable s _ i o a count data k _ hs ho hi hk hv hx
  exact ⟨_, r, hok r rfl, rfl, rfl, rfl, operandBuf_operands hi, rfl, rfl, rfl, rfl, ho, rfl, rfl, rfl, rfl⟩

end Sys2Proof.Machine
end

section
/-! The status and identification family (45_status_id.md R180, R181): what the chip's answer to one `RDSR` frame, busy or
not, and to one `RDID` frame, idle, makes of the operation. -/

namespace Sys2Proof.Machine

variable {c : Config}

/-- `RDID` does not fault at an idle chip (20_memory.md R66, R72). -/
theorem frameFaults_rdid {chip : Chip} (hc : c.wf = true) (hw : chip.wip = false) :
    frameFaults c chip (frame0 c.opcodes.rdid c.idLen) = false :=
  frameFaults_idle hw (by rw [chipCommand_rdid hc]; rfl)

/-- `CHIP_ID` is the whole of an `RDID` response after its undriven byte (20_memory.md R72). -/
theorem drop_rdidResponse (hc : c.wf = true) (junk : List Byte) (draws : Nat) (chip : Chip) (len : Nat) :
    (commandResponse c junk draws chip len (.rdid c.idLen)).drop 1 = c.chipId :=
  idBytes_chipId hc junk draws

/-- Settles O21: the operation is the chip's answer to one `RDSR` frame, which faults at no chip; the byte after the
undriven one is the status byte, both returned and stored, and the command's effect ends the hold. -/
theorem statusReadReturnsTheStatusByte : Obligations.StatusReadReturnsTheStatusByte := by
  intro s a junk es hc hs ho hf he hl
  obtain ⟨t, ht, hdone, hlen, hsr, hchip⟩ := exec_single_chip hs ho (i := .readStatusRegister a) rfl rfl rfl he hl hf
    (frameFaults_rdsr hc s.chip) (chipCommand_rdsr hc) rfl
  obtain ⟨_, hwip, hwel, hhi⟩ := statusByte_fields s.cfg s.chip
  rw [storeStatus_readStatusRegister (b := statusByte s.cfg s.chip) rfl] at hsr
  exact ⟨t, _, statusByte s.cfg s.chip, ht, hdone, hlen, hsr, hwip, hwel, hhi, hchip⟩

/-- Settles O22: the operation is the chip's answer to one `RDID` frame of `ID_LEN` fillers, whose response is `CHIP_ID`
and which has no effect. -/
theorem chipIdIsReturned : Obligations.ChipIdIsReturned := by
  intro s a junk es hc hs ho hf hw he hl
  obtain ⟨t, ht, hdone, hlen, hsr, hchip⟩ := exec_single_chip hs ho (i := .readChipId a) rfl rfl rfl he hl hf
    (frameFaults_rdid hc hw) (chipCommand_rdid hc) rfl
  rw [resultSlice, drop_rdidResponse hc, loadDescriptor_cfg, List.take_of_length_le (idLen_facts hc).2.le] at hdone
  rw [storeStatus_other (o := .readChipId) nofun] at hsr
  exact ⟨t, _, ht, hdone, fun hn => hlen ▸ lenReg_toNat hn, hsr, hchip⟩

end Sys2Proof.Machine
end

section
/-! The exceptions family (60_exceptions.md R190, R191, R204): completion, the ends of an acceptance and of a step of an
operation in flight, and what a loss of power leaves. -/

namespace Sys2Proof.Machine

variable {s t : State} {o : HostOp} {es : List Event}

/-! ## The ends of an operation (60_exceptions.md R190, R191) -/

/-- Settles O18: it is the definition of `complete` and of `raise`. -/
theorem completionWritesOnlyTheResult : Obligations.CompletionWritesOnlyTheResult := fun _ _ _ => ⟨rfl, rfl⟩

/-- The operations without an operand to check are valid, whatever the descriptor holds (41_sequencer.md R139). -/
theorem valid_of_no_operands (h : o = .writeEnable ∨ o = .readStatusRegister ∨ o = .readChipId) (c : Config) (a : Addr)
    (count : BitVec 32) (data : List Byte) : valid c o a count data = true := by
  rcases h with rfl | rfl | rfl <;> rfl

/-- The ends of an acceptance (60_exceptions.md R190): `INVALID_INPUT` for invalid operands alone, `TRANSPORT_ERROR`, `OK`
for a single-transaction operation alone, or ENABLE_SENT without a result; no data but with `OK`. -/
theorem accept_ends (o : HostOp) (a : Addr) (count : BitVec 32) (data : List Byte) (s : State) :
    (valid s.cfg o a count data = false ∧ (accept o a count data s).resStatus = .invalidInput ∧
      (accept o a count data s).resData = []) ∨
    ((accept o a count data s).resStatus = .transportError ∧ (accept o a count data s).resData = []) ∨
    (pollClass o = none ∧ (accept o a count data s).resStatus = .ok) ∨
    ((accept o a count data s).st = .enableSent ∧ (accept o a count data s).resStatus = .noResult ∧
      (accept o a count data s).resData = []) := by
  rcases accept_cases o a count data s with ⟨hv, h⟩ | ⟨_, _, h⟩ | ⟨_, _, hk, h⟩ | ⟨_, _, _, h⟩ <;> rw [h]
  · exact .inl ⟨hv, rfl, rfl⟩
  · exact .inr (.inl ⟨rfl, rfl⟩)
  · rcases stepSingle_cases o (loadDescriptor o a count data s) with ⟨_, h⟩ | ⟨_, _, h⟩ <;> rw [h]
    · exact .inr (.inl ⟨rfl, rfl⟩)
    · exact .inr (.inr (.inl ⟨hk, rfl⟩))
  · rcases stepEnable_cases (loadDescriptor o a count data s) with ⟨_, h⟩ | ⟨_, _, h⟩ <;> rw [h]
    · exact .inr (.inl ⟨rfl, rfl⟩)
    · exact .inr (.inr (.inr ⟨rfl, by simp, by simp⟩))

/-- A step of the operation in flight that leads to IDLE ends it with `OK`, `TRANSPORT_ERROR` or `BUSY_TIMEOUT`
(60_exceptions.md R190). -/
theorem step_inFlight_ends (hs : s.st ≠ .idle) (hio : inOrder s.events = true) (h : step s = .next t)
    (ht : t.st = .idle) : t.resStatus = .ok ∨ t.resStatus = .transportError ∨ t.resStatus = .busyTimeout := by
  rcases step_inFlight hs (noReset_of_inOrder hio) h with ⟨es, he, _⟩ | ⟨_, _, o, _, _, rfl⟩ | ⟨_, _, _, k, _, rfl⟩
  · rw [he] at hio; cases hio
  · rcases stepIssue_leads o s with ⟨_, hres⟩ | ⟨hst, _⟩
    · exact .inr (.inl hres)
    · cases hst.symm.trans ht
  · rcases stepPoll_leads k s with ⟨_, hres⟩ | ⟨hst, _⟩
    · exact hres
    · cases hst.symm.trans ht

/-- Settles O45: the ends of an acceptance one by one, then those of ISSUE and POLL. -/
theorem howOperationsCanEnd : Obligations.HowOperationsCanEnd := by
  refine ⟨fun s t i o a count data hs hi h => ?_, fun s t => step_inFlight_ends⟩
  obtain rfl : accept o a count data s = t := by
    rw [exec_host hi, whenReady_idle _ _ hs] at h
    exact Host.Outcome.next.inj h
  rcases accept_ends o a count data s with ⟨hv, hres, hdata⟩ | ⟨hres, hdata⟩ | ⟨hk, hres⟩ | ⟨hst, hres, hdata⟩ <;>
    rw [hres]
  · refine ⟨nofun, fun ho => ?_, nofun, nofun, fun _ => hdata⟩
    cases hv.symm.trans (valid_of_no_operands ho s.cfg a count data)
  · exact ⟨nofun, nofun, nofun, nofun, fun _ => hdata⟩
  · exact ⟨nofun, nofun, nofun, fun k hk' => (nomatch hk.symm.trans hk'), fun hne => absurd rfl hne⟩
  · exact ⟨nofun, nofun, fun hidle => (nomatch hst.symm.trans hidle), nofun, fun _ => hdata⟩

/-! ## Loss of power (60_exceptions.md R204) -/

/-- A loss of power is taken in any state (00_scope.md R13; log 29). -/
theorem step_powerLoss (he : s.events = .powerLoss :: es) : step s = .next (powerLossTurn (s.withEvents es)) := by
  simp only [step, turn, he]

/-- A loss of power constructs the controller anew (70_reset_and_hazards.md R210). -/
theorem powerLossTurn_resetDone (s : State) (es : List Event) : ResetDone s (powerLossTurn (s.withEvents es)) es := by
  constructor <;> rfl

/-- Settles O60: the step constructs the controller anew, and the chip without `CHIP_FAULT` keeps the array as it is. -/
theorem powerLossKeepsTheArray : Obligations.PowerLossKeepsTheArray := by
  intro s es he
  obtain ⟨hfault, hmem⟩ := chipPowerLoss_keeps s.cfg s.draws s.chip
  refine ⟨_, step_powerLoss he, powerLossTurn_resetDone s es, hfault, fun hf x => ?_⟩
  exact congrArg (Memory.read · x) (hmem hf)

end Sys2Proof.Machine
end

section
/-! The family of reset and hazards (70_reset_and_hazards.md R210, R211, R214): a host operation with the transport
closed, and a reset in any state, between two exchanges and in the middle of one. -/

namespace Sys2Proof.Machine

variable {s : State} {i : Instr} {o : HostOp} {a : Addr} {count : BitVec 32} {data : List Byte} {es : List Event}

/-! ## The closed transport (70_reset_and_hazards.md R214) -/

/-- With the transport closed an acceptance ends at once, by validity alone (70_reset_and_hazards.md R214). -/
theorem accept_closed (ho : s.tpOpen = false) :
    accept o a count data s = (loadDescriptor o a count data s).raise
      (if valid s.cfg o a count data then .transportError else .invalidInput) := by
  rcases accept_cases o a count data s with ⟨hv, h⟩ | ⟨hv, _, h⟩ | ⟨_, ht, _⟩ | ⟨_, ht, _⟩
  · rw [h, hv]; rfl
  · rw [h, hv]; rfl
  · cases ht.symm.trans ho
  · cases ht.symm.trans ho

/-- Settles O11: the operation is accepted, and its acceptance is the loading of its operands and the exception. -/
theorem closedTransportEndsOperations : Obligations.ClosedTransportEndsOperations := by
  intro s i o a count data hs ho hi
  refine ⟨_, (exec_host hi s).trans (congrArg _ (whenReady_idle _ _ hs)), ?_⟩
  rw [accept_closed ho]
  exact ⟨rfl, rfl, rfl, rfl, rfl, rfl, rfl, rfl, ho, rfl⟩

/-! ## Reset (70_reset_and_hazards.md R210, R211) -/

/-- A reset between two exchanges is taken in any state (70_reset_and_hazards.md R211). -/
theorem step_reset (he : s.events = .reset :: es) : step s = .next (s.withEvents es).resetController := by
  simp only [step, turn, he]

/-- A reset in the middle of an exchange is taken in any state (70_reset_and_hazards.md R211; log 17). -/
theorem step_resetMidExchange (he : s.events = .resetMidExchange :: es) :
    step s = .next (resetCutting (s.withEvents es)) := by
  simp only [step, turn, he]

/-- A reset between two exchanges constructs the controller anew (70_reset_and_hazards.md R210). -/
theorem resetController_resetDone (s : State) (es : List Event) :
    ResetDone s (s.withEvents es).resetController es := by
  constructor <;> rfl

/-- A reset in the middle of an exchange constructs the controller anew (70_reset_and_hazards.md R210). -/
theorem resetCutting_resetDone (s : State) (es : List Event) : ResetDone s (resetCutting (s.withEvents es)) es := by
  constructor <;> rfl

/-- The cut frame faults the chip (20_memory.md R74). -/
theorem resetCutting_open (ho : s.tpOpen = true) : (resetCutting s).chip.fault = true := by
  rw [resetCutting_chip, ho]; rfl

/-- With the transport closed there is no frame to cut (log 17). -/
theorem resetCutting_closed (ho : s.tpOpen = false) : (resetCutting s).chip = s.chip := by
  rw [resetCutting_chip, ho]; rfl

/-- Settles O43: both resets construct the controller anew; at the chip the cut frame is the one difference. -/
theorem resetInAnyState : Obligations.ResetInAnyState := by
  intro s es
  constructor
  · intro he
    exact ⟨_, step_reset he, resetController_resetDone s es, rfl⟩
  · intro he
    exact ⟨_, step_resetMidExchange he, resetCutting_resetDone s es,
      fun ho => resetCutting_open (s := s.withEvents es) ho, fun ho => resetCutting_closed (s := s.withEvents es) ho⟩

end Sys2Proof.Machine
end
